-- ==== Sys2Proof/Word.lean ====
section
/-! DEFINITION. The word types of the block: IN bytes, the 16-bit preamble, the 32- and 64-bit fields
(00_scope.md R11, R12: bits are numbered from 0 at the least significant bit). -/

namespace Sys2Proof

/-- One byte of the input space IN (20_memory.md R60). -/
abbrev Byte := BitVec 8

/-- One 4-bit code (30_encoding.md R93). -/
abbrev Nibble := BitVec 4

/-- A 16-bit field: the block preamble, the header version (20_memory.md R67). -/
abbrev Word16 := BitVec 16

/-- A 32-bit field: a tag, a u32 field, an OUT element pattern (20_memory.md R67). -/
abbrev Word32 := BitVec 32

/-- A host register or a 64-bit container field (10_state.md R24, 20_memory.md R67). -/
abbrev Word64 := BitVec 64

end Sys2Proof
end

