-- ==== Sys2Proof/Syntax.lean ====
section
/-! DEFINITION. The instructions: one constructor per row of spec/opcode_table.json, in the table's order. Commands are
64-bit words written to CMD (30_encoding.md R80, R81), codes are 4 bits of a block (R93), chunk classes are 12-byte
chunk headers (R84, R85, R89). -/

namespace Sys2Proof

/-- The 25 rows of the opcode table. A command has no operand in its word (R80), a code has none (R95), and a chunk
header carries the signed 64-bit `size` of its payload (R84); CHUNK_OTHER also carries its tag. -/
inductive Instr where
  | nop
  | parse
  | decode
  | decodeBlock
  | resetState
  | codeP0
  | codeP1
  | codeP2
  | codeP3
  | codeP4
  | codeP5
  | codeP6
  | codeP7
  | codeN0
  | codeN1
  | codeN2
  | codeN3
  | codeN4
  | codeN5
  | codeN6
  | codeN7
  | chunkDesc (size : Word64)
  | chunkPakt (size : Word64)
  | chunkData (size : Word64)
  | chunkOther (tag : Word32) (size : Word64)
deriving DecidableEq, Repr

/-- An encoded instruction, in the form its format gives it: the word written to CMD, the 4 bits of a code, or the
bytes of a chunk header in address order. -/
inductive Encoded where
  | command (word : Word64)
  | code (bits : Nibble)
  | chunkHeader (bytes : List Byte)
deriving DecidableEq, Repr

/-- Why a decoder refuses what it is given. -/
inductive DecodeError where
  /-- A command word with a bit of 63:4 set (30_encoding.md R82). -/
  | reservedBits
  /-- A command word with OP in 5..15 (R82). -/
  | reservedOp
  /-- A chunk header that is not 12 bytes long (R84). -/
  | headerLength
deriving DecidableEq, Repr

end Sys2Proof
end

