-- ==== Sys2Proof/Decode.lean ====
section
/-! DEFINITION. The three decoders and the encoder (30_encoding.md). Every decoder is total: what is no instruction is
refused by name. Byte order is decided here, once: a multi-byte field is big-endian (20_memory.md R63). -/

namespace Sys2Proof

/-- The number whose big-endian bytes these are (00_scope.md R14: the byte at the lower address is more significant). -/
def ofBytesBE (bytes : List Byte) : Nat :=
  bytes.foldl (fun acc b => acc * 256 + b.toNat) 0

/-- The `n` big-endian bytes of `v` (00_scope.md R14). -/
def toBytesBE : Nat → Nat → List Byte
  | 0, _ => []
  | n + 1, v => toBytesBE n (v / 256) ++ [BitVec.ofNat 8 v]

/-- The file-header magic 'caff' (30_encoding.md R83). PRESUMED by the spec from general knowledge (G3), log 15. -/
def Tag.caff : Word32 := 0x63616666#32

/-- The audio-description tag 'desc' (R85). PRESUMED (G3), log 15. -/
def Tag.desc : Word32 := 0x64657363#32

/-- The packet-table tag 'pakt' (R85). PRESUMED (G3), log 15. -/
def Tag.pakt : Word32 := 0x70616B74#32

/-- The data tag 'data' (R85). PRESUMED (G3), log 15. -/
def Tag.data : Word32 := 0x64617461#32

/-- The codec tag 'ima4' (R85). PRESUMED (G4), log 15. -/
def Tag.ima4 : Word32 := 0x696D6134#32

/-- The three recognised chunk tags (30_encoding.md R89). -/
def Tag.recognised (t : Word32) : Bool :=
  t == Tag.desc || t == Tag.pakt || t == Tag.data

/-- The OP field of a command word (30_encoding.md R80). -/
def commandOp (w : Word64) : Nat := (w.extractLsb' 0 4).toNat

/-- The reserved field of a command word (30_encoding.md R80). -/
def commandReserved (w : Word64) : Nat := (w.extractLsb' 4 60).toNat

/-- The command a word stands for (30_encoding.md R80 to R82). -/
def decodeCommand (w : Word64) : Except DecodeError Instr :=
  if commandReserved w ≠ 0 then .error .reservedBits
  else match commandOp w with
    | 0 => .ok .nop
    | 1 => .ok .parse
    | 2 => .ok .decode
    | 3 => .ok .decodeBlock
    | 4 => .ok .resetState
    | _ => .error .reservedOp

/-- The code 4 bits stand for: all 16 values are legal (30_encoding.md R93). -/
def decodeCode (c : Nibble) : Instr :=
  match c.toNat with
  | 0 => .codeP0
  | 1 => .codeP1
  | 2 => .codeP2
  | 3 => .codeP3
  | 4 => .codeP4
  | 5 => .codeP5
  | 6 => .codeP6
  | 7 => .codeP7
  | 8 => .codeN0
  | 9 => .codeN1
  | 10 => .codeN2
  | 11 => .codeN3
  | 12 => .codeN4
  | 13 => .codeN5
  | 14 => .codeN6
  | _ => .codeN7

/-- The chunk class of a tag, with the header's size (30_encoding.md R84, R85, R89): no tag value is illegal. -/
def decodeChunk (tag : Word32) (size : Word64) : Instr :=
  if tag = Tag.desc then .chunkDesc size
  else if tag = Tag.pakt then .chunkPakt size
  else if tag = Tag.data then .chunkData size
  else .chunkOther tag size

/-- The chunk class of 12 header bytes: the tag, then the size, both big-endian (30_encoding.md R84). -/
def decodeChunkHeader (bytes : List Byte) : Except DecodeError Instr :=
  if bytes.length = 12 then
    .ok (decodeChunk (BitVec.ofNat 32 (ofBytesBE (bytes.take 4))) (BitVec.ofNat 64 (ofBytesBE (bytes.drop 4))))
  else .error .headerLength

/-- The decoder of every format. -/
def decode : Encoded → Except DecodeError Instr
  | .command w => decodeCommand w
  | .code c => .ok (decodeCode c)
  | .chunkHeader bytes => decodeChunkHeader bytes

/-- A chunk header's 12 bytes (30_encoding.md R84). -/
def chunkHeaderBytes (tag : Word32) (size : Word64) : List Byte :=
  toBytesBE 4 tag.toNat ++ toBytesBE 8 size.toNat

/-- The encoding of an instruction, from the tables of 30_encoding.md R81, R93 and R85. -/
def encode : Instr → Encoded
  | .nop => .command 0x0000000000000000#64
  | .parse => .command 0x0000000000000001#64
  | .decode => .command 0x0000000000000002#64
  | .decodeBlock => .command 0x0000000000000003#64
  | .resetState => .command 0x0000000000000004#64
  | .codeP0 => .code 0b0000#4
  | .codeP1 => .code 0b0001#4
  | .codeP2 => .code 0b0010#4
  | .codeP3 => .code 0b0011#4
  | .codeP4 => .code 0b0100#4
  | .codeP5 => .code 0b0101#4
  | .codeP6 => .code 0b0110#4
  | .codeP7 => .code 0b0111#4
  | .codeN0 => .code 0b1000#4
  | .codeN1 => .code 0b1001#4
  | .codeN2 => .code 0b1010#4
  | .codeN3 => .code 0b1011#4
  | .codeN4 => .code 0b1100#4
  | .codeN5 => .code 0b1101#4
  | .codeN6 => .code 0b1110#4
  | .codeN7 => .code 0b1111#4
  | .chunkDesc size => .chunkHeader (chunkHeaderBytes Tag.desc size)
  | .chunkPakt size => .chunkHeader (chunkHeaderBytes Tag.pakt size)
  | .chunkData size => .chunkHeader (chunkHeaderBytes Tag.data size)
  | .chunkOther tag size => .chunkHeader (chunkHeaderBytes tag size)

/-- An instruction of the opcode table laid out as the hardware is given it, from its bits as the table numbers them
(log 26): 64 bits are a word for CMD, up to 8 bits are a code in the low nibble of a byte (30_encoding.md R94), 32 bits
are a chunk tag whose size bytes are 0, and 96 bits are a tag and then its size. -/
def tableLayout (nbits w : Nat) : Option Encoded :=
  if nbits = 64 then some (.command (BitVec.ofNat 64 w))
  else if nbits = 32 ∨ nbits = 96 then
    some (.chunkHeader (chunkHeaderBytes (BitVec.ofNat 32 w) (BitVec.ofNat 64 (w / 2 ^ 32))))
  else if nbits ≤ 8 then some (.code (BitVec.ofNat 4 w))
  else none

/-- The instruction the decoder reads from a table row's bits. -/
def decodeTableWord (nbits w : Nat) : Option Instr :=
  match tableLayout nbits w with
  | some e => (decode e).toOption
  | none => none

end Sys2Proof
end

