-- ==== Sys2Proof/Config.lean ====
section
/-! DEFINITION. What is fixed for one instance (00_scope.md R6 to R10), and the free values: what the spec
leaves unspecified (93_implementation_defined.md I18, I24). A free value has no body, so nothing proved here can
depend on what it is. -/

namespace Sys2Proof

/-- OUT_FMT, the output sample format (00_scope.md R6). -/
inductive OutFmt where
  | pcm16
  | float32
deriving DecidableEq, Repr

/-- STREAM_MODE, the operating mode of the Stream Decoder (00_scope.md R7). -/
inductive StreamMode where
  | stateful
  | stateless
deriving DecidableEq, Repr

/-- OUT_BYTE_ORDER, the open byte order of one output element (00_scope.md R10). -/
inductive ByteOrder where
  | little
  | big
deriving DecidableEq, Repr

/-- The parameters of one instance (00_scope.md R6 to R10). They never change after build time. -/
structure Params where
  outFmt       : OutFmt
  streamMode   : StreamMode
  maxChannels  : Nat
  inSize       : Nat
  outSize      : Nat
  outByteOrder : ByteOrder
deriving DecidableEq, Repr

/-- The ranges 00_scope.md R8 and R9 give the parameters. -/
abbrev Params.valid (p : Params) : Prop :=
  1 ≤ p.maxChannels ∧ p.maxChannels ≤ 65535 ∧ p.inSize ≤ 2 ^ 64 ∧ p.outSize ≤ 2 ^ 64

/-- The instance `State.reset` stands for. DESIGN CHOICE (log 1), unsafe for a claim about `State.reset` alone: the
conventions of 95_test_vectors.md (PCM16, STATEFUL, MAX_CHANNELS 2, OUT_SIZE 512), an IN of 65536 bytes, and the open
byte order as LITTLE. Every claim over all states holds for every instance. -/
def Config.defaultParams : Params :=
  { outFmt := .pcm16, streamMode := .stateful, maxChannels := 2, inSize := 65536, outSize := 512,
    outByteOrder := .little }

/-- A byte of IN that nothing has written (70_reset_and_hazards.md R240: "the model takes any byte"). Free value,
log 2, safe. -/
opaque Config.inPowerOn : Nat → Byte

/-- An element of OUT that nothing has written (R240). Free value, log 3, safe. -/
opaque Config.outPowerOn : Nat → Word32

/-- What a host read of a register other than STATUS and CONFIG gives while BUSY = 1 (10_state.md R27: "a draw the
model does not constrain"), the n-th such draw. Free value, log 4, safe. -/
opaque Config.busyRead : Nat → Word64

end Sys2Proof
end

