-- ==== Sys2Proof/Machine/State.lean ====
section
/-! DEFINITION. The state of the machine as plain data: everything 10_state.md gives it, the hidden state of a command
(R46), the model-level hazard mark (60_exceptions.md R223), and the model's own fields for the host agent. -/

namespace Sys2Proof.Machine

/-- The result codes of STATUS.ERR (60_exceptions.md R211). The reserved values are never produced, so they have no
constructor (93_implementation_defined.md I23). -/
inductive ErrCode where
  | ok
  | badMagic
  | badVersion
  | badFormat
  | missingChunk
  | corrupt
  | inRange
  | illegalCmd
  | notParsed
  | badChannels
  | unalignedOffset
  | seekMismatch
  | frameRange
  | blockRange
  | outRange
  | badIndex
  | badCount
  | badChannel
deriving DecidableEq, Repr

/-- The fields of STATUS (10_state.md R29). -/
structure Status where
  err     : ErrCode
  busy    : Bool
  parsed  : Bool
  errSeen : Bool
  overrun : Bool
deriving DecidableEq, Repr

/-- The stored fields of BLK_ARGS (10_state.md R34); its reserved fields read 0 and are not stored. -/
structure BlkArgs where
  count   : BitVec 7
  channel : BitVec 16
  stride  : BitVec 32
deriving DecidableEq, Repr

/-- One ChannelState entry (10_state.md R22). -/
structure ChannelState where
  index     : Nat
  predictor : Int
deriving DecidableEq, Repr

/-- The "zero-initialized" entry (10_state.md R22). -/
def ChannelState.zero : ChannelState := { index := 0, predictor := 0 }

/-- What the last desc chunk walked yields (40_container_parser.md R120). -/
structure DescFields where
  rate  : Word64
  chans : Word32
deriving DecidableEq, Repr

/-- What the last data chunk walked yields (40_container_parser.md R124). -/
structure DataFields where
  base : Nat
  size : Nat
deriving DecidableEq, Repr

/-- The hidden state of the chunk walk (40_container_parser.md R115): the cursor, the end of the buffer, and what each
recognised chunk yielded (a "seen" flag is that the field is there). -/
structure WalkRun where
  cursor : Nat
  bufEnd : Nat
  desc   : Option DescFields
  pakt   : Option Word64
  data   : Option DataFields
deriving DecidableEq, Repr

/-- The hidden state of one block decode (41_block_decoder.md R143, R153): where it reads and writes, how many codes it
decodes, for which channel, how many are done, the running predictor, index and step, and the block's number in DECODE's
loop order (42_stream_decoder.md R184; 0 in DECODE_BLOCK). -/
structure BlockRun where
  outBase : Nat
  stride  : Nat
  addr    : Nat
  count   : Nat
  chan    : Nat
  blockNo : Nat
  k       : Nat
  pred    : Int
  index   : Nat
  step    : Nat
deriving DecidableEq, Repr

/-- The hidden state of the command in progress (10_state.md R21, R46): none, a chunk walk, or a block. It is idle
between commands. -/
inductive Run where
  | idle
  | walk (w : WalkRun)
  | block (b : BlockRun)
deriving DecidableEq, Repr

/-- One access of the host (00_scope.md R19): a whole register by its index, a byte of IN, an element of OUT. -/
inductive HostAccess where
  | regWrite (index : Nat) (value : Word64)
  | regRead (index : Nat)
  | inWrite (addr : Nat) (value : Byte)
  | inRead (addr : Nat)
  | outWrite (elem : Nat) (value : Word32)
  | outRead (elem : Nat)
deriving DecidableEq, Repr

/-- Whose turn it is (log 5): a host access, the host's WAIT (30_encoding.md R98), the external reset
(70_reset_and_hazards.md R240), or the core's step. -/
inductive Turn where
  | host (a : HostAccess)
  | wait
  | reset
  | core
deriving DecidableEq, Repr

/-- What the host keeps of its run (log 19): a value one of its reads returned, or a command its CMD write started, with
OUT_BASE and OUT_LEN as they were then. -/
inductive HostEvent where
  | reg (index : Nat) (value : Word64)
  | inByte (addr : Nat) (value : Byte)
  | outElem (elem : Nat) (value : Word32)
  | command (word outBase outLen : Word64)
deriving DecidableEq, Repr

/-- The whole machine. -/
structure State where
  /-- The instance's parameters (00_scope.md R6 to R10); no step changes them (log 1). -/
  params         : Params
  /-- STATUS, index 1 (10_state.md R29). -/
  status         : Status
  /-- The pending command word (R20, R28). -/
  pending        : Word64
  /-- IN_BASE, index 3 (R31). -/
  inBase         : Word64
  /-- IN_LEN, index 4 (R31). -/
  inLen          : Word64
  /-- OUT_BASE, index 5 (R32). -/
  outBase        : Word64
  /-- OUT_LEN, index 6 (R32). -/
  outLen         : Word64
  /-- FRAME_OFFSET, index 7 (R33). -/
  frameOffset    : Word64
  /-- FRAME_COUNT, index 8, bits 31:0 (R33). -/
  frameCount     : Word32
  /-- BLK_ADDR, index 9 (R34). -/
  blkAddr        : Word64
  /-- BLK_ARGS, index 10 (R34). -/
  blkArgs        : BlkArgs
  /-- CH_SEL, index 11, bits 15:0 (R35). -/
  chSel          : BitVec 16
  /-- SI_BLOCK_BASE, index 13 (R39). -/
  siBlockBase    : Word64
  /-- SI_BLOCK_SIZE, index 14 (R40). -/
  siBlockSize    : Word64
  /-- SI_SAMPLE_RATE, index 15 (R41). -/
  siSampleRate   : Word64
  /-- SI_FRAME_COUNT, index 16 (R42). -/
  siFrameCount   : Word64
  /-- SI_CHANNEL_COUNT, index 17, bits 31:0 (R43). -/
  siChannelCount : Word32
  /-- NEXT_FRAME, index 18 (R44). -/
  nextFrame      : Word64
  /-- DECODED, index 19 (R45). -/
  decoded        : Word64
  /-- CH[0 .. MAX_CHANNELS-1] (R22). -/
  ch             : List ChannelState
  /-- IN, the bytes something has written (20_memory.md R60). -/
  inMem          : List Host.Cell
  /-- OUT, the elements something has written; a PCM16 pattern stands in the low 16 bits (R61, log 21). -/
  outMem         : List (Nat × Word32)
  /-- The hidden state of the command in progress (10_state.md R46). -/
  run            : Run
  /-- The model-level fault mark HOST_HAZARD (60_exceptions.md R223). -/
  hostHazard     : Bool
  /-- The model's own: the turns to come (log 5). -/
  schedule       : List Turn
  /-- The model's own: what the host keeps of its run, newest first (log 19). -/
  history        : List HostEvent
  /-- The model's own: how many unspecified register reads were drawn (log 4). -/
  draws          : Nat
deriving DecidableEq, Repr

/-- Why a step stops. Every one of these is safe: the model stops where the spec says nothing (or says that it never
happens). -/
inductive Fault where
  /-- Raised by every step once HOST_HAZARD is recorded (60_exceptions.md R223, 70_reset_and_hazards.md R245: "the spec
  says nothing more about that run"). Safe, log 9. -/
  | hostHazard
  /-- Raised by an access to a byte of IN at or above IN_SIZE (20_memory.md R60): a host access (log 10), or a core
  access, which no rule makes (R75, log 11). Safe. -/
  | noSuchInByte
  /-- Raised by an access to an element of OUT at or above OUT_SIZE (20_memory.md R61): a host access (log 10), or a core
  access, which no rule makes (R75, log 11). Safe. -/
  | noSuchOutElement
  /-- Raised by a code when no block is being decoded: a code has no running state to act on (41_block_decoder.md R153).
  Safe, log 12. -/
  | noBlock
  /-- Raised by a chunk when no walk is in progress (40_container_parser.md R115). Safe, log 12. -/
  | noWalk
  /-- Raised where the code dispatcher or the chunk dispatcher is handed an instruction of another format; the decoders
  never do so. Safe, log 12. -/
  | wrongFormat
  /-- Raised if the walk needs more steps than the buffer can hold chunks; no walk does. Safe, log 12. -/
  | walkUnfinished
deriving DecidableEq, Repr

/-- Why the model has no meaning for an instruction. -/
inductive Refusal where
  /-- Raised by `exec` for an instruction without a meaning, by its mnemonic; none is left. Safe. -/
  | notModelled (mnemonic : String)
deriving DecidableEq, Repr

/-- The outcome of one step or one instruction. -/
abbrev Result := Host.Outcome State Fault Refusal

/-- Every register at its reset value for an instance with parameters `p` (70_reset_and_hazards.md R240, R241), IN and
OUT with nothing written, no hazard, and no turn to come. -/
def State.resetWith (p : Params) : State :=
  { params := p
    status := { err := .ok, busy := false, parsed := false, errSeen := false, overrun := false }
    pending := 0
    inBase := 0
    inLen := 0
    outBase := 0
    outLen := 0
    frameOffset := 0
    frameCount := 0
    blkAddr := 0
    blkArgs := { count := 0, channel := 0, stride := 0 }
    chSel := 0
    siBlockBase := 0
    siBlockSize := 0
    siSampleRate := 0
    siFrameCount := 0
    siChannelCount := 0
    nextFrame := 0
    decoded := 0
    ch := List.replicate p.maxChannels ChannelState.zero
    inMem := []
    outMem := []
    run := .idle
    hostHazard := false
    schedule := []
    history := []
    draws := 0 }

/-- The machine right after power-on, for the default instance (log 1). -/
def State.reset : State := State.resetWith Config.defaultParams

end Sys2Proof.Machine
end

