-- ==== Sys2Proof/Machine/Flags.lean ====
section
/-! DEFINITION. STATUS: the numbers of the result codes (60_exceptions.md R211), the 64-bit word the host reads
(10_state.md R29), and what each event does to its fields. -/

namespace Sys2Proof.Machine

/-- The number of a result code (60_exceptions.md R211). -/
def ErrCode.code : ErrCode → BitVec 8
  | .ok              => 0x00#8
  | .badMagic        => 0x01#8
  | .badVersion      => 0x02#8
  | .badFormat       => 0x03#8
  | .missingChunk    => 0x04#8
  | .corrupt         => 0x05#8
  | .inRange         => 0x06#8
  | .illegalCmd      => 0x10#8
  | .notParsed       => 0x11#8
  | .badChannels     => 0x12#8
  | .unalignedOffset => 0x13#8
  | .seekMismatch    => 0x14#8
  | .frameRange      => 0x15#8
  | .blockRange      => 0x16#8
  | .outRange        => 0x17#8
  | .badIndex        => 0x18#8
  | .badCount        => 0x19#8
  | .badChannel      => 0x1A#8

/-- STATUS as the host reads it: ERR in 7:0, BUSY 8, PARSED 9, ERR_SEEN 10, OVERRUN 11, the rest 0 (10_state.md R29). -/
def Status.word (st : Status) : Word64 :=
  0#52 ++ BitVec.ofBool st.overrun ++ BitVec.ofBool st.errSeen ++ BitVec.ofBool st.parsed ++ BitVec.ofBool st.busy
    ++ st.err.code

/-- Completion without an error (60_exceptions.md R210, `complete`). -/
def Status.completed (st : Status) : Status := { st with err := .ok, busy := false }

/-- Completion with error `e` (60_exceptions.md R210, `raise E`). -/
def Status.raised (e : ErrCode) (st : Status) : Status := { st with err := e, errSeen := true, busy := false }

/-- A PARSE that completes with an error also clears PARSED (40_container_parser.md R129). -/
def Status.parseFailed (st : Status) : Status := { st with parsed := false }

/-- A PARSE that completes OK sets PARSED (40_container_parser.md R128). -/
def Status.parseDone (st : Status) : Status := { st with parsed := true }

/-- A CMD write sets BUSY and leaves every other field (10_state.md R28). -/
def Status.started (st : Status) : Status := { st with busy := true }

/-- A dropped host write sets OVERRUN (10_state.md R26). -/
def Status.overran (st : Status) : Status := { st with overrun := true }

/-- STATUS after reset (70_reset_and_hazards.md R240). -/
def Status.zero : Status := { err := .ok, busy := false, parsed := false, errSeen := false, overrun := false }

end Sys2Proof.Machine
end

