-- ==== Sys2Proof/Machine/Operands.lean ====
section
/-! DEFINITION. How operands are read and results are formed: the register fields (10_state.md R30, R34, R35), the
command operands (30_encoding.md R95), the preamble (R92), the code's place in a byte (R94), and the sample's output
pattern (41_block_decoder.md R149, R160). -/

namespace Sys2Proof.Machine

/-- `clamp(v, lo, hi)` (00_scope.md R13). -/
def clamp (v lo hi : Int) : Int := if v < lo then lo else if hi < v then hi else v

/-- A predictor value saturated to 16 bits (41_block_decoder.md R154). -/
def clampPred (v : Int) : Int := clamp v (-32768) 32767

/-- An index value clamped to [0,88] (41_block_decoder.md R156). -/
def clampIndex (v : Int) : Nat := (clamp v 0 88).toNat

/-- The fields of a word written to BLK_ARGS; the reserved bits are ignored (10_state.md R34). -/
def BlkArgs.ofWord (w : Word64) : BlkArgs :=
  { count := w.extractLsb' 0 7, channel := w.extractLsb' 8 16, stride := w.extractLsb' 32 32 }

/-- BLK_ARGS as the host reads it; the reserved bits read 0 (10_state.md R34). -/
def BlkArgs.word (b : BlkArgs) : Word64 := b.stride ++ 0#8 ++ b.channel ++ 0#1 ++ b.count

/-- CONFIG as the host reads it (10_state.md R30). -/
def Params.configWord (p : Params) : Word64 :=
  0#16 ++ BitVec.ofNat 16 p.maxChannels ++ 0#30
    ++ BitVec.ofBool (decide (p.streamMode = .stateless)) ++ BitVec.ofBool (decide (p.outFmt = .float32))

/-- The CH_STATE window of an entry: index in 6:0, the predictor's two's complement in 31:16 (10_state.md R35). -/
def ChannelState.window (c : ChannelState) : Word64 :=
  0#32 ++ BitVec.ofInt 16 c.predictor ++ 0#9 ++ BitVec.ofNat 7 c.index

/-- The entry a word written to CH_STATE stands for: the index field is clamped to 88 (10_state.md R35). -/
def ChannelState.ofWindow (w : Word64) : ChannelState :=
  { index := min (w.extractLsb' 0 8).toNat 88, predictor := (w.extractLsb' 16 16).toInt }

/-- The operands of DECODE, as unbounded numbers (42_stream_decoder.md R180, 00_scope.md R13). -/
structure DecodeOperands where
  off    : Nat
  frames : Nat
  chans  : Nat
  base   : Nat
  size   : Nat
  total  : Nat
deriving DecidableEq, Repr

/-- The operands of DECODE, read from the registers (42_stream_decoder.md R180). -/
def decodeOperands (s : State) : DecodeOperands :=
  { off := s.frameOffset.toNat
    frames := s.frameCount.toNat
    chans := s.siChannelCount.toNat
    base := s.siBlockBase.toNat
    size := s.siBlockSize.toNat
    total := s.siFrameCount.toNat }

/-- How many 64-frame slots `n` frames take, ceil(n/64) (42_stream_decoder.md R188). -/
def slotsFor (n : Nat) : Nat := (n + 63) / 64

/-- What one block decode is given (41_block_decoder.md R143), with the block's number in DECODE's loop order. -/
structure BlockArgs where
  outBase : Nat
  stride  : Nat
  addr    : Nat
  count   : Nat
  chan    : Nat
  blockNo : Nat
deriving DecidableEq, Repr

/-- The arguments DECODE_BLOCK takes from its registers (41_block_decoder.md R177, 30_encoding.md R95). -/
def decodeBlockArgs (s : State) : BlockArgs :=
  { outBase := s.outBase.toNat
    stride := s.blkArgs.stride.toNat
    addr := s.blkAddr.toNat
    count := s.blkArgs.count.toNat
    chan := s.blkArgs.channel.toNat
    blockNo := 0 }

/-- The arguments of DECODE's j-th block in loop order: slot `j / ch`, channel `j % ch` (42_stream_decoder.md R184,
R191). -/
def decodeArgs (s : State) (j : Nat) : BlockArgs :=
  { outBase := s.outBase.toNat + 64 * (j / (decodeOperands s).chans) * (decodeOperands s).chans
      + j % (decodeOperands s).chans
    stride := (decodeOperands s).chans
    addr := (decodeOperands s).base
      + 34 * (((decodeOperands s).off / 64 + j / (decodeOperands s).chans) * (decodeOperands s).chans
        + j % (decodeOperands s).chans)
    count := min 64 ((decodeOperands s).frames - 64 * (j / (decodeOperands s).chans))
    chan := j % (decodeOperands s).chans
    blockNo := j }

/-- The preamble's INDEX field, `P[6:0]` (30_encoding.md R92). -/
def preambleIndex (p : Word16) : Nat := (p.extractLsb' 0 7).toNat

/-- The preamble's seed, `signed16(P[15:7] ++ 0b0000000)` (30_encoding.md R92). PRESUMED by the spec (D6, G5), log 16. -/
def preambleSeed (p : Word16) : Int := (p.extractLsb' 7 9 ++ 0#7 : BitVec 16).toInt

/-- Code `k` of a block from its byte: bits 3:0 when `k` is even, 7:4 when it is odd (30_encoding.md R94). -/
def nibbleOf (k : Nat) (b : Byte) : Nibble := if k % 2 = 0 then b.extractLsb' 0 4 else b.extractLsb' 4 4

/-- The delta magnitude of a code at the running step: each term shifts the step itself (41_block_decoder.md R151). -/
def codeDelta (code : Nibble) (step : Nat) : Nat :=
  (step >>> 3)
    + (if code.getLsbD 2 then step else 0)
    + (if code.getLsbD 1 then step >>> 1 else 0)
    + (if code.getLsbD 0 then step >>> 2 else 0)

/-- The predictor after a code: the sign is bit 3, and the result saturates (41_block_decoder.md R154). -/
def codePred (code : Nibble) (step : Nat) (pred : Int) : Int :=
  if code.getLsbD 3 then clampPred (pred - codeDelta code step) else clampPred (pred + codeDelta code step)

/-- The PCM16 pattern of a sample, `v mod 2^16`, in the low half of the element (41_block_decoder.md R149, log 21). -/
def pcm16Bits (v : Int) : Word32 := (BitVec.ofInt 16 v).setWidth 32

/-- The significand of K = 0x38000100: K is 8388864 * 2^-38 (41_block_decoder.md R160). -/
def floatScale : Nat := 8388864

/-- `m / 2^sh` rounded to the nearest integer, ties to even. -/
def roundShiftEven (m sh : Nat) : Nat :=
  let q := m / 2 ^ sh
  let r := m % 2 ^ sh
  if 2 * r < 2 ^ sh then q
  else if 2 ^ sh < 2 * r then q + 1
  else if q % 2 = 0 then q else q + 1

/-- The binary32 pattern of a positive `m * 2^-38` rounded to nearest even, for `m` of at least 24 bits whose result is
normal: a significand of 24 bits whose leading one is implicit, under a biased exponent. A significand rounded up to 2^24
carries into the exponent. -/
def floatMagnitude (m : Nat) : Nat :=
  let sh := m.log2 - 23
  (sh + 112) * 2 ^ 23 + (roundShiftEven m sh - 2 ^ 23)

/-- The FLOAT32 pattern of a sample: `bits32(RNE32(v * K))`, the product exact (41_block_decoder.md R160, log 17). -/
def float32Bits (v : Int) : Word32 :=
  if v = 0 then 0
  else BitVec.ofNat 32 ((if v < 0 then 2 ^ 31 else 0) + floatMagnitude (v.natAbs * floatScale))

/-- `conv`, the element pattern of a sample (41_block_decoder.md R155). -/
def sampleBits : OutFmt → Int → Word32
  | .pcm16, v => pcm16Bits v
  | .float32, v => float32Bits v

/-- An element pattern of the width OUT_FMT gives OUT's elements (20_memory.md R61). -/
def elementBits : OutFmt → Word32 → Word32
  | .pcm16, v => (v.extractLsb' 0 16).setWidth 32
  | .float32, v => v

/-- The bytes of an OUT element as the host views them, lowest address first, under the open parameter OUT_BYTE_ORDER
(00_scope.md R10, 20_memory.md R64, log 22). No rule of the machine depends on it. -/
def elementBytes (p : Params) (v : Word32) : List Byte :=
  let bytes := match p.outFmt with
    | .pcm16 => [v.extractLsb' 0 8, v.extractLsb' 8 8]
    | .float32 => [v.extractLsb' 0 8, v.extractLsb' 8 8, v.extractLsb' 16 8, v.extractLsb' 24 8]
  match p.outByteOrder with
  | .little => bytes
  | .big => bytes.reverse

end Sys2Proof.Machine
end

