-- ==== Sys2Proof/Machine/Ops.lean ====
section
/-! DEFINITION. The named operations over the state: the canonical memories, the reads of IN and the writes of OUT
(00_scope.md R14, 20_memory.md), the channel array (10_state.md R22), how a command ends (60_exceptions.md R210), and
reset (70_reset_and_hazards.md R240). -/

namespace Sys2Proof.Machine

/-- Go on with the next state of an outcome; a fault or a refusal stays. -/
def andThen (o : Result) (k : State → Result) : Result :=
  match o with
  | .next s => k s
  | .fault f => .fault f
  | .refused r => .refused r

/-- The canonical form of a memory: addresses strictly rising. An unlisted address has no value at this level, so no
entry can equal what an unlisted address reads as. -/
abbrev Memory.wf {α : Type} (m : List (Nat × α)) : Prop := (m.map Prod.fst).Pairwise (· < ·)

/-- The value listed at an address. -/
def Memory.read? {α : Type} : List (Nat × α) → Nat → Option α
  | [], _ => none
  | (k, v) :: rest, a => if k = a then some v else Memory.read? rest a

/-- Write a value at an address, keeping the canonical form. -/
def Memory.write {α : Type} (a : Nat) (v : α) : List (Nat × α) → List (Nat × α)
  | [] => [(a, v)]
  | (k, w) :: rest =>
    if a < k then (a, v) :: (k, w) :: rest
    else if a = k then (a, v) :: rest
    else (k, w) :: Memory.write a v rest

/-- The byte of IN at an address: a byte nothing has written is a free value (70_reset_and_hazards.md R240, log 2). -/
def State.inByte (s : State) (a : Nat) : Byte := (Memory.read? s.inMem a).getD (Config.inPowerOn a)

/-- The `n` bytes of IN from an address on. -/
def State.inBytes (s : State) : Nat → Nat → List Byte
  | _, 0 => []
  | a, n + 1 => s.inByte a :: s.inBytes (a + 1) n

/-- `MemRead(a, n)`: n bytes of IN as one big-endian number (00_scope.md R14, 20_memory.md R63, R65). -/
def State.memRead (s : State) (a n : Nat) : Nat := ofBytesBE (s.inBytes a n)

/-- `rd_u16(a)` (00_scope.md R14). -/
def State.rdU16 (s : State) (a : Nat) : Word16 := BitVec.ofNat 16 (s.memRead a 2)

/-- `rd_u32(a)` and a 4-byte tag (00_scope.md R14). -/
def State.rdU32 (s : State) (a : Nat) : Word32 := BitVec.ofNat 32 (s.memRead a 4)

/-- The 64-bit pattern at `a`: `rd_f64bits(a)`, and `rd_i64(a)` before its sign is read (00_scope.md R14). -/
def State.rdU64 (s : State) (a : Nat) : Word64 := BitVec.ofNat 64 (s.memRead a 8)

/-- `InOK(a, n)`, in unbounded numbers (20_memory.md R74). -/
abbrev State.inOK (s : State) (a n : Nat) : Prop := a + n ≤ s.params.inSize

/-- `OutOK(n)`, in unbounded numbers (20_memory.md R74). -/
abbrev State.outOK (s : State) (n : Nat) : Prop :=
  n ≤ s.outLen.toNat ∧ s.outBase.toNat + n ≤ s.params.outSize

/-- The pattern of an OUT element: an element nothing has written is a free value of the element's width
(20_memory.md R61, log 3). -/
def State.outElem (s : State) (e : Nat) : Word32 :=
  (Memory.read? s.outMem e).getD (elementBits s.params.outFmt (Config.outPowerOn e))

/-- Store a byte in IN. -/
def State.storeIn (a : Nat) (b : Byte) (s : State) : State := { s with inMem := Memory.write a b s.inMem }

/-- Store consecutive bytes in IN. -/
def State.storeInBytes : Nat → List Byte → State → State
  | _, [], s => s
  | a, b :: rest, s => State.storeInBytes (a + 1) rest (s.storeIn a b)

/-- `MemWrite(e, w, v)`: store one whole element pattern in OUT (00_scope.md R14, 20_memory.md R67). -/
def State.storeOut (e : Nat) (v : Word32) (s : State) : State := { s with outMem := Memory.write e v s.outMem }

/-- ChannelState entry `c` (10_state.md R22). -/
def State.channel (s : State) (c : Nat) : ChannelState := s.ch.getD c ChannelState.zero

/-- Write ChannelState entry `c`. -/
def State.setChannel (c : Nat) (v : ChannelState) (s : State) : State := { s with ch := s.ch.set c v }

/-- Every `CH[c] <- {0, 0}`, all MAX_CHANNELS entries (40_container_parser.md R128, 42_stream_decoder.md R186, R193). -/
def State.zeroChannels (s : State) : State :=
  { s with ch := List.replicate s.params.maxChannels ChannelState.zero }

/-- Set the hidden state of the command in progress (10_state.md R46). -/
def State.withRun (r : Run) (s : State) : State := { s with run := r }

/-- `raise E`: the command ends at once with error `e`, and its hidden state is gone (60_exceptions.md R210; there are no
traps, R221). -/
def State.raise (e : ErrCode) (s : State) : State :=
  { s with status := s.status.raised e, run := .idle }

/-- `raise E` in PARSE, which also clears PARSED (60_exceptions.md R210, 40_container_parser.md R129). -/
def State.raiseParse (e : ErrCode) (s : State) : State :=
  { s with status := (s.status.raised e).parseFailed, run := .idle }

/-- `complete`: the command ends with OK, and its hidden state is gone (60_exceptions.md R210). -/
def State.complete (s : State) : State :=
  { s with status := s.status.completed, run := .idle }

/-- The external reset event: every register and CH at its reset value, hidden state discarded, IN, OUT and the
parameters kept (70_reset_and_hazards.md R240); the hazard mark is never cleared (60_exceptions.md R223), and the host
agent's own fields are not the block's (log 23). -/
def State.resetEvent (s : State) : State :=
  { State.resetWith s.params with
    inMem := s.inMem
    outMem := s.outMem
    hostHazard := s.hostHazard
    schedule := s.schedule
    history := s.history
    draws := s.draws }

end Sys2Proof.Machine
end

