-- ==== Sys2Proof/Machine/ContainerParser.lean ====
section
/-! DEFINITION. The Container Parser: the four chunk classes and the command PARSE (40_container_parser.md). -/

namespace Sys2Proof.Machine

/-- The success of PARSE, all at once (40_container_parser.md R128). -/
def State.parseSuccess (d : DescFields) (frames : Word64) (b : DataFields) (s : State) : State :=
  { s.zeroChannels with
    status := s.status.completed.parseDone
    siBlockBase := BitVec.ofNat 64 b.base
    siBlockSize := BitVec.ofNat 64 b.size
    siSampleRate := d.rate
    siFrameCount := frames
    siChannelCount := d.chans
    nextFrame := 0
    decoded := 0
    run := .idle }

/-- After a chunk: PARSE succeeds if all three kinds have been seen, else the walk goes on (40_container_parser.md
R127). -/
def walkAdvance (w : WalkRun) (s : State) : State :=
  match w.desc, w.pakt, w.data with
  | some d, some f, some b => s.parseSuccess d f b
  | _, _, _ => s.withRun (.walk w)

/-- The payload length of a chunk: a negative size is malformed, but a data chunk's -1 extends it to the end of the
buffer (40_container_parser.md R118; PRESUMED by the spec, G6, log 15). -/
def chunkLength (isData : Bool) (size : Word64) (payload bufEnd : Nat) : Option Nat :=
  if size.toInt < 0 then
    if isData ∧ size.toInt = -1 then some (bufEnd - payload) else none
  else some size.toNat

/-- One chunk at the cursor: its size (40_container_parser.md R118), its bounds (R119), what its class does with the
payload (`body`, given the walk, the payload's address and its length), the advance (R126) and the stop test (R127).
Stops when no walk is in progress (log 12), or when the walk's buffer does not lie in IN, which R111 rules out
(log 11). -/
def applyChunk (isData : Bool) (size : Word64) (s : State)
    (body : WalkRun → Nat → Nat → Except ErrCode WalkRun) : Result :=
  match s.run with
  | .walk w =>
    if w.bufEnd ≤ s.params.inSize then
      match chunkLength isData size (w.cursor + 12) w.bufEnd with
      | none => .next (s.raiseParse .corrupt)
      | some len =>
        if w.bufEnd < w.cursor + 12 + len then .next (s.raiseParse .corrupt)
        else match body w (w.cursor + 12) len with
          | .error e => .next (s.raiseParse e)
          | .ok w' => .next (walkAdvance { w' with cursor := w.cursor + 12 + len } s)
    else .fault .noSuchInByte
  | .idle | .block _ => .fault .noWalk

/-- What a desc chunk does (40_container_parser.md R120; the other fields are not checked, R121). -/
def descBody (s : State) (w : WalkRun) (payload len : Nat) : Except ErrCode WalkRun :=
  if len < 32 then .error .corrupt
  else if s.rdU32 (payload + 8) ≠ Tag.ima4 then .error .badFormat
  else .ok { w with desc := some { rate := s.rdU64 payload, chans := s.rdU32 (payload + 24) } }

/-- What a pakt chunk does (40_container_parser.md R122, R123). -/
def paktBody (s : State) (w : WalkRun) (payload len : Nat) : Except ErrCode WalkRun :=
  if len < 24 then .error .corrupt
  else if (s.rdU64 (payload + 8)).toInt < 0 then .error .corrupt
  else .ok { w with pakt := some (s.rdU64 (payload + 8)) }

/-- What a data chunk does: the block array stands after the 4-byte edit_count (40_container_parser.md R124). -/
def dataBody (w : WalkRun) (payload len : Nat) : Except ErrCode WalkRun :=
  if len < 4 then .error .corrupt
  else .ok { w with data := some { base := payload + 4, size := len - 4 } }

/-- CHUNK_DESC (40_container_parser.md R120). -/
def execChunkDesc (size : Word64) (s : State) : Result := applyChunk false size s (descBody s)

/-- CHUNK_PAKT (40_container_parser.md R122). -/
def execChunkPakt (size : Word64) (s : State) : Result := applyChunk false size s (paktBody s)

/-- CHUNK_DATA (40_container_parser.md R124). -/
def execChunkData (size : Word64) (s : State) : Result := applyChunk true size s dataBody

/-- CHUNK_OTHER: skipped without reading its payload, whatever its tag (40_container_parser.md R125, 30_encoding.md
R89). -/
def execChunkOther (_tag : Word32) (size : Word64) (s : State) : Result :=
  applyChunk false size s fun w _ _ => .ok w

/-- Run the chunk an instruction of the chunk format stands for. The chunk decoder answers only chunk classes
(30_encoding.md R89), so the last arm is never met. -/
def runChunk (i : Instr) (s : State) : Result :=
  match i with
  | .chunkDesc size => execChunkDesc size s
  | .chunkPakt size => execChunkPakt size s
  | .chunkData size => execChunkData size s
  | .chunkOther tag size => execChunkOther tag size s
  | .nop | .parse | .decode | .decodeBlock | .resetState
  | .codeP0 | .codeP1 | .codeP2 | .codeP3 | .codeP4 | .codeP5 | .codeP6 | .codeP7
  | .codeN0 | .codeN1 | .codeN2 | .codeN3 | .codeN4 | .codeN5 | .codeN6 | .codeN7 => .fault .wrongFormat

/-- One step of the walk: the end of the buffer (40_container_parser.md R116), a header cut short (R117), else the
chunk whose header stands at the cursor (R118). -/
def walkStep (s : State) : Result :=
  match s.run with
  | .walk w =>
    if w.bufEnd ≤ s.params.inSize then
      if w.cursor = w.bufEnd then .next (s.raiseParse .missingChunk)
      else if w.bufEnd < w.cursor + 12 then .next (s.raiseParse .corrupt)
      else match decodeChunkHeader (s.inBytes w.cursor 12) with
        | .ok i => runChunk i s
        | .error _ => .fault .wrongFormat
    else .fault .noSuchInByte
  | .idle | .block _ => .fault .noWalk

/-- The walk, at most `fuel` steps of it (40_container_parser.md R130). A chunk takes at least 12 bytes, so PARSE gives
it steps enough (log 12). -/
def walkLoop : Nat → State → Result
  | 0, _ => .fault .walkUnfinished
  | fuel + 1, s => andThen (walkStep s) fun t =>
    match t.run with
    | .walk _ => walkLoop fuel t
    | .idle | .block _ => .next t

/-- The first failing check of PARSE before its walk (40_container_parser.md R111 to R114; 60_exceptions.md R216). -/
def parseCheck (s : State) : Option ErrCode :=
  if ¬ s.inOK s.inBase.toNat s.inLen.toNat then some .inRange
  else if s.inLen.toNat < 4 ∨ s.rdU32 s.inBase.toNat ≠ Tag.caff then some .badMagic
  else if s.inLen.toNat < 8 then some .corrupt
  else if s.rdU16 (s.inBase.toNat + 4) ≠ 1#16 then some .badVersion
  else none

/-- The walk PARSE starts after the file header (40_container_parser.md R115). -/
def startWalk (s : State) : WalkRun :=
  { cursor := s.inBase.toNat + 8, bufEnd := s.inBase.toNat + s.inLen.toNat, desc := none, pakt := none, data := none }

/-- PARSE (40_container_parser.md R130). -/
def execParse (s : State) : Result :=
  match parseCheck s with
  | some e => .next (s.raiseParse e)
  | none => walkLoop (s.inLen.toNat / 12 + 1) (s.withRun (.walk (startWalk s)))

end Sys2Proof.Machine
end

