-- ==== Sys2Proof/Machine/Codes.lean ====
section
/-! DEFINITION. The sixteen codes (41_block_decoder.md R161 to R176): one step of the running block each, over one
shared operation (R151, R154 to R157). -/

namespace Sys2Proof.Machine

/-- The running block after one code: predictor, index, step and code counter (41_block_decoder.md R154, R156, R157). -/
def BlockRun.afterCode (b : BlockRun) (code : Nibble) : BlockRun :=
  { b with
    k := b.k + 1
    pred := codePred code b.step b.pred
    index := clampIndex (b.index + indexAdj code)
    step := stepAt (clampIndex (b.index + indexAdj code)) }

/-- The OUT element the next sample of a block goes to, `obase + k * stride` (41_block_decoder.md R143, R155). -/
def BlockRun.elem (b : BlockRun) : Nat := b.outBase + b.k * b.stride

/-- One code of the running block: the delta, the sign and clamp, the sample, the index and the step
(41_block_decoder.md R151, R154 to R157). Stops when no block is running (log 12), or when the element does not exist,
which the callers rule out (R143, log 11). -/
def applyCode (code : Nibble) (s : State) : Result :=
  match s.run with
  | .block b =>
    if b.elem < s.params.outSize then
      .next ((s.storeOut b.elem (sampleBits s.params.outFmt (b.afterCode code).pred)).withRun
        (.block (b.afterCode code)))
    else .fault .noSuchOutElement
  | .idle | .walk _ => .fault .noBlock

/-- CODE_P0 (41_block_decoder.md R161). -/
def execCodeP0 (s : State) : Result := applyCode 0x0#4 s
/-- CODE_P1 (R162). -/
def execCodeP1 (s : State) : Result := applyCode 0x1#4 s
/-- CODE_P2 (R163). -/
def execCodeP2 (s : State) : Result := applyCode 0x2#4 s
/-- CODE_P3 (R164). -/
def execCodeP3 (s : State) : Result := applyCode 0x3#4 s
/-- CODE_P4 (R165). -/
def execCodeP4 (s : State) : Result := applyCode 0x4#4 s
/-- CODE_P5 (R166). -/
def execCodeP5 (s : State) : Result := applyCode 0x5#4 s
/-- CODE_P6 (R167). -/
def execCodeP6 (s : State) : Result := applyCode 0x6#4 s
/-- CODE_P7 (R168). -/
def execCodeP7 (s : State) : Result := applyCode 0x7#4 s
/-- CODE_N0 (R169). -/
def execCodeN0 (s : State) : Result := applyCode 0x8#4 s
/-- CODE_N1 (R170). -/
def execCodeN1 (s : State) : Result := applyCode 0x9#4 s
/-- CODE_N2 (R171). -/
def execCodeN2 (s : State) : Result := applyCode 0xA#4 s
/-- CODE_N3 (R172). -/
def execCodeN3 (s : State) : Result := applyCode 0xB#4 s
/-- CODE_N4 (R173). -/
def execCodeN4 (s : State) : Result := applyCode 0xC#4 s
/-- CODE_N5 (R174). -/
def execCodeN5 (s : State) : Result := applyCode 0xD#4 s
/-- CODE_N6 (R175). -/
def execCodeN6 (s : State) : Result := applyCode 0xE#4 s
/-- CODE_N7 (R176). -/
def execCodeN7 (s : State) : Result := applyCode 0xF#4 s

/-- Run the code an instruction of the code format stands for. The code decoder answers only codes (30_encoding.md R93),
so the last arm is never met. -/
def runCode (i : Instr) (s : State) : Result :=
  match i with
  | .codeP0 => execCodeP0 s
  | .codeP1 => execCodeP1 s
  | .codeP2 => execCodeP2 s
  | .codeP3 => execCodeP3 s
  | .codeP4 => execCodeP4 s
  | .codeP5 => execCodeP5 s
  | .codeP6 => execCodeP6 s
  | .codeP7 => execCodeP7 s
  | .codeN0 => execCodeN0 s
  | .codeN1 => execCodeN1 s
  | .codeN2 => execCodeN2 s
  | .codeN3 => execCodeN3 s
  | .codeN4 => execCodeN4 s
  | .codeN5 => execCodeN5 s
  | .codeN6 => execCodeN6 s
  | .codeN7 => execCodeN7 s
  | .nop | .parse | .decode | .decodeBlock | .resetState
  | .chunkDesc _ | .chunkPakt _ | .chunkData _ | .chunkOther _ _ => .fault .wrongFormat

end Sys2Proof.Machine
end

