-- ==== Sys2Proof/Machine/BlockDecoder.lean ====
section
/-! DEFINITION. The block-decode operation (41_block_decoder.md R143 to R159) and the command DECODE_BLOCK (R177,
R178). -/

namespace Sys2Proof.Machine

/-- The starting predictor of a block under the continuity rule (41_block_decoder.md R152). -/
def startPred (idx : Nat) (seed : Int) (retained : ChannelState) : Int :=
  if idx = retained.index ∧ (seed - retained.predictor).natAbs ≤ 0x7F then retained.predictor else seed

/-- The running state a block starts with (41_block_decoder.md R144, R152, R153). -/
def startBlock (a : BlockArgs) (p : Word16) (retained : ChannelState) : BlockRun :=
  { outBase := a.outBase, stride := a.stride, addr := a.addr, count := a.count, chan := a.chan, blockNo := a.blockNo
    k := 0
    pred := startPred (preambleIndex p) (preambleSeed p) retained
    index := preambleIndex p
    step := stepAt (preambleIndex p) }

/-- Code `k` of the block at `addr` (41_block_decoder.md R148). -/
def State.codeAt (s : State) (addr k : Nat) : Nibble := nibbleOf k (s.inByte (addr + 2 + k / 2))

/-- Fetch, decode and run the next code of the running block (41_block_decoder.md R148). -/
def nextCode (s : State) : Result :=
  match s.run with
  | .block b =>
    if b.addr + 2 + b.k / 2 < s.params.inSize then runCode (decodeCode (s.codeAt b.addr b.k)) s
    else .fault .noSuchInByte
  | .idle | .walk _ => .fault .noBlock

/-- The next `m` codes, in order (41_block_decoder.md R159). -/
def runCodes : Nat → State → Result
  | 0, s => .next s
  | m + 1, s => andThen (nextCode s) fun t => runCodes m t

/-- The store-back after the last code: the channel entry takes the running index and predictor, and the block is over
(41_block_decoder.md R158). -/
def storeBack (s : State) : State :=
  match s.run with
  | .block b => (s.setChannel b.chan { index := b.index, predictor := b.pred }).withRun .idle
  | .idle | .walk _ => s

/-- `decode_block` and then the rest of the command `k` (41_block_decoder.md R159). A preamble index above 88 raises
BAD_INDEX before anything is written (R146), and the command ends there. The callers have checked that the block lies in
IN (R143), so the fault is never met (log 11). -/
def decodeBlockThen (a : BlockArgs) (s : State) (k : State → Result) : Result :=
  if s.inOK a.addr 34 then
    if 88 < preambleIndex (s.rdU16 a.addr) then .next (s.raise .badIndex)
    else andThen (runCodes a.count (s.withRun (.block (startBlock a (s.rdU16 a.addr) (s.channel a.chan)))))
      fun t => k (storeBack t)
  else .fault .noSuchInByte

/-- The first failing check of DECODE_BLOCK, in order (41_block_decoder.md R177, R178; 60_exceptions.md R218). -/
def decodeBlockCheck (s : State) : Option ErrCode :=
  let a := decodeBlockArgs s
  if a.count = 0 ∨ 64 < a.count then some .badCount
  else if s.params.maxChannels ≤ a.chan then some .badChannel
  else if ¬ s.inOK a.addr 34 then some .blockRange
  else if ¬ s.outOK ((a.count - 1) * a.stride + 1) then some .outRange
  else none

/-- DECODE_BLOCK (41_block_decoder.md R177). -/
def execDecodeBlock (s : State) : Result :=
  match decodeBlockCheck s with
  | some e => .next (s.raise e)
  | none => decodeBlockThen (decodeBlockArgs s) s fun t => .next t.complete

end Sys2Proof.Machine
end

