-- ==== Sys2Proof/Machine/StreamDecoder.lean ====
section
/-! DEFINITION. The Stream Decoder: DECODE, RESET_STATE and NOP (42_stream_decoder.md). -/

namespace Sys2Proof.Machine

/-- The first failing check of DECODE, in order (42_stream_decoder.md R191; 60_exceptions.md R217). -/
def decodeCheck (s : State) : Option ErrCode :=
  let o := decodeOperands s
  if s.status.parsed = false then some .notParsed
  else if o.chans = 0 ∨ s.params.maxChannels < o.chans then some .badChannels
  else if o.off % 64 ≠ 0 then some .unalignedOffset
  else if s.params.streamMode = .stateful ∧ o.off ≠ s.nextFrame.toNat then some .seekMismatch
  else if o.total < o.off + o.frames then some .frameRange
  else if 0 < o.frames ∧ o.size < (o.off / 64 + slotsFor o.frames) * o.chans * 34 then some .blockRange
  else if ¬ s.outOK (o.frames * o.chans) then some .outRange
  else none

/-- How many blocks a DECODE decodes: one per slot and channel (42_stream_decoder.md R184). -/
def decodeBlockTotal (s : State) : Nat := slotsFor (decodeOperands s).frames * (decodeOperands s).chans

/-- The completion of DECODE with OK (42_stream_decoder.md R189). -/
def finishDecode (s : State) : State :=
  { s.complete with
    nextFrame := BitVec.ofNat 64 ((decodeOperands s).off + (decodeOperands s).frames)
    decoded := BitVec.ofNat 64 (decodeOperands s).frames }

/-- The next `m` blocks of DECODE from block number `j` on, slot by slot and channel by channel in each slot, then the
completion (42_stream_decoder.md R184, R191). A BAD_INDEX ends the command with the earlier blocks' effects (R192). -/
def decodeBlocks : Nat → Nat → State → Result
  | 0, _, s => .next (finishDecode s)
  | m + 1, j, s => decodeBlockThen (decodeArgs s j) s fun t => decodeBlocks m (j + 1) t

/-- In STATELESS mode CH is zeroed once, after the checks and before the first block (42_stream_decoder.md R186). -/
def decodeStart (s : State) : State :=
  match s.params.streamMode with
  | .stateful => s
  | .stateless => s.zeroChannels

/-- DECODE (42_stream_decoder.md R191). -/
def execDecode (s : State) : Result :=
  match decodeCheck s with
  | some e => .next (s.raise e)
  | none => decodeBlocks (decodeBlockTotal s) 0 (decodeStart s)

/-- RESET_STATE (42_stream_decoder.md R193). -/
def execResetState (s : State) : Result :=
  .next { s.zeroChannels.complete with nextFrame := s.frameOffset, decoded := 0 }

/-- NOP (42_stream_decoder.md R194, 30_encoding.md R97). -/
def execNop (s : State) : Result := .next s.complete

end Sys2Proof.Machine
end

