-- ==== Sys2Proof/Machine/Dispatch.lean ====
section
/-! DEFINITION. The meaning of every instruction, one arm per row of spec/opcode_table.json. -/

namespace Sys2Proof.Machine

def exec (i : Instr) (s : State) : Host.Outcome State Fault Refusal :=
  match i with
  | .nop => Sys2Proof.Machine.execNop s
  | .parse => Sys2Proof.Machine.execParse s
  | .decode => Sys2Proof.Machine.execDecode s
  | .decodeBlock => Sys2Proof.Machine.execDecodeBlock s
  | .resetState => Sys2Proof.Machine.execResetState s
  | .codeP0 => Sys2Proof.Machine.execCodeP0 s
  | .codeP1 => Sys2Proof.Machine.execCodeP1 s
  | .codeP2 => Sys2Proof.Machine.execCodeP2 s
  | .codeP3 => Sys2Proof.Machine.execCodeP3 s
  | .codeP4 => Sys2Proof.Machine.execCodeP4 s
  | .codeP5 => Sys2Proof.Machine.execCodeP5 s
  | .codeP6 => Sys2Proof.Machine.execCodeP6 s
  | .codeP7 => Sys2Proof.Machine.execCodeP7 s
  | .codeN0 => Sys2Proof.Machine.execCodeN0 s
  | .codeN1 => Sys2Proof.Machine.execCodeN1 s
  | .codeN2 => Sys2Proof.Machine.execCodeN2 s
  | .codeN3 => Sys2Proof.Machine.execCodeN3 s
  | .codeN4 => Sys2Proof.Machine.execCodeN4 s
  | .codeN5 => Sys2Proof.Machine.execCodeN5 s
  | .codeN6 => Sys2Proof.Machine.execCodeN6 s
  | .codeN7 => Sys2Proof.Machine.execCodeN7 s
  | .chunkDesc size => Sys2Proof.Machine.execChunkDesc size s
  | .chunkPakt size => Sys2Proof.Machine.execChunkPakt size s
  | .chunkData size => Sys2Proof.Machine.execChunkData size s
  | .chunkOther tag size => Sys2Proof.Machine.execChunkOther tag size s

end Sys2Proof.Machine
end

