-- ==== Sys2Proof/Machine/HostPort.lean ====
section
/-! DEFINITION. The host's accesses: the register file (10_state.md R24 to R35), IN and OUT (20_memory.md R60, R61), the
busy hazards (70_reset_and_hazards.md R244 to R246), and the host-program notation (30_encoding.md R98, R99). -/

namespace Sys2Proof.Machine

/-- The CH_STATE window of the selected entry; a selector at or above MAX_CHANNELS reads 0 (10_state.md R35). -/
def State.chStateWord (s : State) : Word64 :=
  if s.chSel.toNat < s.params.maxChannels then (s.channel s.chSel.toNat).window else 0

/-- The current value of the register at an index (10_state.md R25): CMD reads 0 (R28), reserved indices read 0 (R24). -/
def State.regValue (s : State) (i : Nat) : Word64 :=
  match i with
  | 0 => 0
  | 1 => s.status.word
  | 2 => Params.configWord s.params
  | 3 => s.inBase
  | 4 => s.inLen
  | 5 => s.outBase
  | 6 => s.outLen
  | 7 => s.frameOffset
  | 8 => s.frameCount.setWidth 64
  | 9 => s.blkAddr
  | 10 => s.blkArgs.word
  | 11 => s.chSel.setWidth 64
  | 12 => s.chStateWord
  | 13 => s.siBlockBase
  | 14 => s.siBlockSize
  | 15 => s.siSampleRate
  | 16 => s.siFrameCount
  | 17 => s.siChannelCount.setWidth 64
  | 18 => s.nextFrame
  | 19 => s.decoded
  | _ => 0

/-- The host keeps an event of its run (log 19). -/
def State.note (r : HostEvent) (s : State) : State := { s with history := r :: s.history }

/-- A host read of a register: STATUS and CONFIG give their value at any time, any other index gives its value while
BUSY = 0 and an unspecified value while BUSY = 1 (10_state.md R27, 70_reset_and_hazards.md R254; log 4). -/
def hostRegRead (i : Nat) (s : State) : State :=
  if s.status.busy = true ∧ i ≠ 1 ∧ i ≠ 2 then
    { s.note (.reg i (Config.busyRead s.draws)) with draws := s.draws + 1 }
  else s.note (.reg i (s.regValue i))

/-- A write of CMD: the pending command and BUSY, nothing else of the block (10_state.md R28); the host keeps the command
and its window (70_reset_and_hazards.md R255, log 19). -/
def startCommand (w : Word64) (s : State) : State :=
  { s.note (.command w s.outBase s.outLen) with pending := w, status := s.status.started }

/-- A write of CH_STATE: ignored if CH_SEL selects no entry (10_state.md R35). -/
def writeChState (v : Word64) (s : State) : State :=
  if s.chSel.toNat < s.params.maxChannels then s.setChannel s.chSel.toNat (ChannelState.ofWindow v) else s

/-- A write of the register at an index while BUSY = 0 (10_state.md R24 to R35): reserved fields, RO registers and
reserved indices ignore it. -/
def writeReg (i : Nat) (v : Word64) (s : State) : State :=
  match i with
  | 0 => startCommand v s
  | 3 => { s with inBase := v }
  | 4 => { s with inLen := v }
  | 5 => { s with outBase := v }
  | 6 => { s with outLen := v }
  | 7 => { s with frameOffset := v }
  | 8 => { s with frameCount := v.setWidth 32 }
  | 9 => { s with blkAddr := v }
  | 10 => { s with blkArgs := BlkArgs.ofWord v }
  | 11 => { s with chSel := v.setWidth 16 }
  | 12 => writeChState v s
  | _ => s

/-- A host write of a register: while BUSY = 1 it is dropped, whatever the index, and sets OVERRUN (10_state.md R26). -/
def hostRegWrite (i : Nat) (v : Word64) (s : State) : State :=
  if s.status.busy then { s with status := s.status.overran } else writeReg i v s

/-- The host broke a rule the hardware does not detect: the model records HOST_HAZARD and never clears it
(60_exceptions.md R223, log 9). -/
def recordHazard (s : State) : State := { s with hostHazard := true }

/-- One access of the host. An access to a byte or an element that does not exist stops (20_memory.md R60, R61, log 10);
an IN write or an OUT access while BUSY = 1 is a hazard (70_reset_and_hazards.md R245, R246). -/
def hostAccess (a : HostAccess) (s : State) : Result :=
  match a with
  | .regWrite i v => .next (hostRegWrite i v s)
  | .regRead i => .next (hostRegRead i s)
  | .inWrite addr b =>
    if s.params.inSize ≤ addr then .fault .noSuchInByte
    else if s.status.busy then .next (recordHazard s)
    else .next (s.storeIn addr b)
  | .inRead addr =>
    if s.params.inSize ≤ addr then .fault .noSuchInByte
    else .next (s.note (.inByte addr (s.inByte addr)))
  | .outWrite e v =>
    if s.params.outSize ≤ e then .fault .noSuchOutElement
    else if s.status.busy then .next (recordHazard s)
    else .next (s.storeOut e (elementBits s.params.outFmt v))
  | .outRead e =>
    if s.params.outSize ≤ e then .fault .noSuchOutElement
    else if s.status.busy then .next (recordHazard s)
    else .next (s.note (.outElem e (s.outElem e)))

/-- A statement of the host-program notation (30_encoding.md R98) and its pseudo-instructions (R99). A register is named
by its index, a command by its word. DESIGN CHOICE (log 27), safe: R99 states no range for the operands of BLKARGS and
CHSTATE; they are 64-bit words here, like the value of a SET. -/
inductive HostStmt where
  | set (reg : Nat) (value : Word64)
  | get (reg : Nat)
  | command (word : Word64)
  | wait
  | seek (frame : Word64)
  | run (word : Word64)
  | blkArgs (count channel stride : Word64)
  | chState (channel index pred : Word64)
deriving DecidableEq, Repr

/-- The turns a statement expands to (30_encoding.md R98, R99). The expressions of R99 are taken in 64 bits, unmasked but
where R99 masks (log 27). -/
def HostStmt.turns : HostStmt → List Turn
  | .set reg value => [.host (.regWrite reg value)]
  | .get reg => [.host (.regRead reg)]
  | .command word => [.host (.regWrite 0 word)]
  | .wait => [.wait]
  | .seek frame => [.host (.regWrite 7 frame), .host (.regWrite 0 4#64), .wait]
  | .run word => [.host (.regWrite 0 word), .wait]
  | .blkArgs count channel stride =>
    [.host (.regWrite 10 (stride <<< 32 ||| channel <<< 8 ||| count))]
  | .chState channel index pred =>
    [.host (.regWrite 11 channel), .host (.regWrite 12 ((pred &&& 0xFFFF#64) <<< 16 ||| index))]

/-- The turns of a host program, in its order (70_reset_and_hazards.md R252). -/
def hostProgram (p : List HostStmt) : List Turn := p.flatMap HostStmt.turns

end Sys2Proof.Machine
end

