-- ==== Sys2Proof/Machine/Turns.lean ====
section
/-! DEFINITION. Whose turn it is and what it does: the core's step (60_exceptions.md R214), the host's turns
(log 5), a step in the middle of a command (log 7), and how an instruction is placed so that it is the next to run
(log 8). -/

namespace Sys2Proof.Machine

/-- An illegal command word changes nothing but STATUS (30_encoding.md R82, 60_exceptions.md R213). -/
def illegalCommand (s : State) : State := s.raise .illegalCmd

/-- The core's one enabled step: decode the pending command word and perform the whole command (60_exceptions.md
R214). -/
def coreStep (s : State) : Result :=
  match decodeCommand s.pending with
  | .ok i => exec i s
  | .error _ => .next (illegalCommand s)

/-- The core's step if it has one: with BUSY = 0 the core is idle (60_exceptions.md R214, R230). -/
def coreTurn (s : State) : Result := if s.status.busy then coreStep s else .next s

/-- The host has read BUSY = 0: the WAIT is over (30_encoding.md R98, log 6). -/
def endWait (s : State) : State := s.note (.reg 1 s.status.word)

/-- Leave the first turn behind. -/
def dropTurn (s : State) : State := { s with schedule := s.schedule.tail }

/-- The turn that comes next. With no turn left the core takes its step, and with nothing to do the machine stays as it
is (70_reset_and_hazards.md R243, R251; log 5). A WAIT stays first until it reads BUSY = 0 (log 6). -/
def takeTurn (s : State) : Result :=
  match s.schedule with
  | [] => coreTurn s
  | .core :: _ => coreTurn (dropTurn s)
  | .wait :: _ => if s.status.busy then coreStep s else .next (endWait (dropTurn s))
  | .reset :: _ => .next (dropTurn s).resetEvent
  | .host a :: _ => hostAccess a (dropTurn s)

/-- The rest of the command whose block has just ended: the remaining blocks of DECODE, or the completion of
DECODE_BLOCK (41_block_decoder.md R177, 42_stream_decoder.md R191). -/
def restOfCommand (b : BlockRun) (s : State) : Result :=
  match decodeCommand s.pending with
  | .ok .decode => decodeBlocks (decodeBlockTotal s - (b.blockNo + 1)) (b.blockNo + 1) s
  | _ => .next s.complete

/-- A step in the middle of a command (log 7): the next chunk of the walk, the next code of the block, or, at the
block's end, the rest of the command. -/
def resumeStep (s : State) : Result :=
  match s.run with
  | .idle => .next s
  | .walk _ => walkStep s
  | .block b => if b.k < b.count then nextCode s else restOfCommand b (storeBack s)

/-- One step of the machine. Once HOST_HAZARD is recorded the spec says nothing more (60_exceptions.md R223, log 9). -/
def machineStep (s : State) : Result :=
  if s.hostHazard then .fault .hostHazard
  else match s.run with
    | .idle => takeTurn s
    | .walk _ | .block _ => resumeStep s

/-- The turns to come once the core's turn is put first: with no turn left it is the core's anyway (log 5). -/
def coreFirst : List Turn → List Turn
  | [] => []
  | turns@(_ :: _) => .core :: turns

/-- The state in which a command word is pending and the core's turn is next (10_state.md R28, log 8). -/
def placeCommand (w : Word64) (s : State) : State :=
  { s with
    pending := w
    status := s.status.started
    run := .idle
    hostHazard := false
    schedule := coreFirst s.schedule }

/-- The state in which a one-code block at IN address 0 is running and its code is next (log 8). -/
def placeCode (c : Nibble) (s : State) : State :=
  { s.storeIn 2 (c.setWidth 8) with
    pending := 3
    status := s.status.started
    hostHazard := false
    run := .block { outBase := 0, stride := 1, addr := 0, count := 1, chan := 0, blockNo := 0, k := 0, pred := 0,
                    index := 0, step := stepAt 0 } }

/-- The state in which a walk is at IN address 0, where the buffer holds just this chunk header (log 8). -/
def placeChunk (bytes : List Byte) (s : State) : State :=
  { s.storeInBytes 0 bytes with
    pending := 1
    status := s.status.started
    hostHazard := false
    run := .walk { cursor := 0, bufEnd := bytes.length, desc := none, pakt := none, data := none } }

/-- Place an encoded instruction so that the very next step runs it (log 8). -/
def placeEncoded (e : Encoded) (s : State) : State :=
  match e with
  | .command w => placeCommand w s
  | .code c => placeCode c s
  | .chunkHeader bytes => placeChunk bytes s

end Sys2Proof.Machine
end

