-- ==== Sys2Proof/Machine/Step.lean ====
section
/-! DEFINITION. The step of the machine, and the placing of one instruction where the next step takes it. -/

namespace Sys2Proof.Machine

/-- One step: a turn of the host, of the core, or of the reset line. -/
def step (s : State) : Host.Outcome State Fault Refusal := machineStep s

/-- The state with an instruction of the opcode table placed so that the very next step runs it (log 8). -/
def State.withFetchWord (s : State) (nbits w : Nat) : State :=
  match tableLayout nbits w with
  | some e => placeEncoded e s
  | none => s

end Sys2Proof.Machine
end

