-- ==== Sys2Proof/Safety.lean ====
section
/-! DEFINITION. What the claims are stated in: the invariant of the machine, the end of a run and what is observed there
(70_reset_and_hazards.md R255). -/

namespace Sys2Proof.Machine

/-- A predictor value in range (10_state.md R22). -/
abbrev predInRange (v : Int) : Prop := -32768 ≤ v ∧ v ≤ 32767

/-- The ranges of a ChannelState entry (10_state.md R22). -/
abbrev ChannelState.legal (c : ChannelState) : Prop := c.index ≤ 88 ∧ predInRange c.predictor

/-- The ranges of a running block (41_block_decoder.md R153, R179). -/
abbrev BlockRun.legal (b : BlockRun) : Prop := b.index ≤ 88 ∧ predInRange b.pred ∧ b.step = stepAt b.index

/-- A walk whose buffer lies in IN, whose data chunk (if seen) lies in the buffer, and whose frame count (if seen) is
not negative (40_container_parser.md R111, R119, R123). -/
abbrev WalkRun.legal (inSize : Nat) (w : WalkRun) : Prop :=
  w.bufEnd ≤ inSize ∧ (∀ d ∈ w.data, d.base + d.size ≤ w.bufEnd) ∧ (∀ f ∈ w.pakt, 0 ≤ f.toInt)

/-- The ranges of the hidden state of the command in progress. -/
def Run.legal (inSize : Nat) : Run → Prop
  | .idle => True
  | .walk w => w.legal inSize
  | .block b => b.legal

/-- What every step keeps: the parameters in their ranges, one legal ChannelState per channel (10_state.md R22), the
memories in canonical form and inside IN and OUT with elements of their width (20_memory.md R60, R61), the StreamInfo
positions inside IN (R75), SI_FRAME_COUNT in 0..2^63-1 (10_state.md R42), and a legal hidden state. -/
structure State.Inv (s : State) : Prop where
  params : s.params.valid
  chLength : s.ch.length = s.params.maxChannels
  chLegal : ∀ c ∈ s.ch, c.legal
  inWf : Memory.wf s.inMem
  outWf : Memory.wf s.outMem
  inBound : ∀ x ∈ s.inMem, x.1 < s.params.inSize
  outBound : ∀ x ∈ s.outMem, x.1 < s.params.outSize
  outWidth : ∀ x ∈ s.outMem, elementBits s.params.outFmt x.2 = x.2
  blocksInIn : s.siBlockBase.toNat + s.siBlockSize.toNat ≤ s.params.inSize
  frames : s.siFrameCount.toNat < 2 ^ 63
  run : s.run.legal s.params.inSize

/-- The host has read STATUS with BUSY = 0 since the last command it started (70_reset_and_hazards.md R255), from what it
kept of its run, newest first. A host that started no command has nothing to wait for (log 28). -/
def sawDone : List HostEvent → Bool
  | [] => true
  | .command _ _ _ :: _ => false
  | .reg i v :: rest => (i == 1 && !v.getLsbD 8) || sawDone rest
  | .inByte _ _ :: rest | .outElem _ _ :: rest => sawDone rest

/-- The end of a run (70_reset_and_hazards.md R255): the host has read BUSY = 0 after its last command, and no turn is
left. That no command is pending or half done then follows on every run; it is asked for so that an ended state is one
that stays. -/
def State.ended (s : State) : Bool :=
  sawDone s.history && s.schedule.isEmpty && !s.status.busy && decide (s.run = .idle)

/-- The OUT window of a command the host started, as its base and length: those of DECODE and DECODE_BLOCK, the commands
that write OUT (10_state.md R32, 30_encoding.md R81; log 28). -/
def HostEvent.window : HostEvent → Option (Nat × Nat)
  | .command word outBase outLen => if word = 2#64 ∨ word = 3#64 then some (outBase.toNat, outLen.toNat) else none
  | .reg _ _ | .inByte _ _ | .outElem _ _ => none

/-- The elements of OUT inside the windows of the program's commands, those that exist (70_reset_and_hazards.md R255,
log 28). -/
def State.windowElems (s : State) : List Nat :=
  (s.history.reverse.filterMap HostEvent.window).flatMap fun w =>
    List.range' w.1 (min w.2 (s.params.outSize - w.1))

/-- What is observed at the end of a run: every register, CH, the OUT elements inside the windows of the program's
commands with their indices, and the HOST_HAZARD mark (70_reset_and_hazards.md R255). -/
structure Observation where
  regs   : List Word64
  ch     : List ChannelState
  out    : List (Nat × Word32)
  hazard : Bool
deriving DecidableEq, Repr

/-- The observation of a state (70_reset_and_hazards.md R255). -/
def State.observe (s : State) : Observation :=
  { regs := (List.range 20).map s.regValue
    ch := s.ch
    out := s.windowElems.map fun e => (e, s.outElem e)
    hazard := s.hostHazard }

/-- If a DECODE or a DECODE_BLOCK is pending, its window is among those that are observed. -/
abbrev State.windowKept (s : State) : Prop :=
  s.status.busy = true → s.pending = 2 ∨ s.pending = 3 →
    ∀ e, s.outBase.toNat ≤ e → e < s.outBase.toNat + s.outLen.toNat → e < s.params.outSize → e ∈ s.windowElems

/-- The premise of every claim about a run (70_reset_and_hazards.md R255). -/
abbrev State.noHazard (s : State) : Prop := s.hostHazard = false

/-- No command failed and no write was dropped since reset (10_state.md R29). -/
abbrev State.noFaultRecorded (s : State) : Prop := s.status.errSeen = false ∧ s.status.overrun = false

/-! ### The reference decoder

The rules of 41_block_decoder.md and 42_stream_decoder.md written a second time, as plain recursion over the bytes of IN
and unbounded integers, with no run state, no codes as instructions and no order of writes. The claims say that the
machine's DECODE and DECODE_BLOCK give what it gives. Only the table STEP is shared. -/

/-- Code `k` of the block at `a` (30_encoding.md R94). -/
def refCode (s : State) (a k : Nat) : Nat :=
  if k % 2 = 0 then (s.inByte (a + 2 + k / 2)).toNat % 16 else (s.inByte (a + 2 + k / 2)).toNat / 16

/-- The index field of the preamble at `a` (30_encoding.md R92). -/
def refIndex (s : State) (a : Nat) : Nat := s.memRead a 2 % 128

/-- The seed of the preamble at `a`: P with its low 7 bits cleared, read as a signed 16-bit number (30_encoding.md
R92). -/
def refSeed (s : State) (a : Nat) : Int :=
  if s.memRead a 2 < 32768 then (s.memRead a 2 : Int) - refIndex s a
  else (s.memRead a 2 : Int) - refIndex s a - 65536

/-- The magnitude of a code at a step (41_block_decoder.md R151). -/
def refDelta (code step : Nat) : Nat :=
  step / 8 + code / 4 % 2 * step + code / 2 % 2 * (step / 2) + code % 2 * (step / 4)

/-- One code from running (index, predictor) to running (index, predictor) (41_block_decoder.md R154, R156): the index
goes down by 1 for the magnitudes 0 to 3 and up by 2, 4, 6, 8 for 4 to 7 (R141). -/
def refStep (code : Nat) (c : ChannelState) : ChannelState :=
  { index := (max 0 (min 88 ((c.index : Int) + (if code % 8 < 4 then (-1 : Int) else 2 * ((code % 8 : Nat) : Int) - 6)))).toNat
    predictor := max (-32768) (min 32767
      (if code / 8 = 1 then c.predictor - refDelta code (stepAt c.index)
       else c.predictor + refDelta code (stepAt c.index))) }

/-- The running (index, predictor) a block starts with, from its preamble and the retained entry (41_block_decoder.md
R152, R153). -/
def refStart (s : State) (a : Nat) (retained : ChannelState) : ChannelState :=
  { index := refIndex s a
    predictor :=
      if refIndex s a = retained.index ∧ -127 ≤ refSeed s a - retained.predictor ∧
          refSeed s a - retained.predictor ≤ 127
      then retained.predictor else refSeed s a }

/-- The running (index, predictor) after `k` codes of the block at `a` (41_block_decoder.md R159). -/
def refBlock (s : State) (a : Nat) (retained : ChannelState) : Nat → ChannelState
  | 0 => refStart s a retained
  | k + 1 => refStep (refCode s a k) (refBlock s a retained k)

/-- The address of the block of slot `j` (counted from the call's first) and channel `c` (42_stream_decoder.md R184). -/
def refAddr (s : State) (j c : Nat) : Nat :=
  s.siBlockBase.toNat + 34 * ((s.frameOffset.toNat / 64 + j) * s.siChannelCount.toNat + c)

/-- How many frames slot `j` of a call has (42_stream_decoder.md R184). -/
def refFrames (s : State) (j : Nat) : Nat := min 64 (s.frameCount.toNat - 64 * j)

/-- The entry of a channel a call starts from: as it is, or zero in STATELESS mode (42_stream_decoder.md R186, R196). -/
def refEntry (s : State) (c : Nat) : ChannelState :=
  if s.params.streamMode = .stateful then s.channel c else ChannelState.zero

/-- The entry of channel `c` before slot `j` of a call (42_stream_decoder.md R184, R196). -/
def refStream (s : State) (c : Nat) : Nat → ChannelState
  | 0 => refEntry s c
  | j + 1 => refBlock s (refAddr s j c) (refStream s c j) (refFrames s j)

/-- The sample of call frame `f`, channel `c` (42_stream_decoder.md R198). -/
def refSample (s : State) (f c : Nat) : Int :=
  (refBlock s (refAddr s (f / 64) c) (refStream s c (f / 64)) (f % 64 + 1)).predictor

/-- The checks of DECODE all pass (42_stream_decoder.md R181, R182, R183, R185, R187, R188, R190). -/
structure DecodeReady (s : State) : Prop where
  parsed : s.status.parsed = true
  channels : 0 < s.siChannelCount.toNat ∧ s.siChannelCount.toNat ≤ s.params.maxChannels
  aligned : s.frameOffset.toNat % 64 = 0
  position : s.params.streamMode = .stateful → s.frameOffset = s.nextFrame
  frames : s.frameOffset.toNat + s.frameCount.toNat ≤ s.siFrameCount.toNat
  blocks : 0 < s.frameCount.toNat →
    (s.frameOffset.toNat / 64 + (s.frameCount.toNat + 63) / 64) * s.siChannelCount.toNat * 34 ≤ s.siBlockSize.toNat
  output : s.frameCount.toNat * s.siChannelCount.toNat ≤ s.outLen.toNat ∧
    s.outBase.toNat + s.frameCount.toNat * s.siChannelCount.toNat ≤ s.params.outSize

/-- The checks of DECODE_BLOCK all pass (41_block_decoder.md R178). -/
structure DecodeBlockReady (s : State) : Prop where
  count : 1 ≤ s.blkArgs.count.toNat ∧ s.blkArgs.count.toNat ≤ 64
  channel : s.blkArgs.channel.toNat < s.params.maxChannels
  block : s.blkAddr.toNat + 34 ≤ s.params.inSize
  output : (s.blkArgs.count.toNat - 1) * s.blkArgs.stride.toNat + 1 ≤ s.outLen.toNat ∧
    s.outBase.toNat + (s.blkArgs.count.toNat - 1) * s.blkArgs.stride.toNat + 1 ≤ s.params.outSize

/-! ### The ends of a command, written out -/

/-- The state a command leaves that ends with error `e` and did nothing else (60_exceptions.md R210). -/
def endedWith (e : ErrCode) (s : State) : State :=
  { s with status := { s.status with err := e, busy := false, errSeen := true }, run := .idle }

/-- The state a PARSE leaves that ends with error `e` (40_container_parser.md R129). -/
def parseEndedWith (e : ErrCode) (s : State) : State :=
  { s with status := { s.status with err := e, busy := false, errSeen := true, parsed := false }, run := .idle }

/-- The state a PARSE leaves that succeeds with these StreamInfo values (40_container_parser.md R128). -/
def parsedAs (base size : Nat) (rate frames : Word64) (chans : Word32) (s : State) : State :=
  { s with
    status := { s.status with err := .ok, busy := false, parsed := true }
    siBlockBase := BitVec.ofNat 64 base
    siBlockSize := BitVec.ofNat 64 size
    siSampleRate := rate
    siFrameCount := frames
    siChannelCount := chans
    ch := List.replicate s.params.maxChannels { index := 0, predictor := 0 }
    nextFrame := 0
    decoded := 0
    run := .idle }

end Sys2Proof.Machine
end

