-- ==== Sys2Proof/WellFormed.lean ====
section
/-! DEFINITION. Well-formed instructions. The types already bound every field; what is left is that CHUNK_OTHER stands
only for tags no other row has (30_encoding.md R89, and the table's match order: "lowest: applies only when no other
CHUNK_ row matches"). -/

namespace Sys2Proof

/-- The check an instruction must pass to be one the decoder can answer. -/
def Instr.wellFormed : Instr → Bool
  | .chunkOther tag _ => !Tag.recognised tag
  | .nop | .parse | .decode | .decodeBlock | .resetState => true
  | .codeP0 | .codeP1 | .codeP2 | .codeP3 | .codeP4 | .codeP5 | .codeP6 | .codeP7 => true
  | .codeN0 | .codeN1 | .codeN2 | .codeN3 | .codeN4 | .codeN5 | .codeN6 | .codeN7 => true
  | .chunkDesc _ | .chunkPakt _ | .chunkData _ => true

end Sys2Proof
end

