-- ==== Sys2Proof/Certificates/Slice0/Obligations.lean ====
section
/-! DEFINITION. The statements for the provers, from the numbered rules of spec/. Where a statement rests on a choice of
the model its docstring says so and names the log entry. -/

open Sys2Proof Sys2Proof.Machine

/-! ### Encodings -/

/-- 30_encoding.md R81, R84, R85, R93: no bit of an encoding is dropped. -/
def Obligations.DecodeOfEncodeIsTheInstruction : Prop :=
  ∀ i : Instr, i.wellFormed = true → decode (encode i) = .ok i

/-- 30_encoding.md R81, R82, R84, R93: every accepted encoding is the one encoding of the instruction it decodes to. -/
def Obligations.EncodeOfDecodeIsTheEncoding : Prop :=
  ∀ (e : Encoded) (i : Instr), decode e = .ok i → encode i = e ∧ i.wellFormed = true

/-- 30_encoding.md R81: the five command words. -/
def Obligations.CommandWordsDecode : Prop :=
  decodeCommand 0x0000000000000000#64 = .ok .nop ∧
  decodeCommand 0x0000000000000001#64 = .ok .parse ∧
  decodeCommand 0x0000000000000002#64 = .ok .decode ∧
  decodeCommand 0x0000000000000003#64 = .ok .decodeBlock ∧
  decodeCommand 0x0000000000000004#64 = .ok .resetState

/-- 30_encoding.md R93 (codes) and R84, R85, R89 (chunk headers): words written out from their tables. The tag values are
the spec's general knowledge (log 15). -/
def Obligations.CodesAndChunkHeadersDecode : Prop :=
  decode (.code 0b0100#4) = .ok .codeP4 ∧
  decode (.code 0b1010#4) = .ok .codeN2 ∧
  decode (.code 0b1111#4) = .ok .codeN7 ∧
  decode (.chunkHeader [0x64#8, 0x65#8, 0x73#8, 0x63#8, 0, 0, 0, 0, 0, 0, 0, 0x20#8]) = .ok (.chunkDesc 32#64) ∧
  decode (.chunkHeader [0x70#8, 0x61#8, 0x6b#8, 0x74#8, 0, 0, 0, 0, 0, 0, 0, 0x18#8]) = .ok (.chunkPakt 24#64) ∧
  decode (.chunkHeader [0x64#8, 0x61#8, 0x74#8, 0x61#8, 0, 0, 0, 0, 0, 0, 1, 0x02#8]) = .ok (.chunkData 0x102#64) ∧
  decode (.chunkHeader [0x66#8, 0x72#8, 0x65#8, 0x65#8, 0, 0, 0, 0, 0, 0, 0, 0x06#8]) =
    .ok (.chunkOther 0x66726565#32 6#64)

/-- 30_encoding.md R82 and 60_exceptions.md R213: which words are illegal, and that the core's step on one changes
nothing but STATUS.ERR, ERR_SEEN and BUSY. That the step is the core's with no turn left, and with a WAIT first, is the
model's choice (logs 5, 6). -/
def Obligations.IllegalCommandWords : Prop :=
  (∀ w : Word64, (∃ e, decodeCommand w = .error e) ↔ (5 ≤ w.toNat % 16 ∨ w.toNat / 16 ≠ 0)) ∧
  (∀ s : State, s.hostHazard = false → s.run = .idle → s.status.busy = true →
    (5 ≤ s.pending.toNat % 16 ∨ s.pending.toNat / 16 ≠ 0) →
    ((s.schedule = [] ∨ ∃ rest, s.schedule = .core :: rest) →
      step s = .next (endedWith .illegalCmd { s with schedule := s.schedule.tail })) ∧
    (∀ rest, s.schedule = .wait :: rest → step s = .next (endedWith .illegalCmd s)))

/-! ### The step -/

/-- 60_exceptions.md R214: with BUSY = 1 the core's step is the whole pending command; with BUSY = 0 it has none. A WAIT
of the host (30_encoding.md R98) is over when it reads BUSY = 0. That a step with nothing to do leaves the state, and
that a WAIT hands its turn to the core until then, is the model's choice (logs 5, 6). -/
def Obligations.StepIsExecOfThePendingCommand : Prop :=
  (∀ (s : State) (i : Instr), s.hostHazard = false → s.run = .idle →
    (s.schedule = [] ∨ ∃ rest, s.schedule = .core :: rest) → s.status.busy = true →
    decodeCommand s.pending = .ok i → step s = exec i { s with schedule := s.schedule.tail }) ∧
  (∀ s : State, s.hostHazard = false → s.run = .idle → s.schedule = [] → s.status.busy = false → step s = .next s) ∧
  (∀ (s : State) (rest : List Turn), s.hostHazard = false → s.run = .idle → s.schedule = .wait :: rest →
    (∀ i, s.status.busy = true → decodeCommand s.pending = .ok i → step s = exec i s) ∧
    (s.status.busy = false →
      step s = .next { s with schedule := rest, history := .reg 1 s.status.word :: s.history }))

/-- A step in the middle of a block runs the code at its place, low nibble first (41_block_decoder.md R148). That such a
step exists is the model's (log 7). -/
def Obligations.StepInsideABlockIsExecOfTheCode : Prop :=
  ∀ (s : State) (b : BlockRun), s.hostHazard = false → s.run = .block b → b.k < b.count →
    b.addr + 2 + b.k / 2 < s.params.inSize →
    step s = exec (decodeCode (BitVec.ofNat 4 (refCode s b.addr b.k))) s

/-- A step in the middle of a walk runs the chunk whose header stands at the cursor (40_container_parser.md R118), and
ends PARSE at the end of the buffer (R116) or at a header cut short (R117). That such a step exists is the model's
(log 7). -/
def Obligations.StepInsideAWalkIsExecOfTheChunk : Prop :=
  ∀ (s : State) (w : WalkRun), s.hostHazard = false → s.run = .walk w → w.bufEnd ≤ s.params.inSize →
    (w.cursor = w.bufEnd → step s = .next (parseEndedWith .missingChunk s)) ∧
    (w.cursor < w.bufEnd → w.bufEnd < w.cursor + 12 → step s = .next (parseEndedWith .corrupt s)) ∧
    (w.cursor + 12 ≤ w.bufEnd →
      step s = exec (decodeChunk (s.rdU32 w.cursor) (s.rdU64 (w.cursor + 4))) s)

/-! ### STATUS and CONFIG -/

/-- 10_state.md R29 (the fields of STATUS) and 60_exceptions.md R211 (the numbers of the codes). -/
def Obligations.StatusWordLayout : Prop :=
  (∀ st : Status,
    st.word.extractLsb' 0 8 = st.err.code ∧
    st.word.getLsbD 8 = st.busy ∧ st.word.getLsbD 9 = st.parsed ∧
    st.word.getLsbD 10 = st.errSeen ∧ st.word.getLsbD 11 = st.overrun ∧
    st.word.extractLsb' 12 52 = 0) ∧
  [ErrCode.ok, .badMagic, .badVersion, .badFormat, .missingChunk, .corrupt, .inRange].map ErrCode.code =
    [0x00#8, 0x01#8, 0x02#8, 0x03#8, 0x04#8, 0x05#8, 0x06#8] ∧
  [ErrCode.illegalCmd, .notParsed, .badChannels, .unalignedOffset, .seekMismatch, .frameRange, .blockRange, .outRange,
    .badIndex, .badCount, .badChannel].map ErrCode.code =
    [0x10#8, 0x11#8, 0x12#8, 0x13#8, 0x14#8, 0x15#8, 0x16#8, 0x17#8, 0x18#8, 0x19#8, 0x1A#8]

/-- 10_state.md R30: the fields of CONFIG, and that they never change. -/
def Obligations.ConfigShowsTheParameters : Prop :=
  (∀ s : State, s.params.valid →
    ((s.regValue 2).getLsbD 0 = true ↔ s.params.outFmt = .float32) ∧
    ((s.regValue 2).getLsbD 1 = true ↔ s.params.streamMode = .stateless) ∧
    (s.regValue 2).extractLsb' 2 30 = 0 ∧
    ((s.regValue 2).extractLsb' 32 16).toNat = s.params.maxChannels ∧
    (s.regValue 2).extractLsb' 48 16 = 0) ∧
  (∀ s t : State, step s = .next t → t.params = s.params ∧ t.regValue 2 = s.regValue 2)

/-! ### NOP and RESET_STATE -/

/-- 42_stream_decoder.md R194: NOP completes with OK and does nothing else. -/
def Obligations.NopOnlyCompletes : Prop :=
  ∀ s : State, exec .nop s =
    .next { s with status := { s.status with err := .ok, busy := false }, run := .idle }

/-- 42_stream_decoder.md R193: RESET_STATE zeroes every entry of CH, installs FRAME_OFFSET as the position and clears
DECODED, in any state. -/
def Obligations.ResetStateSeeks : Prop :=
  ∀ s : State, exec .resetState s =
    .next { s with
      ch := List.replicate s.params.maxChannels { index := 0, predictor := 0 }
      nextFrame := s.frameOffset
      decoded := 0
      status := { s.status with err := .ok, busy := false }
      run := .idle }

/-! ### PARSE -/

/-- 40_container_parser.md R111 to R114: the checks before the walk, in their order, and that nothing but STATUS
changes. The value of the magic is the spec's general knowledge (log 15). -/
def Obligations.ParseHeaderChecks : Prop :=
  ∀ s : State,
    (s.params.inSize < s.inBase.toNat + s.inLen.toNat → exec .parse s = .next (parseEndedWith .inRange s)) ∧
    (s.inBase.toNat + s.inLen.toNat ≤ s.params.inSize →
      ((s.inLen.toNat < 4 ∨ s.memRead s.inBase.toNat 4 ≠ 0x63616666) →
        exec .parse s = .next (parseEndedWith .badMagic s)) ∧
      (4 ≤ s.inLen.toNat → s.memRead s.inBase.toNat 4 = 0x63616666 →
        (s.inLen.toNat < 8 → exec .parse s = .next (parseEndedWith .corrupt s)) ∧
        (8 ≤ s.inLen.toNat → s.memRead (s.inBase.toNat + 4) 2 ≠ 1 →
          exec .parse s = .next (parseEndedWith .badVersion s))))

/-- 60_exceptions.md R214 for PARSE, and 40_container_parser.md R131: from EVERY state PARSE completes (its walk ends,
it never leaves IN and it never stops), and it touches neither IN nor OUT. -/
def Obligations.ParseAlwaysCompletes : Prop :=
  ∀ s : State, ∃ t, exec .parse s = .next t ∧ t.status.busy = false ∧ t.run = .idle ∧
    t.inMem = s.inMem ∧ t.outMem = s.outMem ∧ (t.status.parsed = true ↔ t.status.err = .ok)

/-- 40_container_parser.md R129: a failed PARSE changes STATUS (ERR, ERR_SEEN, PARSED, BUSY) and nothing else, and a
DECODE after it raises NOT_PARSED. -/
def Obligations.FailedParseKeepsEverything : Prop :=
  ∀ s t : State, exec .parse s = .next t → t.status.err ≠ .ok →
    t = parseEndedWith t.status.err s ∧ t.status.parsed = false ∧ exec .decode t = .next (endedWith .notParsed t)

/-- 40_container_parser.md R128, R119, R123: what a successful PARSE writes, that the block array it reports lies inside
the container buffer after a file header, a chunk header and edit_count, and that the frame count is not negative.
SI_BLOCK_BASE takes the low 64 bits of the array's address; where an empty array stands at 2^64 that is the model's choice
(log 18). -/
def Obligations.SuccessfulParseState : Prop :=
  ∀ s t : State, exec .parse s = .next t → t.status.err = .ok →
    ∃ (base size : Nat) (rate frames : Word64) (chans : Word32),
      t = parsedAs base size rate frames chans s ∧
      s.inBase.toNat + 24 ≤ base ∧ base + size ≤ s.inBase.toNat + s.inLen.toNat ∧
      s.inBase.toNat + s.inLen.toNat ≤ s.params.inSize ∧ 0 ≤ frames.toInt

/-- 40_container_parser.md R130 on a container in the usual order desc, pakt, data (each chunk of any legal length, the
data chunk's size given or -1): PARSE succeeds with the StreamInfo the fields of 30_encoding.md R86 to R88 give. Tag
values and the size -1 are the spec's general knowledge (log 15). Where the block array is empty and stands at 2^64, that
SI_BLOCK_BASE reads 0 is the model's choice (log 18). -/
def Obligations.ParseOfTheUsualContainer : Prop :=
  ∀ (s : State) (b d q z : Nat),
    b = s.inBase.toNat → b + s.inLen.toNat ≤ s.params.inSize →
    s.rdU32 b = Tag.caff → s.rdU16 (b + 4) = 1 →
    s.rdU32 (b + 8) = Tag.desc → (s.rdU64 (b + 12)).toInt = d → 32 ≤ d → s.rdU32 (b + 28) = Tag.ima4 →
    s.rdU32 (b + 20 + d) = Tag.pakt → (s.rdU64 (b + 24 + d)).toInt = q → 24 ≤ q →
    0 ≤ (s.rdU64 (b + 40 + d)).toInt →
    s.rdU32 (b + 32 + d + q) = Tag.data →
    ((s.rdU64 (b + 36 + d + q)).toInt = z ∨
      ((s.rdU64 (b + 36 + d + q)).toInt = -1 ∧ b + 44 + d + q + z = b + s.inLen.toNat)) →
    4 ≤ z → b + 44 + d + q + z ≤ b + s.inLen.toNat →
    exec .parse s = .next (parsedAs (b + 48 + d + q) (z - 4) (s.rdU64 (b + 20)) (s.rdU64 (b + 40 + d))
      (s.rdU32 (b + 44)) s)

/-! ### The chunk classes, in a walk whose buffer lies in IN -/

/-- 40_container_parser.md R119 (and the negative sizes of R118) for every chunk class: a payload that runs past the
buffer, or a negative size that is not a data chunk's -1, is CORRUPT. -/
def Obligations.ChunkSizesAreChecked : Prop :=
  ∀ (s : State) (w : WalkRun) (tag : Word32) (size : Word64), s.run = .walk w → w.bufEnd ≤ s.params.inSize →
    ((size.toInt < 0 ∨ w.bufEnd < w.cursor + 12 + size.toNat) →
      exec (.chunkDesc size) s = .next (parseEndedWith .corrupt s) ∧
      exec (.chunkPakt size) s = .next (parseEndedWith .corrupt s) ∧
      exec (.chunkOther tag size) s = .next (parseEndedWith .corrupt s) ∧
      (size.toInt ≠ -1 → exec (.chunkData size) s = .next (parseEndedWith .corrupt s)))

/-- 40_container_parser.md R120: an audio-description chunk; R126, R127: the walk goes on after it while another kind is
missing. The tag value is the spec's general knowledge (log 15). -/
def Obligations.DescChunk : Prop :=
  ∀ (s : State) (w : WalkRun) (size : Word64), s.run = .walk w → w.bufEnd ≤ s.params.inSize →
    0 ≤ size.toInt → w.cursor + 12 + size.toNat ≤ w.bufEnd →
    (size.toNat < 32 → exec (.chunkDesc size) s = .next (parseEndedWith .corrupt s)) ∧
    (32 ≤ size.toNat → s.memRead (w.cursor + 20) 4 ≠ 0x696D6134 →
      exec (.chunkDesc size) s = .next (parseEndedWith .badFormat s)) ∧
    (32 ≤ size.toNat → s.memRead (w.cursor + 20) 4 = 0x696D6134 → (w.pakt = none ∨ w.data = none) →
      exec (.chunkDesc size) s = .next { s with run := .walk { w with
        cursor := w.cursor + 12 + size.toNat
        desc := some { rate := s.rdU64 (w.cursor + 12), chans := s.rdU32 (w.cursor + 36) } } })

/-- 40_container_parser.md R122, R123: a packet-table chunk; R126, R127: the walk goes on after it while another kind is
missing. -/
def Obligations.PaktChunk : Prop :=
  ∀ (s : State) (w : WalkRun) (size : Word64), s.run = .walk w → w.bufEnd ≤ s.params.inSize →
    0 ≤ size.toInt → w.cursor + 12 + size.toNat ≤ w.bufEnd →
    (size.toNat < 24 → exec (.chunkPakt size) s = .next (parseEndedWith .corrupt s)) ∧
    (24 ≤ size.toNat → (s.rdU64 (w.cursor + 20)).toInt < 0 →
      exec (.chunkPakt size) s = .next (parseEndedWith .corrupt s)) ∧
    (24 ≤ size.toNat → 0 ≤ (s.rdU64 (w.cursor + 20)).toInt → (w.desc = none ∨ w.data = none) →
      exec (.chunkPakt size) s = .next { s with run := .walk { w with
        cursor := w.cursor + 12 + size.toNat, pakt := some (s.rdU64 (w.cursor + 20)) } })

/-- 40_container_parser.md R124: a data chunk, its block array after the 4-byte edit_count; R118: a size of -1 extends
it to the end of the buffer (the spec's general knowledge, log 15); R126, R127: the walk goes on after it while another
kind is missing. -/
def Obligations.DataChunk : Prop :=
  ∀ (s : State) (w : WalkRun) (size : Word64) (len : Nat), s.run = .walk w → w.bufEnd ≤ s.params.inSize →
    (size.toInt = len ∨ (size.toInt = -1 ∧ w.cursor + 12 + len = w.bufEnd)) → w.cursor + 12 + len ≤ w.bufEnd →
    (len < 4 → exec (.chunkData size) s = .next (parseEndedWith .corrupt s)) ∧
    (4 ≤ len → (w.desc = none ∨ w.pakt = none) →
      exec (.chunkData size) s = .next { s with run := .walk { w with
        cursor := w.cursor + 12 + len, data := some { base := w.cursor + 16, size := len - 4 } } })

/-- 40_container_parser.md R125, 30_encoding.md R89: a chunk of any other tag is skipped, its payload unread. -/
def Obligations.OtherChunkIsSkipped : Prop :=
  ∀ (s : State) (w : WalkRun) (tag : Word32) (size : Word64), s.run = .walk w → w.bufEnd ≤ s.params.inSize →
    0 ≤ size.toInt → w.cursor + 12 + size.toNat ≤ w.bufEnd → (w.desc = none ∨ w.pakt = none ∨ w.data = none) →
    exec (.chunkOther tag size) s = .next { s with run := .walk { w with cursor := w.cursor + 12 + size.toNat } }

/-- 40_container_parser.md R127, R128: the chunk that completes desc, pakt and data, whichever it is, ends PARSE with
success; what it yields (R120, R122 and R123, R124) replaces what an earlier chunk of its kind yielded (R121). The codec tag
and a data chunk's size -1 (R118) are the spec's general knowledge (log 15). Where an empty block array stands at 2^64,
that SI_BLOCK_BASE reads 0 is the model's choice (log 18). -/
def Obligations.TheThirdKindEndsParse : Prop :=
  ∀ (s : State) (w : WalkRun) (size : Word64) (len : Nat), s.run = .walk w → w.bufEnd ≤ s.params.inSize →
    w.cursor + 12 + len ≤ w.bufEnd →
    (∀ f d, w.pakt = some f → w.data = some d → size.toInt = len → 32 ≤ len → s.rdU32 (w.cursor + 20) = Tag.ima4 →
      exec (.chunkDesc size) s =
        .next (parsedAs d.base d.size (s.rdU64 (w.cursor + 12)) f (s.rdU32 (w.cursor + 36)) s)) ∧
    (∀ a d, w.desc = some a → w.data = some d → size.toInt = len → 24 ≤ len →
      0 ≤ (s.rdU64 (w.cursor + 20)).toInt →
      exec (.chunkPakt size) s =
        .next (parsedAs d.base d.size a.rate (s.rdU64 (w.cursor + 20)) a.chans s)) ∧
    (∀ a f, w.desc = some a → w.pakt = some f →
      (size.toInt = len ∨ (size.toInt = -1 ∧ w.cursor + 12 + len = w.bufEnd)) → 4 ≤ len →
      exec (.chunkData size) s =
        .next (parsedAs (w.cursor + 16) (len - 4) a.rate f a.chans s))

/-! ### The codes -/

/-- The state after one code: the sample is the new predictor, the running predictor saturates, the running index is
clamped to [0,88], and the step follows the index (41_block_decoder.md, the template before R161). -/
def codeDone (s : State) (b : BlockRun) (pred adj : Int) : State :=
  { s with
    outMem := Memory.write (b.outBase + b.k * b.stride)
      (sampleBits s.params.outFmt (max (-32768) (min 32767 pred))) s.outMem
    run := .block { b with
      k := b.k + 1
      pred := max (-32768) (min 32767 pred)
      index := (max 0 (min 88 ((b.index : Int) + adj))).toNat
      step := stepAt (max 0 (min 88 ((b.index : Int) + adj))).toNat } }

/-- 41_block_decoder.md R161 to R168: the eight codes that add. -/
def Obligations.CodesThatAdd : Prop :=
  ∀ (s : State) (b : BlockRun), s.run = .block b → b.outBase + b.k * b.stride < s.params.outSize →
    exec .codeP0 s = .next (codeDone s b (b.pred + (b.step >>> 3 : Nat)) (-1)) ∧
    exec .codeP1 s = .next (codeDone s b (b.pred + ((b.step >>> 3) + (b.step >>> 2) : Nat)) (-1)) ∧
    exec .codeP2 s = .next (codeDone s b (b.pred + ((b.step >>> 3) + (b.step >>> 1) : Nat)) (-1)) ∧
    exec .codeP3 s = .next (codeDone s b (b.pred + ((b.step >>> 3) + (b.step >>> 1) + (b.step >>> 2) : Nat)) (-1)) ∧
    exec .codeP4 s = .next (codeDone s b (b.pred + ((b.step >>> 3) + b.step : Nat)) 2) ∧
    exec .codeP5 s = .next (codeDone s b (b.pred + ((b.step >>> 3) + b.step + (b.step >>> 2) : Nat)) 4) ∧
    exec .codeP6 s = .next (codeDone s b (b.pred + ((b.step >>> 3) + b.step + (b.step >>> 1) : Nat)) 6) ∧
    exec .codeP7 s =
      .next (codeDone s b (b.pred + ((b.step >>> 3) + b.step + (b.step >>> 1) + (b.step >>> 2) : Nat)) 8)

/-- 41_block_decoder.md R169 to R176: the eight codes that subtract. -/
def Obligations.CodesThatSubtract : Prop :=
  ∀ (s : State) (b : BlockRun), s.run = .block b → b.outBase + b.k * b.stride < s.params.outSize →
    exec .codeN0 s = .next (codeDone s b (b.pred - (b.step >>> 3 : Nat)) (-1)) ∧
    exec .codeN1 s = .next (codeDone s b (b.pred - ((b.step >>> 3) + (b.step >>> 2) : Nat)) (-1)) ∧
    exec .codeN2 s = .next (codeDone s b (b.pred - ((b.step >>> 3) + (b.step >>> 1) : Nat)) (-1)) ∧
    exec .codeN3 s = .next (codeDone s b (b.pred - ((b.step >>> 3) + (b.step >>> 1) + (b.step >>> 2) : Nat)) (-1)) ∧
    exec .codeN4 s = .next (codeDone s b (b.pred - ((b.step >>> 3) + b.step : Nat)) 2) ∧
    exec .codeN5 s = .next (codeDone s b (b.pred - ((b.step >>> 3) + b.step + (b.step >>> 2) : Nat)) 4) ∧
    exec .codeN6 s = .next (codeDone s b (b.pred - ((b.step >>> 3) + b.step + (b.step >>> 1) : Nat)) 6) ∧
    exec .codeN7 s =
      .next (codeDone s b (b.pred - ((b.step >>> 3) + b.step + (b.step >>> 1) + (b.step >>> 2) : Nat)) 8)

/-- 41_block_decoder.md R179, R142 (derived there), and the frame of every code: after any code, from any running state,
the running index and predictor are in their ranges, the step is STEP at the index and lies in [7, 32767]; the one OUT
element written is the sample; nothing else changes. -/
def Obligations.EveryCodeKeepsTheRangesAndTheRest : Prop :=
  ∀ (c : Nibble) (s t : State), exec (decodeCode c) s = .next t →
    ∃ b b' : BlockRun, s.run = .block b ∧ t.run = .block b' ∧
      b'.index ≤ 88 ∧ -32768 ≤ b'.pred ∧ b'.pred ≤ 32767 ∧
      b'.step = stepAt b'.index ∧ 7 ≤ b'.step ∧ b'.step ≤ 32767 ∧
      t.outElem (b.outBase + b.k * b.stride) = sampleBits s.params.outFmt b'.pred ∧
      (∀ e, e ≠ b.outBase + b.k * b.stride → t.outElem e = s.outElem e) ∧
      b' = { b with k := b.k + 1, pred := b'.pred, index := b'.index, step := b'.step } ∧
      t = { s with outMem := t.outMem, run := t.run }

/-- Where the code and chunk meanings stop, by name: with no block or no walk in progress, and outside OUT or IN. The
spec gives none of these an effect, and no command meets them; they are the model's choice (logs 11, 12). -/
def Obligations.CodesAndChunksStopOutsideTheirCommand : Prop :=
  (∀ (c : Nibble) (s : State), (∀ b, s.run ≠ .block b) → exec (decodeCode c) s = .fault .noBlock) ∧
  (∀ (c : Nibble) (s : State) (b : BlockRun), s.run = .block b → s.params.outSize ≤ b.outBase + b.k * b.stride →
    exec (decodeCode c) s = .fault .noSuchOutElement) ∧
  (∀ (tag : Word32) (size : Word64) (s : State), (∀ w, s.run ≠ .walk w) →
    exec (decodeChunk tag size) s = .fault .noWalk) ∧
  (∀ (tag : Word32) (size : Word64) (s : State) (w : WalkRun), s.run = .walk w → s.params.inSize < w.bufEnd →
    exec (decodeChunk tag size) s = .fault .noSuchInByte)

/-- 41_block_decoder.md R142: the shape of the two tables. Their values are general knowledge (log 14). -/
def Obligations.TablesHaveTheSourcesShape : Prop :=
  stepTable.length = 89 ∧ stepTable.Pairwise (· < ·) ∧ stepAt 0 = 7 ∧ stepAt 88 = 32767 ∧
  indexAdjTable.length = 16 ∧ (∀ a ∈ indexAdjTable, a ∈ ([-1, 2, 4, 6, 8] : List Int))

/-! ### The samples -/

/-- 41_block_decoder.md R149: the PCM16 pattern of a sample is its value modulo 2^16. -/
def Obligations.Pcm16PatternIsTwosComplement : Prop :=
  ∀ v : Int, -32768 ≤ v → v ≤ 32767 → ((sampleBits .pcm16 v).toNat : Int) = v % 65536

/-- 41_block_decoder.md R160: the FLOAT32 pattern is a normal number with the sign of the sample; no binary32 magnitude
is nearer to the exact product of the sample and K = 8388864 * 2^-38, and where another is as near the significand is
even; and the four values the rule names. A magnitude with exponent field `e` and significand `m` (leading one included)
stands for m * 2^(e - 150); everything here is times 2^150, so the product is |v| * 8388864 * 2^112. The numbers `e'`,
`m'` run over every finite binary32 magnitude, zero and the subnormals (field 0, the same scale as field 1) among
them. -/
def Obligations.Float32PatternIsNearestEven : Prop :=
  (∀ v : Int, -32768 ≤ v → v ≤ 32767 → v ≠ 0 →
    ∃ e m : Nat, 1 ≤ e ∧ e ≤ 254 ∧ 2 ^ 23 ≤ m ∧ m < 2 ^ 24 ∧
      (sampleBits .float32 v).toNat = (if v < 0 then 2 ^ 31 else 0) + e * 2 ^ 23 + (m - 2 ^ 23) ∧
      ∀ e' m' : Nat, 1 ≤ e' → e' ≤ 254 → (2 ^ 23 ≤ m' ∨ e' = 1) → m' < 2 ^ 24 →
        ((m * 2 ^ e : Nat) - (v.natAbs * 8388864 * 2 ^ 112 : Nat) : Int).natAbs ≤
          ((m' * 2 ^ e' : Nat) - (v.natAbs * 8388864 * 2 ^ 112 : Nat) : Int).natAbs ∧
        (((m * 2 ^ e : Nat) - (v.natAbs * 8388864 * 2 ^ 112 : Nat) : Int).natAbs =
            ((m' * 2 ^ e' : Nat) - (v.natAbs * 8388864 * 2 ^ 112 : Nat) : Int).natAbs →
          (e = e' ∧ m = m') ∨ m % 2 = 0)) ∧
  sampleBits .float32 32767 = 0x3F800000#32 ∧ sampleBits .float32 (-32768) = 0xBF800100#32 ∧
  sampleBits .float32 0 = 0x00000000#32 ∧ sampleBits .float32 1 = 0x38000100#32

/-! ### DECODE_BLOCK -/

/-- 41_block_decoder.md R178 (the checks in their order) and R146 (a preamble index above 88): each ends the command
with its code, and nothing else changes. -/
def Obligations.DecodeBlockChecksInOrder : Prop :=
  ∀ s : State,
    ((s.blkArgs.count.toNat = 0 ∨ 64 < s.blkArgs.count.toNat) →
      exec .decodeBlock s = .next (endedWith .badCount s)) ∧
    (1 ≤ s.blkArgs.count.toNat → s.blkArgs.count.toNat ≤ 64 →
      (s.params.maxChannels ≤ s.blkArgs.channel.toNat → exec .decodeBlock s = .next (endedWith .badChannel s)) ∧
      (s.blkArgs.channel.toNat < s.params.maxChannels →
        (s.params.inSize < s.blkAddr.toNat + 34 → exec .decodeBlock s = .next (endedWith .blockRange s)) ∧
        (s.blkAddr.toNat + 34 ≤ s.params.inSize →
          ((s.outLen.toNat < (s.blkArgs.count.toNat - 1) * s.blkArgs.stride.toNat + 1 ∨
              s.params.outSize < s.outBase.toNat + ((s.blkArgs.count.toNat - 1) * s.blkArgs.stride.toNat + 1)) →
            exec .decodeBlock s = .next (endedWith .outRange s))))) ∧
    (DecodeBlockReady s → 88 < s.memRead s.blkAddr.toNat 2 % 128 →
      exec .decodeBlock s = .next (endedWith .badIndex s))

/-- 41_block_decoder.md R159, R177: DECODE_BLOCK gives what the reference decoder gives: the samples in OUT (the later
one where two go to the same element, 20_memory.md R68), the last running state in CH[CHANNEL], and nothing else. -/
def Obligations.DecodeBlockGivesTheReferenceBlock : Prop :=
  ∀ s : State, DecodeBlockReady s → refIndex s s.blkAddr.toNat ≤ 88 → s.ch.length = s.params.maxChannels →
    ∃ t, exec .decodeBlock s = .next t ∧
      (∀ k, k < s.blkArgs.count.toNat →
        (∀ k', k < k' → k' < s.blkArgs.count.toNat →
          s.outBase.toNat + k' * s.blkArgs.stride.toNat ≠ s.outBase.toNat + k * s.blkArgs.stride.toNat) →
        t.outElem (s.outBase.toNat + k * s.blkArgs.stride.toNat) =
          sampleBits s.params.outFmt
            (refBlock s s.blkAddr.toNat (s.channel s.blkArgs.channel.toNat) (k + 1)).predictor) ∧
      (∀ e, (∀ k, k < s.blkArgs.count.toNat → e ≠ s.outBase.toNat + k * s.blkArgs.stride.toNat) →
        t.outElem e = s.outElem e) ∧
      t = { s with
        status := { s.status with err := .ok, busy := false }
        outMem := t.outMem
        ch := s.ch.set s.blkArgs.channel.toNat
          (refBlock s s.blkAddr.toNat (s.channel s.blkArgs.channel.toNat) s.blkArgs.count.toNat)
        run := .idle }

/-- 41_block_decoder.md R152, R144: the continuity rule, seen in the first sample of a block decoded for one code: the
retained predictor is kept when the preamble's index is the retained index and the seed is at most 127 away; otherwise
the seed is the baseline. The seed's scale is the spec's choice (log 16). -/
def Obligations.ContinuityRuleInTheFirstSample : Prop :=
  ∀ (s : State) (p : Nat) (seed base : Int) (c : ChannelState), DecodeBlockReady s → s.blkArgs.count = 1 →
    p = s.memRead s.blkAddr.toNat 2 → p % 128 ≤ 88 → c = s.channel s.blkArgs.channel.toNat →
    seed = (if p < 32768 then ((p / 128 : Nat) : Int) * 128 else ((p / 128 : Nat) : Int) * 128 - 65536) →
    ((p % 128 = c.index ∧ (seed - c.predictor).natAbs ≤ 127 ∧ base = c.predictor) ∨
      (¬(p % 128 = c.index ∧ (seed - c.predictor).natAbs ≤ 127) ∧ base = seed)) →
    ∃ t, exec .decodeBlock s = .next t ∧
      t.outElem s.outBase.toNat = sampleBits s.params.outFmt
        (refStep ((s.inByte (s.blkAddr.toNat + 2)).toNat % 16) { index := p % 128, predictor := base }).predictor

/-- 41_block_decoder.md R145: DECODE_BLOCK's effects depend on no byte of IN but the preamble and the code bytes of its
first n codes. -/
def Obligations.DecodeBlockReadsOnlyItsBytes : Prop :=
  ∀ (s : State) (m : List Host.Cell) (t : State),
    (∀ a, s.blkAddr.toNat ≤ a → a < s.blkAddr.toNat + 2 + (s.blkArgs.count.toNat + 1) / 2 →
      ({ s with inMem := m } : State).inByte a = s.inByte a) →
    exec .decodeBlock s = .next t → exec .decodeBlock { s with inMem := m } = .next { t with inMem := m }

/-! ### DECODE -/

/-- 42_stream_decoder.md R181, R182, R183, R185, R187, R188, R190, in the order of R191 (60_exceptions.md R217): each
ends the command with its code, and nothing else changes. -/
def Obligations.DecodeChecksInOrder : Prop :=
  ∀ (s : State) (off n ch : Nat), off = s.frameOffset.toNat → n = s.frameCount.toNat → ch = s.siChannelCount.toNat →
    (s.status.parsed = false → exec .decode s = .next (endedWith .notParsed s)) ∧
    (s.status.parsed = true →
      ((ch = 0 ∨ s.params.maxChannels < ch) → exec .decode s = .next (endedWith .badChannels s)) ∧
      (0 < ch → ch ≤ s.params.maxChannels →
        (off % 64 ≠ 0 → exec .decode s = .next (endedWith .unalignedOffset s)) ∧
        (off % 64 = 0 →
          (s.params.streamMode = .stateful → s.frameOffset ≠ s.nextFrame →
            exec .decode s = .next (endedWith .seekMismatch s)) ∧
          ((s.params.streamMode = .stateful → s.frameOffset = s.nextFrame) →
            (s.siFrameCount.toNat < off + n → exec .decode s = .next (endedWith .frameRange s)) ∧
            (off + n ≤ s.siFrameCount.toNat →
              (0 < n → s.siBlockSize.toNat < (off / 64 + (n + 63) / 64) * ch * 34 →
                exec .decode s = .next (endedWith .blockRange s)) ∧
              ((n = 0 ∨ (off / 64 + (n + 63) / 64) * ch * 34 ≤ s.siBlockSize.toNat) →
                (s.outLen.toNat < n * ch ∨ s.params.outSize < s.outBase.toNat + n * ch) →
                exec .decode s = .next (endedWith .outRange s)))))))

/-- 42_stream_decoder.md R195: DECODE of no frames. -/
def Obligations.DecodeOfNoFrames : Prop :=
  ∀ s : State, DecodeReady s → s.frameCount = 0 →
    exec .decode s = .next { s with
      status := { s.status with err := .ok, busy := false }
      ch := if s.params.streamMode = .stateful then s.ch
        else List.replicate s.params.maxChannels { index := 0, predictor := 0 }
      nextFrame := s.frameOffset
      decoded := 0
      run := .idle }

/-- 42_stream_decoder.md R184, R189, R198: when the checks pass and no needed preamble has an index above 88, DECODE
completes with OK; element OUT_BASE + f*ch + c holds frame f of channel c as the reference decoder gives it, for every
frame and channel, and no other element changes; CH holds each channel's last state; the position moves. That the block
array lies in IN is R75's invariant (a premise here). -/
def Obligations.DecodeGivesTheReferenceStream : Prop :=
  ∀ s : State, DecodeReady s → s.siBlockBase.toNat + s.siBlockSize.toNat ≤ s.params.inSize →
    s.ch.length = s.params.maxChannels →
    (∀ j c, 64 * j < s.frameCount.toNat → c < s.siChannelCount.toNat → refIndex s (refAddr s j c) ≤ 88) →
    ∃ t, exec .decode s = .next t ∧
      t.status = { s.status with err := .ok, busy := false } ∧
      t.nextFrame.toNat = s.frameOffset.toNat + s.frameCount.toNat ∧ t.decoded.toNat = s.frameCount.toNat ∧
      (∀ f c, f < s.frameCount.toNat → c < s.siChannelCount.toNat →
        t.outElem (s.outBase.toNat + f * s.siChannelCount.toNat + c) = sampleBits s.params.outFmt (refSample s f c)) ∧
      (∀ e, (e < s.outBase.toNat ∨ s.outBase.toNat + s.frameCount.toNat * s.siChannelCount.toNat ≤ e) →
        t.outElem e = s.outElem e) ∧
      (∀ c, c < s.siChannelCount.toNat → t.channel c = refStream s c ((s.frameCount.toNat + 63) / 64)) ∧
      (∀ c, s.siChannelCount.toNat ≤ c → t.channel c = refEntry s c) ∧
      t = { s with
        status := t.status, outMem := t.outMem, ch := t.ch, nextFrame := t.nextFrame, decoded := t.decoded,
        run := .idle }

/-- 42_stream_decoder.md R192: BAD_INDEX at slot J, channel C keeps the effects of every earlier block in loop order and
of no other; NEXT_FRAME and DECODED stay. That the block array lies in IN is R75's invariant (a premise here). -/
def Obligations.BadIndexKeepsTheEarlierBlocks : Prop :=
  ∀ (s : State) (J C : Nat), DecodeReady s → s.siBlockBase.toNat + s.siBlockSize.toNat ≤ s.params.inSize →
    s.ch.length = s.params.maxChannels →
    64 * J < s.frameCount.toNat → C < s.siChannelCount.toNat → 88 < refIndex s (refAddr s J C) →
    (∀ j c, (j < J ∨ (j = J ∧ c < C)) → c < s.siChannelCount.toNat → refIndex s (refAddr s j c) ≤ 88) →
    ∃ t, exec .decode s = .next t ∧
      (∀ f c, f < s.frameCount.toNat → c < s.siChannelCount.toNat → (f / 64 < J ∨ (f / 64 = J ∧ c < C)) →
        t.outElem (s.outBase.toNat + f * s.siChannelCount.toNat + c) = sampleBits s.params.outFmt (refSample s f c)) ∧
      (∀ e, (∀ f c, f < s.frameCount.toNat → c < s.siChannelCount.toNat → (f / 64 < J ∨ (f / 64 = J ∧ c < C)) →
          e ≠ s.outBase.toNat + f * s.siChannelCount.toNat + c) → t.outElem e = s.outElem e) ∧
      (∀ c, c < C → t.channel c = refStream s c (J + 1)) ∧
      (∀ c, C ≤ c → c < s.siChannelCount.toNat → t.channel c = refStream s c J) ∧
      (∀ c, s.siChannelCount.toNat ≤ c → t.channel c = refEntry s c) ∧
      t = { endedWith .badIndex s with outMem := t.outMem, ch := t.ch }

/-- 42_stream_decoder.md R186, R197: in STATELESS mode a DECODE whose checks pass does not depend on CH at all. -/
def Obligations.StatelessDecodeIgnoresRetainedState : Prop :=
  ∀ (s : State) (l : List ChannelState), s.params.streamMode = .stateless → DecodeReady s →
    exec .decode { s with ch := l } = exec .decode s

/-- 42_stream_decoder.md R199 item 1 (derived there): in STATEFUL mode, RESET_STATE and then DECODE gives the OUT, CH and
NEXT_FRAME that a STATELESS instance's DECODE gives from the same state. That the block array lies in IN is R75's
invariant (a premise here). -/
def Obligations.SeekThenDecodeEqualsStateless : Prop :=
  ∀ s u t : State, s.params.streamMode = .stateful →
    s.siBlockBase.toNat + s.siBlockSize.toNat ≤ s.params.inSize → exec .resetState s = .next u →
    exec .decode { s with params := { s.params with streamMode := .stateless } } = .next t →
    (t.status.err = .ok ∨ t.status.err = .badIndex) →
    ∃ v, exec .decode u = .next v ∧ v.status.err = t.status.err ∧ v.outMem = t.outMem ∧ v.ch = t.ch ∧
      (t.status.err = .ok → v.nextFrame = t.nextFrame)

/-- 42_stream_decoder.md R199 item 2 (derived there): in STATEFUL mode, from a state that meets the invariant, one DECODE
of n1 + n2 frames gives the OUT, CH and NEXT_FRAME of a DECODE of n1 frames (a multiple of 64) and then one of n2 frames
into the window that follows. -/
def Obligations.OneDecodeEqualsTwo : Prop :=
  ∀ (s t : State) (n1 n2 : Word32), s.Inv → s.params.streamMode = .stateful → n1.toNat % 64 = 0 →
    s.frameCount.toNat = n1.toNat + n2.toNat → exec .decode s = .next t → t.status.err = .ok →
    ∃ u v : State, exec .decode { s with frameCount := n1 } = .next u ∧ u.status.err = .ok ∧
      exec .decode { u with
        frameOffset := BitVec.ofNat 64 (s.frameOffset.toNat + n1.toNat)
        frameCount := n2
        outBase := BitVec.ofNat 64 (s.outBase.toNat + n1.toNat * s.siChannelCount.toNat)
        outLen := BitVec.ofNat 64 (s.outLen.toNat - n1.toNat * s.siChannelCount.toNat) } = .next v ∧
      v.status.err = .ok ∧ v.outMem = t.outMem ∧ v.ch = t.ch ∧ v.nextFrame = t.nextFrame

/-! ### The host's accesses -/

/-- 10_state.md R26, R28: a register write while BUSY = 1 is dropped, whatever the index, and sets OVERRUN; while
BUSY = 0 a CMD write makes its word pending and sets BUSY, and a write to an RO register or a reserved index has no
effect. That the host keeps the command and its window is the model's own (log 19). -/
def Obligations.RegisterWritesAndBusy : Prop :=
  ∀ (s : State) (i : Nat) (v : Word64) (rest : List Turn), s.hostHazard = false → s.run = .idle →
    s.schedule = .host (.regWrite i v) :: rest →
    (s.status.busy = true →
      step s = .next { s with schedule := rest, status := { s.status with overrun := true } }) ∧
    (s.status.busy = false →
      (i = 0 → step s = .next { s with
        schedule := rest, pending := v, status := { s.status with busy := true },
        history := .command v s.outBase s.outLen :: s.history }) ∧
      ((i = 1 ∨ i = 2 ∨ 13 ≤ i) → step s = .next { s with schedule := rest }))

/-- 10_state.md R31 to R34: what a host write of an RW register while BUSY = 0 leaves there, its reserved bits reading 0,
and that no other register's value changes but the CH_STATE window of a new CH_SEL (R35). -/
def Obligations.RegisterWritesReadBack : Prop :=
  ∀ (s : State) (i : Nat) (v : Word64) (rest : List Turn), s.hostHazard = false → s.run = .idle →
    s.schedule = .host (.regWrite i v) :: rest → s.status.busy = false → 3 ≤ i → i ≤ 11 →
    ∃ t, step s = .next t ∧
      t.regValue i =
        (if i = 8 then v &&& 0x00000000FFFFFFFF#64
         else if i = 10 then v &&& 0xFFFFFFFF00FFFF7F#64
         else if i = 11 then v &&& 0x000000000000FFFF#64
         else v) ∧
      (∀ j, j ≠ i → ¬(i = 11 ∧ j = 12) → t.regValue j = s.regValue j) ∧
      t.ch = s.ch ∧ t.inMem = s.inMem ∧ t.outMem = s.outMem ∧ t.status = s.status ∧ t.pending = s.pending

/-- 10_state.md R35: a write and a read of the CH_STATE window. -/
def Obligations.ChStateWindow : Prop :=
  ∀ (s : State) (v : Word64) (rest : List Turn), s.hostHazard = false → s.run = .idle →
    s.schedule = .host (.regWrite 12 v) :: rest → s.status.busy = false → s.ch.length = s.params.maxChannels →
    (s.params.maxChannels ≤ s.chSel.toNat → step s = .next { s with schedule := rest } ∧ s.regValue 12 = 0) ∧
    (s.chSel.toNat < s.params.maxChannels →
      ∃ t, step s = .next t ∧
        t = { s with schedule := rest, ch := (s.ch.set s.chSel.toNat
          { index := min (v.toNat % 256) 88, predictor := (v.extractLsb' 16 16).toInt }) } ∧
        (t.regValue 12).toNat = min (v.toNat % 256) 88 + v.toNat / 65536 % 65536 * 65536)

/-- 10_state.md R27, R28, 20_memory.md R68: a register read while BUSY = 0, and a read of STATUS or CONFIG at any time,
returns the current value and changes nothing; CMD and reserved indices read 0. A read of any other index while BUSY = 1
returns a free value (log 4), a new one each time, and changes nothing else. The list of what the host keeps is the
model's (log 19). -/
def Obligations.RegisterReadsAreCurrent : Prop :=
  ∀ (s : State) (i : Nat) (rest : List Turn), s.hostHazard = false → s.run = .idle →
    s.schedule = .host (.regRead i) :: rest →
    ((s.status.busy = false ∨ i = 1 ∨ i = 2) →
      step s = .next { s with schedule := rest, history := .reg i (s.regValue i) :: s.history }) ∧
    ((s.status.busy = true ∧ i ≠ 1 ∧ i ≠ 2) →
      step s = .next { s with
        schedule := rest, history := .reg i (Config.busyRead s.draws) :: s.history, draws := s.draws + 1 }) ∧
    ((i = 0 ∨ 20 ≤ i) → s.regValue i = 0)

/-- 60_exceptions.md R223, 70_reset_and_hazards.md R245, R246: a host write of IN or a host access of OUT while BUSY = 1
records HOST_HAZARD. That the access has no other effect, and that every later step stops, is the model's choice
(log 9). -/
def Obligations.HazardsAreRecorded : Prop :=
  (∀ (s : State) (a : Nat) (b : Byte) (rest : List Turn), s.hostHazard = false → s.run = .idle →
    s.status.busy = true → s.schedule = .host (.inWrite a b) :: rest → a < s.params.inSize →
    step s = .next { s with schedule := rest, hostHazard := true }) ∧
  (∀ (s : State) (e : Nat) (v : Word32) (rest : List Turn), s.hostHazard = false → s.run = .idle →
    s.status.busy = true → (s.schedule = .host (.outWrite e v) :: rest ∨ s.schedule = .host (.outRead e) :: rest) →
    e < s.params.outSize → step s = .next { s with schedule := rest, hostHazard := true }) ∧
  (∀ s : State, s.hostHazard = true → step s = .fault .hostHazard)

/-- 20_memory.md R60, R61, 70_reset_and_hazards.md R245: the host's own accesses to IN and OUT while BUSY = 0 (a read of
IN at any time): a write is read back and changes no other byte or element, a read changes nothing. That an access to a
byte or element that does not exist stops is the model's choice (log 10). -/
def Obligations.HostMemoryAccesses : Prop :=
  (∀ (s : State) (a : Nat) (b : Byte) (rest : List Turn), s.hostHazard = false → s.run = .idle →
    s.schedule = .host (.inWrite a b) :: rest →
    (s.params.inSize ≤ a → step s = .fault .noSuchInByte) ∧
    (a < s.params.inSize → s.status.busy = false → ∃ t, step s = .next t ∧ t.inByte a = b ∧
      (∀ a', a' ≠ a → t.inByte a' = s.inByte a') ∧ t = { s with schedule := rest, inMem := t.inMem })) ∧
  (∀ (s : State) (a : Nat) (rest : List Turn), s.hostHazard = false → s.run = .idle →
    s.schedule = .host (.inRead a) :: rest →
    (s.params.inSize ≤ a → step s = .fault .noSuchInByte) ∧
    (a < s.params.inSize →
      step s = .next { s with schedule := rest, history := .inByte a (s.inByte a) :: s.history })) ∧
  (∀ (s : State) (e : Nat) (v : Word32) (rest : List Turn), s.hostHazard = false → s.run = .idle →
    s.schedule = .host (.outWrite e v) :: rest →
    (s.params.outSize ≤ e → step s = .fault .noSuchOutElement) ∧
    (e < s.params.outSize → s.status.busy = false → ∃ t, step s = .next t ∧
      t.outElem e = (if s.params.outFmt = .pcm16 then v &&& 0x0000FFFF#32 else v) ∧
      (∀ e', e' ≠ e → t.outElem e' = s.outElem e') ∧ t = { s with schedule := rest, outMem := t.outMem })) ∧
  (∀ (s : State) (e : Nat) (rest : List Turn), s.hostHazard = false → s.run = .idle →
    s.schedule = .host (.outRead e) :: rest →
    (s.params.outSize ≤ e → step s = .fault .noSuchOutElement) ∧
    (e < s.params.outSize → s.status.busy = false →
      step s = .next { s with schedule := rest, history := .outElem e (s.outElem e) :: s.history }))

/-! ### Reset -/

/-- 70_reset_and_hazards.md R240, R241, R242: the reset event, busy or not: every register takes its reset value, CH is
zero, the command in progress is gone, and IN, OUT and the parameters stay. -/
def Obligations.ResetEvent : Prop :=
  ∀ (s : State) (rest : List Turn), s.hostHazard = false → s.run = .idle → s.schedule = .reset :: rest →
    ∃ t, step s = .next t ∧
      (∀ i, i ≠ 2 → t.regValue i = 0) ∧ t.regValue 2 = s.regValue 2 ∧
      t.ch = List.replicate s.params.maxChannels { index := 0, predictor := 0 } ∧
      t.run = .idle ∧ t.status.busy = false ∧
      t.inMem = s.inMem ∧ t.outMem = s.outMem ∧ t.params = s.params ∧ t.schedule = rest

/-- 70_reset_and_hazards.md R241: after power-on every register reads 0 but CONFIG, and every entry of CH is zero, for
every instance. -/
def Obligations.PowerOnRegisters : Prop :=
  ∀ p : Params, (∀ i, i ≠ 2 → (State.resetWith p).regValue i = 0) ∧
    (State.resetWith p).regValue 2 = Params.configWord p ∧
    (State.resetWith p).ch = List.replicate p.maxChannels { index := 0, predictor := 0 } ∧
    (State.resetWith p).status.busy = false

/-! ### The whole machine -/

/-- 10_state.md R22, R42, 20_memory.md R60, R61, R75, 41_block_decoder.md R179: from every state that meets it, every
step keeps the invariant: legal ChannelStates, canonical memories inside IN and OUT, elements of their width, the block
array inside IN, a frame count below 2^63. -/
def Obligations.EveryStepKeepsTheInvariant : Prop :=
  ∀ s t : State, s.Inv → step s = .next t → t.Inv

/-- The invariant holds after power-on, for every instance whose parameters are in their ranges (00_scope.md R8, R9). -/
def Obligations.PowerOnMeetsTheInvariant : Prop :=
  (∀ p : Params, p.valid → (State.resetWith p).Inv) ∧ State.reset.Inv

/-- 10_state.md R46: no hidden state survives a command: between steps the machine is idle. -/
def Obligations.NoHiddenStateBetweenSteps : Prop :=
  ∀ s t : State, s.run = .idle → step s = .next t → t.run = .idle

/-- 60_exceptions.md R214, 70_reset_and_hazards.md R251, 20_memory.md R75: from every state that meets the invariant with
a command pending, the core's step completes the command: it never stops, never blocks, and never leaves IN or OUT. The
step is the core's when its turn is first, when no turn is left, and when a WAIT is first; the last two are the model's
choice (logs 5, 6). -/
def Obligations.EveryCommandCompletes : Prop :=
  ∀ s : State, s.Inv → s.hostHazard = false → s.run = .idle → s.status.busy = true →
    (s.schedule = [] ∨ ∃ rest, s.schedule = .core :: rest ∨ s.schedule = .wait :: rest) →
    ∃ t, step s = .next t ∧ t.status.busy = false ∧ t.run = .idle

/-- 20_memory.md R60, R62, 10_state.md R25: the frame of every instruction: the core never writes IN, an argument
register, the pending word, OVERRUN or the parameters. -/
def Obligations.NoInstructionWritesTheHostsState : Prop :=
  ∀ (i : Instr) (s t : State), exec i s = .next t →
    t = { t with
      params := s.params, pending := s.pending, inBase := s.inBase, inLen := s.inLen, outBase := s.outBase,
      outLen := s.outLen, frameOffset := s.frameOffset, frameCount := s.frameCount, blkAddr := s.blkAddr,
      blkArgs := s.blkArgs, chSel := s.chSel, inMem := s.inMem, hostHazard := s.hostHazard, schedule := s.schedule,
      history := s.history, draws := s.draws, status := { t.status with overrun := s.status.overrun } }

/-- 20_memory.md R61: a command writes OUT only inside its window [OUT_BASE, OUT_BASE + OUT_LEN). -/
def Obligations.CommandsWriteOnlyTheWindow : Prop :=
  ∀ (w : Word64) (i : Instr) (s t : State), decodeCommand w = .ok i → exec i s = .next t →
    ∀ e, (e < s.outBase.toNat ∨ s.outBase.toNat + s.outLen.toNat ≤ e) → t.outElem e = s.outElem e

/-- 10_state.md R29: ERR_SEEN and OVERRUN are sticky: nothing but a reset clears them, and a command that completes with
an error sets ERR_SEEN. -/
def Obligations.StickyFlags : Prop :=
  (∀ s t : State, (∀ rest, s.schedule ≠ .reset :: rest) → step s = .next t →
    (s.status.errSeen = true → t.status.errSeen = true) ∧ (s.status.overrun = true → t.status.overrun = true)) ∧
  (∀ (w : Word64) (i : Instr) (s t : State), decodeCommand w = .ok i → exec i s = .next t → t.status.err ≠ .ok →
    t.status.errSeen = true)

/-- 10_state.md R36, R44, R45: between commands, a step changes the StreamInfo registers only as a PARSE that completes
OK or a reset, and NEXT_FRAME and DECODED only as such a PARSE, a RESET_STATE, a DECODE that completes OK, or a
reset. That the step is the command's: no host turn is first, BUSY falls. -/
def Obligations.WhoWritesTheStreamRegisters : Prop :=
  ∀ s t : State, s.run = .idle → (∀ rest, s.schedule ≠ .reset :: rest) → step s = .next t →
    ((t.siBlockBase ≠ s.siBlockBase ∨ t.siBlockSize ≠ s.siBlockSize ∨ t.siSampleRate ≠ s.siSampleRate ∨
        t.siFrameCount ≠ s.siFrameCount ∨ t.siChannelCount ≠ s.siChannelCount) →
      (∀ a rest, s.schedule ≠ .host a :: rest) ∧ s.status.busy = true ∧ t.status.busy = false ∧ s.pending = 1 ∧
        t.status.err = .ok ∧ t.status.parsed = true) ∧
    ((t.nextFrame ≠ s.nextFrame ∨ t.decoded ≠ s.decoded) →
      (∀ a rest, s.schedule ≠ .host a :: rest) ∧ s.status.busy = true ∧ t.status.busy = false ∧
        (s.pending = 1 ∨ s.pending = 2 ∨ s.pending = 4) ∧ t.status.err = .ok)

/-- 10_state.md R23: who writes CH: PARSE that succeeds, RESET_STATE, DECODE, DECODE_BLOCK, a host write of CH_STATE
while BUSY = 0, or a reset; no other step does. That a step is a command's: no host turn is first, BUSY falls
(70_reset_and_hazards.md R249). -/
def Obligations.WhoWritesTheChannelStates : Prop :=
  ∀ s t : State, s.run = .idle → step s = .next t → t.ch ≠ s.ch →
    ((∀ a rest, s.schedule ≠ .host a :: rest) ∧ s.status.busy = true ∧ t.status.busy = false ∧
      (s.pending = 1 ∨ s.pending = 2 ∨ s.pending = 3 ∨ s.pending = 4) ∧ (s.pending = 1 → t.status.err = .ok)) ∨
    (s.status.busy = false ∧ ∃ v rest, s.schedule = .host (.regWrite 12 v) :: rest) ∨
    (∃ rest, s.schedule = .reset :: rest)

/-! ### The end of a run -/

/-- 70_reset_and_hazards.md R255: a run that has ended stays as it is; while a command is pending the host has not read
BUSY = 0 since it started it (each step keeps this, and it holds after power-on); and a WAIT or a read of STATUS with
BUSY = 0 is what makes it so. The list the host keeps is the model's own (logs 19, 28). -/
def Obligations.TheEndOfARun : Prop :=
  (∀ s : State, s.hostHazard = false → s.ended = true → step s = .next s) ∧
  (∀ s t : State, s.run = .idle → (s.status.busy = true → sawDone s.history = false) → step s = .next t →
    (t.status.busy = true → sawDone t.history = false)) ∧
  (∀ p : Params, (State.resetWith p).status.busy = false) ∧
  (∀ (s : State) (rest : List Turn), s.hostHazard = false → s.run = .idle → s.status.busy = false →
    (s.schedule = .wait :: rest ∨ s.schedule = .host (.regRead 1) :: rest) →
    ∃ t, step s = .next t ∧ sawDone t.history = true ∧ t.schedule = rest)

/-- 70_reset_and_hazards.md R255: what is observed at the end of a run takes in every element a command can have
changed. Every step keeps that the window of a pending DECODE or DECODE_BLOCK is observed, and that what was observed
before still is; and whatever element of OUT a command's step changes is observed. The list the host keeps and whose
windows count are the model's (logs 19, 28). -/
def Obligations.TheObservationCoversTheWindows : Prop :=
  (∀ s t : State, s.run = .idle → s.windowKept → step s = .next t →
    t.windowKept ∧ ∀ e ∈ s.windowElems, e ∈ t.windowElems) ∧
  (∀ s t : State, s.run = .idle → s.windowKept → s.status.busy = true → step s = .next t →
    ∀ e, e < s.params.outSize → t.outElem e ≠ s.outElem e → (e, t.outElem e) ∈ t.observe.out)
end

