-- ==== Sys2Proof/Laws/State.lean ====
section
/-! SUPPORT. One lemma per field per named update of the state, so that no later proof unfolds a record update. -/

namespace Sys2Proof.Machine

/-! ### State.storeIn -/

@[simp] theorem State.storeIn_params (a : Nat) (b : Byte) (s : State) : (s.storeIn a b).params = s.params := rfl
@[simp] theorem State.storeIn_status (a : Nat) (b : Byte) (s : State) : (s.storeIn a b).status = s.status := rfl
@[simp] theorem State.storeIn_pending (a : Nat) (b : Byte) (s : State) : (s.storeIn a b).pending = s.pending := rfl
@[simp] theorem State.storeIn_inBase (a : Nat) (b : Byte) (s : State) : (s.storeIn a b).inBase = s.inBase := rfl
@[simp] theorem State.storeIn_inLen (a : Nat) (b : Byte) (s : State) : (s.storeIn a b).inLen = s.inLen := rfl
@[simp] theorem State.storeIn_outBase (a : Nat) (b : Byte) (s : State) : (s.storeIn a b).outBase = s.outBase := rfl
@[simp] theorem State.storeIn_outLen (a : Nat) (b : Byte) (s : State) : (s.storeIn a b).outLen = s.outLen := rfl
@[simp] theorem State.storeIn_frameOffset (a : Nat) (b : Byte) (s : State) : (s.storeIn a b).frameOffset = s.frameOffset := rfl
@[simp] theorem State.storeIn_frameCount (a : Nat) (b : Byte) (s : State) : (s.storeIn a b).frameCount = s.frameCount := rfl
@[simp] theorem State.storeIn_blkAddr (a : Nat) (b : Byte) (s : State) : (s.storeIn a b).blkAddr = s.blkAddr := rfl
@[simp] theorem State.storeIn_blkArgs (a : Nat) (b : Byte) (s : State) : (s.storeIn a b).blkArgs = s.blkArgs := rfl
@[simp] theorem State.storeIn_chSel (a : Nat) (b : Byte) (s : State) : (s.storeIn a b).chSel = s.chSel := rfl
@[simp] theorem State.storeIn_siBlockBase (a : Nat) (b : Byte) (s : State) : (s.storeIn a b).siBlockBase = s.siBlockBase := rfl
@[simp] theorem State.storeIn_siBlockSize (a : Nat) (b : Byte) (s : State) : (s.storeIn a b).siBlockSize = s.siBlockSize := rfl
@[simp] theorem State.storeIn_siSampleRate (a : Nat) (b : Byte) (s : State) : (s.storeIn a b).siSampleRate = s.siSampleRate := rfl
@[simp] theorem State.storeIn_siFrameCount (a : Nat) (b : Byte) (s : State) : (s.storeIn a b).siFrameCount = s.siFrameCount := rfl
@[simp] theorem State.storeIn_siChannelCount (a : Nat) (b : Byte) (s : State) : (s.storeIn a b).siChannelCount = s.siChannelCount := rfl
@[simp] theorem State.storeIn_nextFrame (a : Nat) (b : Byte) (s : State) : (s.storeIn a b).nextFrame = s.nextFrame := rfl
@[simp] theorem State.storeIn_decoded (a : Nat) (b : Byte) (s : State) : (s.storeIn a b).decoded = s.decoded := rfl
@[simp] theorem State.storeIn_ch (a : Nat) (b : Byte) (s : State) : (s.storeIn a b).ch = s.ch := rfl
@[simp] theorem State.storeIn_inMem (a : Nat) (b : Byte) (s : State) : (s.storeIn a b).inMem = Memory.write a b s.inMem := rfl
@[simp] theorem State.storeIn_outMem (a : Nat) (b : Byte) (s : State) : (s.storeIn a b).outMem = s.outMem := rfl
@[simp] theorem State.storeIn_run (a : Nat) (b : Byte) (s : State) : (s.storeIn a b).run = s.run := rfl
@[simp] theorem State.storeIn_hostHazard (a : Nat) (b : Byte) (s : State) : (s.storeIn a b).hostHazard = s.hostHazard := rfl
@[simp] theorem State.storeIn_schedule (a : Nat) (b : Byte) (s : State) : (s.storeIn a b).schedule = s.schedule := rfl
@[simp] theorem State.storeIn_history (a : Nat) (b : Byte) (s : State) : (s.storeIn a b).history = s.history := rfl
@[simp] theorem State.storeIn_draws (a : Nat) (b : Byte) (s : State) : (s.storeIn a b).draws = s.draws := rfl

/-! ### State.storeOut -/

@[simp] theorem State.storeOut_params (e : Nat) (v : Word32) (s : State) : (s.storeOut e v).params = s.params := rfl
@[simp] theorem State.storeOut_status (e : Nat) (v : Word32) (s : State) : (s.storeOut e v).status = s.status := rfl
@[simp] theorem State.storeOut_pending (e : Nat) (v : Word32) (s : State) : (s.storeOut e v).pending = s.pending := rfl
@[simp] theorem State.storeOut_inBase (e : Nat) (v : Word32) (s : State) : (s.storeOut e v).inBase = s.inBase := rfl
@[simp] theorem State.storeOut_inLen (e : Nat) (v : Word32) (s : State) : (s.storeOut e v).inLen = s.inLen := rfl
@[simp] theorem State.storeOut_outBase (e : Nat) (v : Word32) (s : State) : (s.storeOut e v).outBase = s.outBase := rfl
@[simp] theorem State.storeOut_outLen (e : Nat) (v : Word32) (s : State) : (s.storeOut e v).outLen = s.outLen := rfl
@[simp] theorem State.storeOut_frameOffset (e : Nat) (v : Word32) (s : State) : (s.storeOut e v).frameOffset = s.frameOffset := rfl
@[simp] theorem State.storeOut_frameCount (e : Nat) (v : Word32) (s : State) : (s.storeOut e v).frameCount = s.frameCount := rfl
@[simp] theorem State.storeOut_blkAddr (e : Nat) (v : Word32) (s : State) : (s.storeOut e v).blkAddr = s.blkAddr := rfl
@[simp] theorem State.storeOut_blkArgs (e : Nat) (v : Word32) (s : State) : (s.storeOut e v).blkArgs = s.blkArgs := rfl
@[simp] theorem State.storeOut_chSel (e : Nat) (v : Word32) (s : State) : (s.storeOut e v).chSel = s.chSel := rfl
@[simp] theorem State.storeOut_siBlockBase (e : Nat) (v : Word32) (s : State) : (s.storeOut e v).siBlockBase = s.siBlockBase := rfl
@[simp] theorem State.storeOut_siBlockSize (e : Nat) (v : Word32) (s : State) : (s.storeOut e v).siBlockSize = s.siBlockSize := rfl
@[simp] theorem State.storeOut_siSampleRate (e : Nat) (v : Word32) (s : State) : (s.storeOut e v).siSampleRate = s.siSampleRate := rfl
@[simp] theorem State.storeOut_siFrameCount (e : Nat) (v : Word32) (s : State) : (s.storeOut e v).siFrameCount = s.siFrameCount := rfl
@[simp] theorem State.storeOut_siChannelCount (e : Nat) (v : Word32) (s : State) : (s.storeOut e v).siChannelCount = s.siChannelCount := rfl
@[simp] theorem State.storeOut_nextFrame (e : Nat) (v : Word32) (s : State) : (s.storeOut e v).nextFrame = s.nextFrame := rfl
@[simp] theorem State.storeOut_decoded (e : Nat) (v : Word32) (s : State) : (s.storeOut e v).decoded = s.decoded := rfl
@[simp] theorem State.storeOut_ch (e : Nat) (v : Word32) (s : State) : (s.storeOut e v).ch = s.ch := rfl
@[simp] theorem State.storeOut_inMem (e : Nat) (v : Word32) (s : State) : (s.storeOut e v).inMem = s.inMem := rfl
@[simp] theorem State.storeOut_outMem (e : Nat) (v : Word32) (s : State) : (s.storeOut e v).outMem = Memory.write e v s.outMem := rfl
@[simp] theorem State.storeOut_run (e : Nat) (v : Word32) (s : State) : (s.storeOut e v).run = s.run := rfl
@[simp] theorem State.storeOut_hostHazard (e : Nat) (v : Word32) (s : State) : (s.storeOut e v).hostHazard = s.hostHazard := rfl
@[simp] theorem State.storeOut_schedule (e : Nat) (v : Word32) (s : State) : (s.storeOut e v).schedule = s.schedule := rfl
@[simp] theorem State.storeOut_history (e : Nat) (v : Word32) (s : State) : (s.storeOut e v).history = s.history := rfl
@[simp] theorem State.storeOut_draws (e : Nat) (v : Word32) (s : State) : (s.storeOut e v).draws = s.draws := rfl

/-! ### State.setChannel -/

@[simp] theorem State.setChannel_params (c : Nat) (v : ChannelState) (s : State) : (s.setChannel c v).params = s.params := rfl
@[simp] theorem State.setChannel_status (c : Nat) (v : ChannelState) (s : State) : (s.setChannel c v).status = s.status := rfl
@[simp] theorem State.setChannel_pending (c : Nat) (v : ChannelState) (s : State) : (s.setChannel c v).pending = s.pending := rfl
@[simp] theorem State.setChannel_inBase (c : Nat) (v : ChannelState) (s : State) : (s.setChannel c v).inBase = s.inBase := rfl
@[simp] theorem State.setChannel_inLen (c : Nat) (v : ChannelState) (s : State) : (s.setChannel c v).inLen = s.inLen := rfl
@[simp] theorem State.setChannel_outBase (c : Nat) (v : ChannelState) (s : State) : (s.setChannel c v).outBase = s.outBase := rfl
@[simp] theorem State.setChannel_outLen (c : Nat) (v : ChannelState) (s : State) : (s.setChannel c v).outLen = s.outLen := rfl
@[simp] theorem State.setChannel_frameOffset (c : Nat) (v : ChannelState) (s : State) : (s.setChannel c v).frameOffset = s.frameOffset := rfl
@[simp] theorem State.setChannel_frameCount (c : Nat) (v : ChannelState) (s : State) : (s.setChannel c v).frameCount = s.frameCount := rfl
@[simp] theorem State.setChannel_blkAddr (c : Nat) (v : ChannelState) (s : State) : (s.setChannel c v).blkAddr = s.blkAddr := rfl
@[simp] theorem State.setChannel_blkArgs (c : Nat) (v : ChannelState) (s : State) : (s.setChannel c v).blkArgs = s.blkArgs := rfl
@[simp] theorem State.setChannel_chSel (c : Nat) (v : ChannelState) (s : State) : (s.setChannel c v).chSel = s.chSel := rfl
@[simp] theorem State.setChannel_siBlockBase (c : Nat) (v : ChannelState) (s : State) : (s.setChannel c v).siBlockBase = s.siBlockBase := rfl
@[simp] theorem State.setChannel_siBlockSize (c : Nat) (v : ChannelState) (s : State) : (s.setChannel c v).siBlockSize = s.siBlockSize := rfl
@[simp] theorem State.setChannel_siSampleRate (c : Nat) (v : ChannelState) (s : State) : (s.setChannel c v).siSampleRate = s.siSampleRate := rfl
@[simp] theorem State.setChannel_siFrameCount (c : Nat) (v : ChannelState) (s : State) : (s.setChannel c v).siFrameCount = s.siFrameCount := rfl
@[simp] theorem State.setChannel_siChannelCount (c : Nat) (v : ChannelState) (s : State) : (s.setChannel c v).siChannelCount = s.siChannelCount := rfl
@[simp] theorem State.setChannel_nextFrame (c : Nat) (v : ChannelState) (s : State) : (s.setChannel c v).nextFrame = s.nextFrame := rfl
@[simp] theorem State.setChannel_decoded (c : Nat) (v : ChannelState) (s : State) : (s.setChannel c v).decoded = s.decoded := rfl
@[simp] theorem State.setChannel_ch (c : Nat) (v : ChannelState) (s : State) : (s.setChannel c v).ch = s.ch.set c v := rfl
@[simp] theorem State.setChannel_inMem (c : Nat) (v : ChannelState) (s : State) : (s.setChannel c v).inMem = s.inMem := rfl
@[simp] theorem State.setChannel_outMem (c : Nat) (v : ChannelState) (s : State) : (s.setChannel c v).outMem = s.outMem := rfl
@[simp] theorem State.setChannel_run (c : Nat) (v : ChannelState) (s : State) : (s.setChannel c v).run = s.run := rfl
@[simp] theorem State.setChannel_hostHazard (c : Nat) (v : ChannelState) (s : State) : (s.setChannel c v).hostHazard = s.hostHazard := rfl
@[simp] theorem State.setChannel_schedule (c : Nat) (v : ChannelState) (s : State) : (s.setChannel c v).schedule = s.schedule := rfl
@[simp] theorem State.setChannel_history (c : Nat) (v : ChannelState) (s : State) : (s.setChannel c v).history = s.history := rfl
@[simp] theorem State.setChannel_draws (c : Nat) (v : ChannelState) (s : State) : (s.setChannel c v).draws = s.draws := rfl

/-! ### State.zeroChannels -/

@[simp] theorem State.zeroChannels_params (s : State) : s.zeroChannels.params = s.params := rfl
@[simp] theorem State.zeroChannels_status (s : State) : s.zeroChannels.status = s.status := rfl
@[simp] theorem State.zeroChannels_pending (s : State) : s.zeroChannels.pending = s.pending := rfl
@[simp] theorem State.zeroChannels_inBase (s : State) : s.zeroChannels.inBase = s.inBase := rfl
@[simp] theorem State.zeroChannels_inLen (s : State) : s.zeroChannels.inLen = s.inLen := rfl
@[simp] theorem State.zeroChannels_outBase (s : State) : s.zeroChannels.outBase = s.outBase := rfl
@[simp] theorem State.zeroChannels_outLen (s : State) : s.zeroChannels.outLen = s.outLen := rfl
@[simp] theorem State.zeroChannels_frameOffset (s : State) : s.zeroChannels.frameOffset = s.frameOffset := rfl
@[simp] theorem State.zeroChannels_frameCount (s : State) : s.zeroChannels.frameCount = s.frameCount := rfl
@[simp] theorem State.zeroChannels_blkAddr (s : State) : s.zeroChannels.blkAddr = s.blkAddr := rfl
@[simp] theorem State.zeroChannels_blkArgs (s : State) : s.zeroChannels.blkArgs = s.blkArgs := rfl
@[simp] theorem State.zeroChannels_chSel (s : State) : s.zeroChannels.chSel = s.chSel := rfl
@[simp] theorem State.zeroChannels_siBlockBase (s : State) : s.zeroChannels.siBlockBase = s.siBlockBase := rfl
@[simp] theorem State.zeroChannels_siBlockSize (s : State) : s.zeroChannels.siBlockSize = s.siBlockSize := rfl
@[simp] theorem State.zeroChannels_siSampleRate (s : State) : s.zeroChannels.siSampleRate = s.siSampleRate := rfl
@[simp] theorem State.zeroChannels_siFrameCount (s : State) : s.zeroChannels.siFrameCount = s.siFrameCount := rfl
@[simp] theorem State.zeroChannels_siChannelCount (s : State) : s.zeroChannels.siChannelCount = s.siChannelCount := rfl
@[simp] theorem State.zeroChannels_nextFrame (s : State) : s.zeroChannels.nextFrame = s.nextFrame := rfl
@[simp] theorem State.zeroChannels_decoded (s : State) : s.zeroChannels.decoded = s.decoded := rfl
@[simp] theorem State.zeroChannels_ch (s : State) : s.zeroChannels.ch = List.replicate s.params.maxChannels ChannelState.zero := rfl
@[simp] theorem State.zeroChannels_inMem (s : State) : s.zeroChannels.inMem = s.inMem := rfl
@[simp] theorem State.zeroChannels_outMem (s : State) : s.zeroChannels.outMem = s.outMem := rfl
@[simp] theorem State.zeroChannels_run (s : State) : s.zeroChannels.run = s.run := rfl
@[simp] theorem State.zeroChannels_hostHazard (s : State) : s.zeroChannels.hostHazard = s.hostHazard := rfl
@[simp] theorem State.zeroChannels_schedule (s : State) : s.zeroChannels.schedule = s.schedule := rfl
@[simp] theorem State.zeroChannels_history (s : State) : s.zeroChannels.history = s.history := rfl
@[simp] theorem State.zeroChannels_draws (s : State) : s.zeroChannels.draws = s.draws := rfl

/-! ### State.withRun -/

@[simp] theorem State.withRun_params (r : Run) (s : State) : (s.withRun r).params = s.params := rfl
@[simp] theorem State.withRun_status (r : Run) (s : State) : (s.withRun r).status = s.status := rfl
@[simp] theorem State.withRun_pending (r : Run) (s : State) : (s.withRun r).pending = s.pending := rfl
@[simp] theorem State.withRun_inBase (r : Run) (s : State) : (s.withRun r).inBase = s.inBase := rfl
@[simp] theorem State.withRun_inLen (r : Run) (s : State) : (s.withRun r).inLen = s.inLen := rfl
@[simp] theorem State.withRun_outBase (r : Run) (s : State) : (s.withRun r).outBase = s.outBase := rfl
@[simp] theorem State.withRun_outLen (r : Run) (s : State) : (s.withRun r).outLen = s.outLen := rfl
@[simp] theorem State.withRun_frameOffset (r : Run) (s : State) : (s.withRun r).frameOffset = s.frameOffset := rfl
@[simp] theorem State.withRun_frameCount (r : Run) (s : State) : (s.withRun r).frameCount = s.frameCount := rfl
@[simp] theorem State.withRun_blkAddr (r : Run) (s : State) : (s.withRun r).blkAddr = s.blkAddr := rfl
@[simp] theorem State.withRun_blkArgs (r : Run) (s : State) : (s.withRun r).blkArgs = s.blkArgs := rfl
@[simp] theorem State.withRun_chSel (r : Run) (s : State) : (s.withRun r).chSel = s.chSel := rfl
@[simp] theorem State.withRun_siBlockBase (r : Run) (s : State) : (s.withRun r).siBlockBase = s.siBlockBase := rfl
@[simp] theorem State.withRun_siBlockSize (r : Run) (s : State) : (s.withRun r).siBlockSize = s.siBlockSize := rfl
@[simp] theorem State.withRun_siSampleRate (r : Run) (s : State) : (s.withRun r).siSampleRate = s.siSampleRate := rfl
@[simp] theorem State.withRun_siFrameCount (r : Run) (s : State) : (s.withRun r).siFrameCount = s.siFrameCount := rfl
@[simp] theorem State.withRun_siChannelCount (r : Run) (s : State) : (s.withRun r).siChannelCount = s.siChannelCount := rfl
@[simp] theorem State.withRun_nextFrame (r : Run) (s : State) : (s.withRun r).nextFrame = s.nextFrame := rfl
@[simp] theorem State.withRun_decoded (r : Run) (s : State) : (s.withRun r).decoded = s.decoded := rfl
@[simp] theorem State.withRun_ch (r : Run) (s : State) : (s.withRun r).ch = s.ch := rfl
@[simp] theorem State.withRun_inMem (r : Run) (s : State) : (s.withRun r).inMem = s.inMem := rfl
@[simp] theorem State.withRun_outMem (r : Run) (s : State) : (s.withRun r).outMem = s.outMem := rfl
@[simp] theorem State.withRun_run (r : Run) (s : State) : (s.withRun r).run = r := rfl
@[simp] theorem State.withRun_hostHazard (r : Run) (s : State) : (s.withRun r).hostHazard = s.hostHazard := rfl
@[simp] theorem State.withRun_schedule (r : Run) (s : State) : (s.withRun r).schedule = s.schedule := rfl
@[simp] theorem State.withRun_history (r : Run) (s : State) : (s.withRun r).history = s.history := rfl
@[simp] theorem State.withRun_draws (r : Run) (s : State) : (s.withRun r).draws = s.draws := rfl

/-! ### State.raise -/

@[simp] theorem State.raise_params (e : ErrCode) (s : State) : (s.raise e).params = s.params := rfl
@[simp] theorem State.raise_status (e : ErrCode) (s : State) : (s.raise e).status = s.status.raised e := rfl
@[simp] theorem State.raise_pending (e : ErrCode) (s : State) : (s.raise e).pending = s.pending := rfl
@[simp] theorem State.raise_inBase (e : ErrCode) (s : State) : (s.raise e).inBase = s.inBase := rfl
@[simp] theorem State.raise_inLen (e : ErrCode) (s : State) : (s.raise e).inLen = s.inLen := rfl
@[simp] theorem State.raise_outBase (e : ErrCode) (s : State) : (s.raise e).outBase = s.outBase := rfl
@[simp] theorem State.raise_outLen (e : ErrCode) (s : State) : (s.raise e).outLen = s.outLen := rfl
@[simp] theorem State.raise_frameOffset (e : ErrCode) (s : State) : (s.raise e).frameOffset = s.frameOffset := rfl
@[simp] theorem State.raise_frameCount (e : ErrCode) (s : State) : (s.raise e).frameCount = s.frameCount := rfl
@[simp] theorem State.raise_blkAddr (e : ErrCode) (s : State) : (s.raise e).blkAddr = s.blkAddr := rfl
@[simp] theorem State.raise_blkArgs (e : ErrCode) (s : State) : (s.raise e).blkArgs = s.blkArgs := rfl
@[simp] theorem State.raise_chSel (e : ErrCode) (s : State) : (s.raise e).chSel = s.chSel := rfl
@[simp] theorem State.raise_siBlockBase (e : ErrCode) (s : State) : (s.raise e).siBlockBase = s.siBlockBase := rfl
@[simp] theorem State.raise_siBlockSize (e : ErrCode) (s : State) : (s.raise e).siBlockSize = s.siBlockSize := rfl
@[simp] theorem State.raise_siSampleRate (e : ErrCode) (s : State) : (s.raise e).siSampleRate = s.siSampleRate := rfl
@[simp] theorem State.raise_siFrameCount (e : ErrCode) (s : State) : (s.raise e).siFrameCount = s.siFrameCount := rfl
@[simp] theorem State.raise_siChannelCount (e : ErrCode) (s : State) : (s.raise e).siChannelCount = s.siChannelCount := rfl
@[simp] theorem State.raise_nextFrame (e : ErrCode) (s : State) : (s.raise e).nextFrame = s.nextFrame := rfl
@[simp] theorem State.raise_decoded (e : ErrCode) (s : State) : (s.raise e).decoded = s.decoded := rfl
@[simp] theorem State.raise_ch (e : ErrCode) (s : State) : (s.raise e).ch = s.ch := rfl
@[simp] theorem State.raise_inMem (e : ErrCode) (s : State) : (s.raise e).inMem = s.inMem := rfl
@[simp] theorem State.raise_outMem (e : ErrCode) (s : State) : (s.raise e).outMem = s.outMem := rfl
@[simp] theorem State.raise_run (e : ErrCode) (s : State) : (s.raise e).run = .idle := rfl
@[simp] theorem State.raise_hostHazard (e : ErrCode) (s : State) : (s.raise e).hostHazard = s.hostHazard := rfl
@[simp] theorem State.raise_schedule (e : ErrCode) (s : State) : (s.raise e).schedule = s.schedule := rfl
@[simp] theorem State.raise_history (e : ErrCode) (s : State) : (s.raise e).history = s.history := rfl
@[simp] theorem State.raise_draws (e : ErrCode) (s : State) : (s.raise e).draws = s.draws := rfl

/-! ### State.raiseParse -/

@[simp] theorem State.raiseParse_params (e : ErrCode) (s : State) : (s.raiseParse e).params = s.params := rfl
@[simp] theorem State.raiseParse_status (e : ErrCode) (s : State) : (s.raiseParse e).status = (s.status.raised e).parseFailed := rfl
@[simp] theorem State.raiseParse_pending (e : ErrCode) (s : State) : (s.raiseParse e).pending = s.pending := rfl
@[simp] theorem State.raiseParse_inBase (e : ErrCode) (s : State) : (s.raiseParse e).inBase = s.inBase := rfl
@[simp] theorem State.raiseParse_inLen (e : ErrCode) (s : State) : (s.raiseParse e).inLen = s.inLen := rfl
@[simp] theorem State.raiseParse_outBase (e : ErrCode) (s : State) : (s.raiseParse e).outBase = s.outBase := rfl
@[simp] theorem State.raiseParse_outLen (e : ErrCode) (s : State) : (s.raiseParse e).outLen = s.outLen := rfl
@[simp] theorem State.raiseParse_frameOffset (e : ErrCode) (s : State) : (s.raiseParse e).frameOffset = s.frameOffset := rfl
@[simp] theorem State.raiseParse_frameCount (e : ErrCode) (s : State) : (s.raiseParse e).frameCount = s.frameCount := rfl
@[simp] theorem State.raiseParse_blkAddr (e : ErrCode) (s : State) : (s.raiseParse e).blkAddr = s.blkAddr := rfl
@[simp] theorem State.raiseParse_blkArgs (e : ErrCode) (s : State) : (s.raiseParse e).blkArgs = s.blkArgs := rfl
@[simp] theorem State.raiseParse_chSel (e : ErrCode) (s : State) : (s.raiseParse e).chSel = s.chSel := rfl
@[simp] theorem State.raiseParse_siBlockBase (e : ErrCode) (s : State) : (s.raiseParse e).siBlockBase = s.siBlockBase := rfl
@[simp] theorem State.raiseParse_siBlockSize (e : ErrCode) (s : State) : (s.raiseParse e).siBlockSize = s.siBlockSize := rfl
@[simp] theorem State.raiseParse_siSampleRate (e : ErrCode) (s : State) : (s.raiseParse e).siSampleRate = s.siSampleRate := rfl
@[simp] theorem State.raiseParse_siFrameCount (e : ErrCode) (s : State) : (s.raiseParse e).siFrameCount = s.siFrameCount := rfl
@[simp] theorem State.raiseParse_siChannelCount (e : ErrCode) (s : State) : (s.raiseParse e).siChannelCount = s.siChannelCount := rfl
@[simp] theorem State.raiseParse_nextFrame (e : ErrCode) (s : State) : (s.raiseParse e).nextFrame = s.nextFrame := rfl
@[simp] theorem State.raiseParse_decoded (e : ErrCode) (s : State) : (s.raiseParse e).decoded = s.decoded := rfl
@[simp] theorem State.raiseParse_ch (e : ErrCode) (s : State) : (s.raiseParse e).ch = s.ch := rfl
@[simp] theorem State.raiseParse_inMem (e : ErrCode) (s : State) : (s.raiseParse e).inMem = s.inMem := rfl
@[simp] theorem State.raiseParse_outMem (e : ErrCode) (s : State) : (s.raiseParse e).outMem = s.outMem := rfl
@[simp] theorem State.raiseParse_run (e : ErrCode) (s : State) : (s.raiseParse e).run = .idle := rfl
@[simp] theorem State.raiseParse_hostHazard (e : ErrCode) (s : State) : (s.raiseParse e).hostHazard = s.hostHazard := rfl
@[simp] theorem State.raiseParse_schedule (e : ErrCode) (s : State) : (s.raiseParse e).schedule = s.schedule := rfl
@[simp] theorem State.raiseParse_history (e : ErrCode) (s : State) : (s.raiseParse e).history = s.history := rfl
@[simp] theorem State.raiseParse_draws (e : ErrCode) (s : State) : (s.raiseParse e).draws = s.draws := rfl

/-! ### State.complete -/

@[simp] theorem State.complete_params (s : State) : s.complete.params = s.params := rfl
@[simp] theorem State.complete_status (s : State) : s.complete.status = s.status.completed := rfl
@[simp] theorem State.complete_pending (s : State) : s.complete.pending = s.pending := rfl
@[simp] theorem State.complete_inBase (s : State) : s.complete.inBase = s.inBase := rfl
@[simp] theorem State.complete_inLen (s : State) : s.complete.inLen = s.inLen := rfl
@[simp] theorem State.complete_outBase (s : State) : s.complete.outBase = s.outBase := rfl
@[simp] theorem State.complete_outLen (s : State) : s.complete.outLen = s.outLen := rfl
@[simp] theorem State.complete_frameOffset (s : State) : s.complete.frameOffset = s.frameOffset := rfl
@[simp] theorem State.complete_frameCount (s : State) : s.complete.frameCount = s.frameCount := rfl
@[simp] theorem State.complete_blkAddr (s : State) : s.complete.blkAddr = s.blkAddr := rfl
@[simp] theorem State.complete_blkArgs (s : State) : s.complete.blkArgs = s.blkArgs := rfl
@[simp] theorem State.complete_chSel (s : State) : s.complete.chSel = s.chSel := rfl
@[simp] theorem State.complete_siBlockBase (s : State) : s.complete.siBlockBase = s.siBlockBase := rfl
@[simp] theorem State.complete_siBlockSize (s : State) : s.complete.siBlockSize = s.siBlockSize := rfl
@[simp] theorem State.complete_siSampleRate (s : State) : s.complete.siSampleRate = s.siSampleRate := rfl
@[simp] theorem State.complete_siFrameCount (s : State) : s.complete.siFrameCount = s.siFrameCount := rfl
@[simp] theorem State.complete_siChannelCount (s : State) : s.complete.siChannelCount = s.siChannelCount := rfl
@[simp] theorem State.complete_nextFrame (s : State) : s.complete.nextFrame = s.nextFrame := rfl
@[simp] theorem State.complete_decoded (s : State) : s.complete.decoded = s.decoded := rfl
@[simp] theorem State.complete_ch (s : State) : s.complete.ch = s.ch := rfl
@[simp] theorem State.complete_inMem (s : State) : s.complete.inMem = s.inMem := rfl
@[simp] theorem State.complete_outMem (s : State) : s.complete.outMem = s.outMem := rfl
@[simp] theorem State.complete_run (s : State) : s.complete.run = .idle := rfl
@[simp] theorem State.complete_hostHazard (s : State) : s.complete.hostHazard = s.hostHazard := rfl
@[simp] theorem State.complete_schedule (s : State) : s.complete.schedule = s.schedule := rfl
@[simp] theorem State.complete_history (s : State) : s.complete.history = s.history := rfl
@[simp] theorem State.complete_draws (s : State) : s.complete.draws = s.draws := rfl

/-! ### State.note -/

@[simp] theorem State.note_params (r : HostEvent) (s : State) : (s.note r).params = s.params := rfl
@[simp] theorem State.note_status (r : HostEvent) (s : State) : (s.note r).status = s.status := rfl
@[simp] theorem State.note_pending (r : HostEvent) (s : State) : (s.note r).pending = s.pending := rfl
@[simp] theorem State.note_inBase (r : HostEvent) (s : State) : (s.note r).inBase = s.inBase := rfl
@[simp] theorem State.note_inLen (r : HostEvent) (s : State) : (s.note r).inLen = s.inLen := rfl
@[simp] theorem State.note_outBase (r : HostEvent) (s : State) : (s.note r).outBase = s.outBase := rfl
@[simp] theorem State.note_outLen (r : HostEvent) (s : State) : (s.note r).outLen = s.outLen := rfl
@[simp] theorem State.note_frameOffset (r : HostEvent) (s : State) : (s.note r).frameOffset = s.frameOffset := rfl
@[simp] theorem State.note_frameCount (r : HostEvent) (s : State) : (s.note r).frameCount = s.frameCount := rfl
@[simp] theorem State.note_blkAddr (r : HostEvent) (s : State) : (s.note r).blkAddr = s.blkAddr := rfl
@[simp] theorem State.note_blkArgs (r : HostEvent) (s : State) : (s.note r).blkArgs = s.blkArgs := rfl
@[simp] theorem State.note_chSel (r : HostEvent) (s : State) : (s.note r).chSel = s.chSel := rfl
@[simp] theorem State.note_siBlockBase (r : HostEvent) (s : State) : (s.note r).siBlockBase = s.siBlockBase := rfl
@[simp] theorem State.note_siBlockSize (r : HostEvent) (s : State) : (s.note r).siBlockSize = s.siBlockSize := rfl
@[simp] theorem State.note_siSampleRate (r : HostEvent) (s : State) : (s.note r).siSampleRate = s.siSampleRate := rfl
@[simp] theorem State.note_siFrameCount (r : HostEvent) (s : State) : (s.note r).siFrameCount = s.siFrameCount := rfl
@[simp] theorem State.note_siChannelCount (r : HostEvent) (s : State) : (s.note r).siChannelCount = s.siChannelCount := rfl
@[simp] theorem State.note_nextFrame (r : HostEvent) (s : State) : (s.note r).nextFrame = s.nextFrame := rfl
@[simp] theorem State.note_decoded (r : HostEvent) (s : State) : (s.note r).decoded = s.decoded := rfl
@[simp] theorem State.note_ch (r : HostEvent) (s : State) : (s.note r).ch = s.ch := rfl
@[simp] theorem State.note_inMem (r : HostEvent) (s : State) : (s.note r).inMem = s.inMem := rfl
@[simp] theorem State.note_outMem (r : HostEvent) (s : State) : (s.note r).outMem = s.outMem := rfl
@[simp] theorem State.note_run (r : HostEvent) (s : State) : (s.note r).run = s.run := rfl
@[simp] theorem State.note_hostHazard (r : HostEvent) (s : State) : (s.note r).hostHazard = s.hostHazard := rfl
@[simp] theorem State.note_schedule (r : HostEvent) (s : State) : (s.note r).schedule = s.schedule := rfl
@[simp] theorem State.note_history (r : HostEvent) (s : State) : (s.note r).history = r :: s.history := rfl
@[simp] theorem State.note_draws (r : HostEvent) (s : State) : (s.note r).draws = s.draws := rfl

/-! ### recordHazard -/

@[simp] theorem recordHazard_params (s : State) : (recordHazard s).params = s.params := rfl
@[simp] theorem recordHazard_status (s : State) : (recordHazard s).status = s.status := rfl
@[simp] theorem recordHazard_pending (s : State) : (recordHazard s).pending = s.pending := rfl
@[simp] theorem recordHazard_inBase (s : State) : (recordHazard s).inBase = s.inBase := rfl
@[simp] theorem recordHazard_inLen (s : State) : (recordHazard s).inLen = s.inLen := rfl
@[simp] theorem recordHazard_outBase (s : State) : (recordHazard s).outBase = s.outBase := rfl
@[simp] theorem recordHazard_outLen (s : State) : (recordHazard s).outLen = s.outLen := rfl
@[simp] theorem recordHazard_frameOffset (s : State) : (recordHazard s).frameOffset = s.frameOffset := rfl
@[simp] theorem recordHazard_frameCount (s : State) : (recordHazard s).frameCount = s.frameCount := rfl
@[simp] theorem recordHazard_blkAddr (s : State) : (recordHazard s).blkAddr = s.blkAddr := rfl
@[simp] theorem recordHazard_blkArgs (s : State) : (recordHazard s).blkArgs = s.blkArgs := rfl
@[simp] theorem recordHazard_chSel (s : State) : (recordHazard s).chSel = s.chSel := rfl
@[simp] theorem recordHazard_siBlockBase (s : State) : (recordHazard s).siBlockBase = s.siBlockBase := rfl
@[simp] theorem recordHazard_siBlockSize (s : State) : (recordHazard s).siBlockSize = s.siBlockSize := rfl
@[simp] theorem recordHazard_siSampleRate (s : State) : (recordHazard s).siSampleRate = s.siSampleRate := rfl
@[simp] theorem recordHazard_siFrameCount (s : State) : (recordHazard s).siFrameCount = s.siFrameCount := rfl
@[simp] theorem recordHazard_siChannelCount (s : State) : (recordHazard s).siChannelCount = s.siChannelCount := rfl
@[simp] theorem recordHazard_nextFrame (s : State) : (recordHazard s).nextFrame = s.nextFrame := rfl
@[simp] theorem recordHazard_decoded (s : State) : (recordHazard s).decoded = s.decoded := rfl
@[simp] theorem recordHazard_ch (s : State) : (recordHazard s).ch = s.ch := rfl
@[simp] theorem recordHazard_inMem (s : State) : (recordHazard s).inMem = s.inMem := rfl
@[simp] theorem recordHazard_outMem (s : State) : (recordHazard s).outMem = s.outMem := rfl
@[simp] theorem recordHazard_run (s : State) : (recordHazard s).run = s.run := rfl
@[simp] theorem recordHazard_hostHazard (s : State) : (recordHazard s).hostHazard = true := rfl
@[simp] theorem recordHazard_schedule (s : State) : (recordHazard s).schedule = s.schedule := rfl
@[simp] theorem recordHazard_history (s : State) : (recordHazard s).history = s.history := rfl
@[simp] theorem recordHazard_draws (s : State) : (recordHazard s).draws = s.draws := rfl

/-! ### dropTurn -/

@[simp] theorem dropTurn_params (s : State) : (dropTurn s).params = s.params := rfl
@[simp] theorem dropTurn_status (s : State) : (dropTurn s).status = s.status := rfl
@[simp] theorem dropTurn_pending (s : State) : (dropTurn s).pending = s.pending := rfl
@[simp] theorem dropTurn_inBase (s : State) : (dropTurn s).inBase = s.inBase := rfl
@[simp] theorem dropTurn_inLen (s : State) : (dropTurn s).inLen = s.inLen := rfl
@[simp] theorem dropTurn_outBase (s : State) : (dropTurn s).outBase = s.outBase := rfl
@[simp] theorem dropTurn_outLen (s : State) : (dropTurn s).outLen = s.outLen := rfl
@[simp] theorem dropTurn_frameOffset (s : State) : (dropTurn s).frameOffset = s.frameOffset := rfl
@[simp] theorem dropTurn_frameCount (s : State) : (dropTurn s).frameCount = s.frameCount := rfl
@[simp] theorem dropTurn_blkAddr (s : State) : (dropTurn s).blkAddr = s.blkAddr := rfl
@[simp] theorem dropTurn_blkArgs (s : State) : (dropTurn s).blkArgs = s.blkArgs := rfl
@[simp] theorem dropTurn_chSel (s : State) : (dropTurn s).chSel = s.chSel := rfl
@[simp] theorem dropTurn_siBlockBase (s : State) : (dropTurn s).siBlockBase = s.siBlockBase := rfl
@[simp] theorem dropTurn_siBlockSize (s : State) : (dropTurn s).siBlockSize = s.siBlockSize := rfl
@[simp] theorem dropTurn_siSampleRate (s : State) : (dropTurn s).siSampleRate = s.siSampleRate := rfl
@[simp] theorem dropTurn_siFrameCount (s : State) : (dropTurn s).siFrameCount = s.siFrameCount := rfl
@[simp] theorem dropTurn_siChannelCount (s : State) : (dropTurn s).siChannelCount = s.siChannelCount := rfl
@[simp] theorem dropTurn_nextFrame (s : State) : (dropTurn s).nextFrame = s.nextFrame := rfl
@[simp] theorem dropTurn_decoded (s : State) : (dropTurn s).decoded = s.decoded := rfl
@[simp] theorem dropTurn_ch (s : State) : (dropTurn s).ch = s.ch := rfl
@[simp] theorem dropTurn_inMem (s : State) : (dropTurn s).inMem = s.inMem := rfl
@[simp] theorem dropTurn_outMem (s : State) : (dropTurn s).outMem = s.outMem := rfl
@[simp] theorem dropTurn_run (s : State) : (dropTurn s).run = s.run := rfl
@[simp] theorem dropTurn_hostHazard (s : State) : (dropTurn s).hostHazard = s.hostHazard := rfl
@[simp] theorem dropTurn_schedule (s : State) : (dropTurn s).schedule = s.schedule.tail := rfl
@[simp] theorem dropTurn_history (s : State) : (dropTurn s).history = s.history := rfl
@[simp] theorem dropTurn_draws (s : State) : (dropTurn s).draws = s.draws := rfl

/-! ### startCommand -/

@[simp] theorem startCommand_params (w : Word64) (s : State) : (startCommand w s).params = s.params := rfl
@[simp] theorem startCommand_status (w : Word64) (s : State) : (startCommand w s).status = s.status.started := rfl
@[simp] theorem startCommand_pending (w : Word64) (s : State) : (startCommand w s).pending = w := rfl
@[simp] theorem startCommand_inBase (w : Word64) (s : State) : (startCommand w s).inBase = s.inBase := rfl
@[simp] theorem startCommand_inLen (w : Word64) (s : State) : (startCommand w s).inLen = s.inLen := rfl
@[simp] theorem startCommand_outBase (w : Word64) (s : State) : (startCommand w s).outBase = s.outBase := rfl
@[simp] theorem startCommand_outLen (w : Word64) (s : State) : (startCommand w s).outLen = s.outLen := rfl
@[simp] theorem startCommand_frameOffset (w : Word64) (s : State) : (startCommand w s).frameOffset = s.frameOffset := rfl
@[simp] theorem startCommand_frameCount (w : Word64) (s : State) : (startCommand w s).frameCount = s.frameCount := rfl
@[simp] theorem startCommand_blkAddr (w : Word64) (s : State) : (startCommand w s).blkAddr = s.blkAddr := rfl
@[simp] theorem startCommand_blkArgs (w : Word64) (s : State) : (startCommand w s).blkArgs = s.blkArgs := rfl
@[simp] theorem startCommand_chSel (w : Word64) (s : State) : (startCommand w s).chSel = s.chSel := rfl
@[simp] theorem startCommand_siBlockBase (w : Word64) (s : State) : (startCommand w s).siBlockBase = s.siBlockBase := rfl
@[simp] theorem startCommand_siBlockSize (w : Word64) (s : State) : (startCommand w s).siBlockSize = s.siBlockSize := rfl
@[simp] theorem startCommand_siSampleRate (w : Word64) (s : State) : (startCommand w s).siSampleRate = s.siSampleRate := rfl
@[simp] theorem startCommand_siFrameCount (w : Word64) (s : State) : (startCommand w s).siFrameCount = s.siFrameCount := rfl
@[simp] theorem startCommand_siChannelCount (w : Word64) (s : State) : (startCommand w s).siChannelCount = s.siChannelCount := rfl
@[simp] theorem startCommand_nextFrame (w : Word64) (s : State) : (startCommand w s).nextFrame = s.nextFrame := rfl
@[simp] theorem startCommand_decoded (w : Word64) (s : State) : (startCommand w s).decoded = s.decoded := rfl
@[simp] theorem startCommand_ch (w : Word64) (s : State) : (startCommand w s).ch = s.ch := rfl
@[simp] theorem startCommand_inMem (w : Word64) (s : State) : (startCommand w s).inMem = s.inMem := rfl
@[simp] theorem startCommand_outMem (w : Word64) (s : State) : (startCommand w s).outMem = s.outMem := rfl
@[simp] theorem startCommand_run (w : Word64) (s : State) : (startCommand w s).run = s.run := rfl
@[simp] theorem startCommand_hostHazard (w : Word64) (s : State) : (startCommand w s).hostHazard = s.hostHazard := rfl
@[simp] theorem startCommand_schedule (w : Word64) (s : State) : (startCommand w s).schedule = s.schedule := rfl
@[simp] theorem startCommand_history (w : Word64) (s : State) : (startCommand w s).history = .command w s.outBase s.outLen :: s.history := rfl
@[simp] theorem startCommand_draws (w : Word64) (s : State) : (startCommand w s).draws = s.draws := rfl

/-! ### STATUS -/

@[simp] theorem Status.completed_err (st : Status) : st.completed.err = .ok := rfl
@[simp] theorem Status.completed_busy (st : Status) : st.completed.busy = false := rfl
@[simp] theorem Status.completed_parsed (st : Status) : st.completed.parsed = st.parsed := rfl
@[simp] theorem Status.completed_errSeen (st : Status) : st.completed.errSeen = st.errSeen := rfl
@[simp] theorem Status.completed_overrun (st : Status) : st.completed.overrun = st.overrun := rfl
@[simp] theorem Status.raised_err (e : ErrCode) (st : Status) : (st.raised e).err = e := rfl
@[simp] theorem Status.raised_busy (e : ErrCode) (st : Status) : (st.raised e).busy = false := rfl
@[simp] theorem Status.raised_parsed (e : ErrCode) (st : Status) : (st.raised e).parsed = st.parsed := rfl
@[simp] theorem Status.raised_errSeen (e : ErrCode) (st : Status) : (st.raised e).errSeen = true := rfl
@[simp] theorem Status.raised_overrun (e : ErrCode) (st : Status) : (st.raised e).overrun = st.overrun := rfl
@[simp] theorem Status.parseFailed_err (st : Status) : st.parseFailed.err = st.err := rfl
@[simp] theorem Status.parseFailed_busy (st : Status) : st.parseFailed.busy = st.busy := rfl
@[simp] theorem Status.parseFailed_parsed (st : Status) : st.parseFailed.parsed = false := rfl
@[simp] theorem Status.parseFailed_errSeen (st : Status) : st.parseFailed.errSeen = st.errSeen := rfl
@[simp] theorem Status.parseFailed_overrun (st : Status) : st.parseFailed.overrun = st.overrun := rfl
@[simp] theorem Status.parseDone_err (st : Status) : st.parseDone.err = st.err := rfl
@[simp] theorem Status.parseDone_busy (st : Status) : st.parseDone.busy = st.busy := rfl
@[simp] theorem Status.parseDone_parsed (st : Status) : st.parseDone.parsed = true := rfl
@[simp] theorem Status.parseDone_errSeen (st : Status) : st.parseDone.errSeen = st.errSeen := rfl
@[simp] theorem Status.parseDone_overrun (st : Status) : st.parseDone.overrun = st.overrun := rfl
@[simp] theorem Status.started_err (st : Status) : st.started.err = st.err := rfl
@[simp] theorem Status.started_busy (st : Status) : st.started.busy = true := rfl
@[simp] theorem Status.started_parsed (st : Status) : st.started.parsed = st.parsed := rfl
@[simp] theorem Status.started_errSeen (st : Status) : st.started.errSeen = st.errSeen := rfl
@[simp] theorem Status.started_overrun (st : Status) : st.started.overrun = st.overrun := rfl
@[simp] theorem Status.overran_err (st : Status) : st.overran.err = st.err := rfl
@[simp] theorem Status.overran_busy (st : Status) : st.overran.busy = st.busy := rfl
@[simp] theorem Status.overran_parsed (st : Status) : st.overran.parsed = st.parsed := rfl
@[simp] theorem Status.overran_errSeen (st : Status) : st.overran.errSeen = st.errSeen := rfl
@[simp] theorem Status.overran_overrun (st : Status) : st.overran.overrun = true := rfl

end Sys2Proof.Machine
end

