-- ==== Sys2Proof/Laws/Memory.lean ====
section
/-! SUPPORT. The laws of the canonical memories: reads after writes, and that every memory operation keeps the canonical
form. -/

namespace Sys2Proof.Machine

section
variable {α : Type}

@[simp] theorem Memory.read?_nil (a : Nat) : Memory.read? ([] : List (Nat × α)) a = none := rfl

theorem Memory.read?_cons (k : Nat) (v : α) (rest : List (Nat × α)) (a : Nat) :
    Memory.read? ((k, v) :: rest) a = if k = a then some v else Memory.read? rest a := rfl

@[simp] theorem Memory.read?_write_same (a : Nat) (v : α) (m : List (Nat × α)) :
    Memory.read? (Memory.write a v m) a = some v := by
  induction m with
  | nil => simp [Memory.write, Memory.read?_cons]
  | cons x rest ih =>
    obtain ⟨k, w⟩ := x
    unfold Memory.write
    split
    · simp [Memory.read?_cons]
    · split
      · simp [Memory.read?_cons]
      · rw [Memory.read?_cons, if_neg (by omega)]
        exact ih

@[simp] theorem Memory.read?_write_other {a b : Nat} (h : b ≠ a) (v : α) (m : List (Nat × α)) :
    Memory.read? (Memory.write a v m) b = Memory.read? m b := by
  induction m with
  | nil => simp [Memory.write, Memory.read?_cons, h.symm]
  | cons x rest ih =>
    obtain ⟨k, w⟩ := x
    unfold Memory.write
    split
    · rw [Memory.read?_cons, if_neg h.symm]
    · split
      · subst a
        rw [Memory.read?_cons, Memory.read?_cons, if_neg h.symm, if_neg h.symm]
      · rw [Memory.read?_cons, Memory.read?_cons, ih]

theorem Memory.mem_write {x : Nat × α} {a : Nat} {v : α} {m : List (Nat × α)}
    (h : x ∈ Memory.write a v m) : x = (a, v) ∨ x ∈ m := by
  induction m with
  | nil => simpa [Memory.write] using h
  | cons y rest ih =>
    obtain ⟨k, w⟩ := y
    unfold Memory.write at h
    split at h
    · simpa using h
    · split at h
      · rcases List.mem_cons.1 h with h | h
        · exact .inl h
        · exact .inr (List.mem_cons_of_mem _ h)
      · rcases List.mem_cons.1 h with h | h
        · exact .inr (h ▸ List.mem_cons_self)
        · exact (ih h).imp_right (List.mem_cons_of_mem _)

/-- Every write keeps the canonical form. -/
theorem Memory.wf_write {a : Nat} {v : α} {m : List (Nat × α)} (h : Memory.wf m) :
    Memory.wf (Memory.write a v m) := by
  induction m with
  | nil => simp [Memory.write, Memory.wf]
  | cons y rest ih =>
    obtain ⟨k, w⟩ := y
    have hk : (∀ x ∈ rest, k < x.1) ∧ Memory.wf rest := by
      simpa [Memory.wf] using h
    unfold Memory.write
    split
    · next hlt =>
      simp only [Memory.wf, List.map_cons, List.pairwise_cons]
      refine ⟨?_, by simpa [Memory.wf] using h⟩
      intro x hx
      rcases List.mem_cons.1 hx with rfl | hx
      · exact hlt
      · obtain ⟨y, hy, rfl⟩ := List.mem_map.1 hx
        exact Nat.lt_trans hlt (hk.1 y hy)
    · split
      · next heq =>
        subst heq
        simpa [Memory.wf] using h
      · have hw := ih hk.2
        simp only [Memory.wf, List.map_cons, List.pairwise_cons]
        refine ⟨?_, hw⟩
        intro x hx
        obtain ⟨y, hy, rfl⟩ := List.mem_map.1 hx
        rcases Memory.mem_write hy with rfl | hy
        · show k < a
          omega
        · exact hk.1 y hy

end

theorem State.inByte_storeIn_same (s : State) (a : Nat) (b : Byte) : (s.storeIn a b).inByte a = b := by
  simp [State.inByte]

theorem State.inByte_storeIn_other (s : State) {a c : Nat} (b : Byte) (h : c ≠ a) :
    (s.storeIn a b).inByte c = s.inByte c := by
  simp [State.inByte, h]

theorem State.outElem_storeOut_same (s : State) (e : Nat) (v : Word32) : (s.storeOut e v).outElem e = v := by
  simp [State.outElem]

theorem State.outElem_storeOut_other (s : State) {e c : Nat} (v : Word32) (h : c ≠ e) :
    (s.storeOut e v).outElem c = s.outElem c := by
  simp [State.outElem, h]

/-- A read of IN depends on the listed bytes alone. -/
theorem State.inBytes_congr {s t : State} (h : t.inMem = s.inMem) (a n : Nat) : t.inBytes a n = s.inBytes a n := by
  induction n generalizing a with
  | zero => rfl
  | succ n ih => simp [State.inBytes, State.inByte, h, ih]

theorem State.memRead_congr {s t : State} (h : t.inMem = s.inMem) (a n : Nat) : t.memRead a n = s.memRead a n := by
  rw [State.memRead, State.memRead, State.inBytes_congr h]

theorem State.rdU16_congr {s t : State} (h : t.inMem = s.inMem) (a : Nat) : t.rdU16 a = s.rdU16 a := by
  rw [State.rdU16, State.rdU16, State.memRead_congr h]

theorem State.codeAt_congr {s t : State} (h : t.inMem = s.inMem) (a k : Nat) : t.codeAt a k = s.codeAt a k := by
  rw [State.codeAt, State.codeAt, State.inByte, State.inByte, h]

end Sys2Proof.Machine
end

