-- ==== Sys2Proof/Laws/Block.lean ====
section
/-! SUPPORT. What the codes of a block do: one lemma for one code, and the closed form of any number of them. -/

namespace Sys2Proof.Machine

/-- The decoder of codes and the dispatcher of codes agree with the one shared operation. -/
theorem runCode_decodeCode (c : Nibble) (s : State) : runCode (decodeCode c) s = applyCode c s := by
  obtain ⟨⟨n, h⟩⟩ := c
  interval_cases n <;> rfl

theorem exec_decodeCode (c : Nibble) (s : State) : exec (decodeCode c) s = applyCode c s := by
  obtain ⟨⟨n, h⟩⟩ := c
  interval_cases n <;> rfl

/-- A code of a running block whose element exists. -/
theorem applyCode_of_block {s : State} {b : BlockRun} (code : Nibble) (hr : s.run = .block b)
    (he : b.elem < s.params.outSize) :
    applyCode code s = .next ((s.storeOut b.elem (sampleBits s.params.outFmt (b.afterCode code).pred)).withRun
      (.block (b.afterCode code))) := by
  simp [applyCode, hr, he]

/-- All a code can do when it answers a next state. -/
theorem applyCode_next {code : Nibble} {s t : State} (h : applyCode code s = .next t) :
    ∃ b, s.run = .block b ∧ b.elem < s.params.outSize ∧
      t = (s.storeOut b.elem (sampleBits s.params.outFmt (b.afterCode code).pred)).withRun
        (.block (b.afterCode code)) := by
  unfold applyCode at h
  split at h
  · next b hb =>
    split at h
    · next he => exact ⟨b, hb, he, by simpa using h.symm⟩
    · cases h
  · cases h
  · cases h

theorem nextCode_of_block {s : State} {b : BlockRun} (hr : s.run = .block b)
    (hi : b.addr + 2 + b.k / 2 < s.params.inSize) :
    nextCode s = applyCode (s.codeAt b.addr b.k) s := by
  simp [nextCode, hr, hi, runCode_decodeCode]

/-- All a code fetch can do when it answers a next state. -/
theorem nextCode_next {s t : State} (h : nextCode s = .next t) :
    ∃ b, s.run = .block b ∧ applyCode (s.codeAt b.addr b.k) s = .next t := by
  unfold nextCode at h
  split at h
  · next b hb =>
    split at h
    · exact ⟨b, hb, by rwa [runCode_decodeCode] at h⟩
    · cases h
  · cases h
  · cases h

@[simp] theorem andThen_next (s : State) (k : State → Result) : andThen (.next s) k = k s := rfl

@[simp] theorem andThen_fault (f : Fault) (k : State → Result) : andThen (.fault f) k = .fault f := rfl

@[simp] theorem andThen_refused (r : Refusal) (k : State → Result) : andThen (.refused r) k = .refused r := rfl

theorem andThen_eq_next {o : Result} {k : State → Result} {t : State} (h : andThen o k = .next t) :
    ∃ s, o = .next s ∧ k s = .next t := by
  cases o with
  | next s => exact ⟨s, rfl, h⟩
  | fault f => cases h
  | refused r => cases h

theorem andThen_assoc (o : Result) (k l : State → Result) :
    andThen (andThen o k) l = andThen o fun s => andThen (k s) l := by
  cases o <;> rfl

/-- The last of `m + 1` codes may be taken off the end. -/
theorem runCodes_succ_right (m : Nat) (s : State) : runCodes (m + 1) s = andThen (runCodes m s) nextCode := by
  induction m generalizing s with
  | zero =>
    simp only [runCodes, andThen_next]
    cases nextCode s <;> rfl
  | succ m ih =>
    rw [runCodes]
    conv_rhs => rw [runCodes, andThen_assoc]
    congr 1
    funext t
    exact ih t

/-- The running block after `m` of its codes, read from IN. -/
def blockAfter (s : State) (b : BlockRun) : Nat → BlockRun
  | 0 => b
  | m + 1 => (blockAfter s b m).afterCode (s.codeAt b.addr (b.k + m))

/-- OUT after `m` of a block's codes. -/
def outAfter (s : State) (b : BlockRun) : Nat → List (Nat × Word32)
  | 0 => s.outMem
  | m + 1 => Memory.write (b.outBase + (b.k + m) * b.stride)
      (sampleBits s.params.outFmt (blockAfter s b (m + 1)).pred) (outAfter s b m)

@[simp] theorem blockAfter_k (s : State) (b : BlockRun) (m : Nat) : (blockAfter s b m).k = b.k + m := by
  induction m with
  | zero => rfl
  | succ m ih => simp [blockAfter, BlockRun.afterCode, ih, Nat.add_assoc]

theorem blockAfter_fixed (s : State) (b : BlockRun) (m : Nat) :
    (blockAfter s b m).outBase = b.outBase ∧ (blockAfter s b m).stride = b.stride ∧
    (blockAfter s b m).addr = b.addr ∧ (blockAfter s b m).count = b.count ∧
    (blockAfter s b m).chan = b.chan ∧ (blockAfter s b m).blockNo = b.blockNo := by
  induction m with
  | zero => exact ⟨rfl, rfl, rfl, rfl, rfl, rfl⟩
  | succ m ih => simpa [blockAfter, BlockRun.afterCode] using ih

/-- The closed form of `m` codes of a block whose bytes and elements exist. -/
theorem runCodes_eq {s : State} {b : BlockRun} (hr : s.run = .block b) (m : Nat)
    (hi : ∀ i < m, b.addr + 2 + (b.k + i) / 2 < s.params.inSize)
    (ho : ∀ i < m, b.outBase + (b.k + i) * b.stride < s.params.outSize) :
    runCodes m s = .next { s with run := .block (blockAfter s b m), outMem := outAfter s b m } := by
  induction m with
  | zero => cases s; simp_all [runCodes, blockAfter, outAfter]
  | succ m ih =>
    rw [runCodes_succ_right, ih (fun i h => hi i (by omega)) (fun i h => ho i (by omega)), andThen_next]
    obtain ⟨h1, h2, h3, -, -, -⟩ := blockAfter_fixed s b m
    rw [nextCode_of_block (b := blockAfter s b m) rfl (by simpa [h3] using hi m (by omega)),
      applyCode_of_block (b := blockAfter s b m) _ rfl
        (by simpa [BlockRun.elem, h1, h2] using ho m (by omega))]
    simp [State.withRun, State.storeOut, outAfter, blockAfter, BlockRun.elem, h1, h2, h3, State.codeAt,
      State.inByte]

/-- All that `m` codes can change when they answer a next state: OUT and the hidden state. -/
theorem runCodes_frame {m : Nat} {s t : State} (h : runCodes m s = .next t) :
    t = { s with outMem := t.outMem, run := t.run } := by
  induction m generalizing s with
  | zero => cases h; rfl
  | succ m ih =>
    obtain ⟨u, hu, ht⟩ := andThen_eq_next h
    obtain ⟨b, -, hb⟩ := nextCode_next hu
    obtain ⟨b', -, -, rfl⟩ := applyCode_next hb
    have key := ih ht
    exact key

/-- The clamps keep their ranges (41_block_decoder.md R154, R156). -/
theorem clampPred_range (v : Int) : predInRange (clampPred v) := by
  unfold clampPred clamp predInRange
  split <;> [skip; split] <;> omega

theorem clampIndex_le (v : Int) : clampIndex v ≤ 88 := by
  unfold clampIndex clamp
  split <;> [skip; split] <;> omega

theorem codePred_range (code : Nibble) (step : Nat) (pred : Int) : predInRange (codePred code step pred) := by
  unfold codePred
  split <;> exact clampPred_range _

/-- After any code the running state is in its ranges. -/
theorem BlockRun.legal_afterCode (b : BlockRun) (code : Nibble) : (b.afterCode code).legal :=
  ⟨clampIndex_le _, codePred_range _ _ _, rfl⟩

end Sys2Proof.Machine
end

