-- ==== Sys2Proof/Laws/Encoding.lean ====
section
/-! SUPPORT. The byte order and the table of chunk tags: what the decoder and the encoder rest on. -/

namespace Sys2Proof

theorem ofBytesBE_append (l : List Byte) (b : Byte) : ofBytesBE (l ++ [b]) = ofBytesBE l * 256 + b.toNat := by
  simp [ofBytesBE]

@[simp] theorem toBytesBE_length (n v : Nat) : (toBytesBE n v).length = n := by
  induction n generalizing v with
  | zero => rfl
  | succ n ih => simp [toBytesBE, ih]

/-- The bytes of a number hold the number, as far as they reach (00_scope.md R14). -/
theorem ofBytesBE_toBytesBE (n v : Nat) : ofBytesBE (toBytesBE n v) = v % 256 ^ n := by
  induction n generalizing v with
  | zero => simp [toBytesBE, ofBytesBE, Nat.mod_one]
  | succ n ih =>
    have h : v % 256 ^ (n + 1) = v % 256 + 256 * (v / 256 % 256 ^ n) := by
      rw [show (256 : Nat) ^ (n + 1) = 256 * 256 ^ n from by rw [Nat.pow_succ, Nat.mul_comm], Nat.mod_mul]
    rw [toBytesBE, ofBytesBE_append, ih, h, BitVec.toNat_ofNat]
    omega

/-- A list of bytes is the bytes of its number (00_scope.md R14). -/
theorem toBytesBE_ofBytesBE (l : List Byte) : toBytesBE l.length (ofBytesBE l) = l := by
  induction l using List.reverseRecOn with
  | nil => rfl
  | append_singleton l b ih =>
    have hb : b.toNat < 256 := b.isLt
    have h1 : (ofBytesBE l * 256 + b.toNat) / 256 = ofBytesBE l := by omega
    have h2 : BitVec.ofNat 8 (ofBytesBE l * 256 + b.toNat) = b := by
      apply BitVec.eq_of_toNat_eq
      rw [BitVec.toNat_ofNat]
      omega
    rw [List.length_append, List.length_singleton, toBytesBE, ofBytesBE_append, h1, h2, ih]

theorem ofBytesBE_lt (l : List Byte) : ofBytesBE l < 256 ^ l.length := by
  have h := ofBytesBE_toBytesBE l.length (ofBytesBE l)
  rw [toBytesBE_ofBytesBE] at h
  rw [h]
  exact Nat.mod_lt _ (Nat.pow_pos (by decide))

/-- A chunk header holds the tag and the size it was made from (30_encoding.md R84). -/
theorem decodeChunkHeader_chunkHeaderBytes (tag : Word32) (size : Word64) :
    decodeChunkHeader (chunkHeaderBytes tag size) = .ok (decodeChunk tag size) := by
  have ht : tag.toNat < 256 ^ 4 := tag.isLt
  have hs : size.toNat < 256 ^ 8 := size.isLt
  rw [decodeChunkHeader, chunkHeaderBytes, if_pos (by simp), List.take_left' (toBytesBE_length 4 _),
    List.drop_left' (toBytesBE_length 4 _), ofBytesBE_toBytesBE, ofBytesBE_toBytesBE, Nat.mod_eq_of_lt ht,
    Nat.mod_eq_of_lt hs]
  simp

/-- Twelve bytes are the chunk header of the tag and the size they hold (30_encoding.md R84). -/
theorem chunkHeaderBytes_ofBytes {bytes : List Byte} (h : bytes.length = 12) :
    chunkHeaderBytes (BitVec.ofNat 32 (ofBytesBE (bytes.take 4))) (BitVec.ofNat 64 (ofBytesBE (bytes.drop 4))) =
      bytes := by
  have h4 : (bytes.take 4).length = 4 := by simp [h]
  have h8 : (bytes.drop 4).length = 8 := by simp [h]
  have ht := ofBytesBE_lt (bytes.take 4)
  have hs := ofBytesBE_lt (bytes.drop 4)
  have k4 := toBytesBE_ofBytesBE (bytes.take 4)
  have k8 := toBytesBE_ofBytesBE (bytes.drop 4)
  rw [h4] at ht k4
  rw [h8] at hs k8
  rw [chunkHeaderBytes, BitVec.toNat_ofNat, BitVec.toNat_ofNat, Nat.mod_eq_of_lt (by simpa using ht),
    Nat.mod_eq_of_lt (by simpa using hs), k4, k8, List.take_append_drop]

theorem commandOp_eq (w : Word64) : commandOp w = w.toNat % 16 := by
  simp [commandOp]

theorem commandReserved_eq (w : Word64) : commandReserved w = w.toNat / 16 := by
  have := w.isLt
  simp only [commandReserved, BitVec.extractLsb'_toNat, Nat.shiftRight_eq_div_pow]
  omega

/-- Which word each command has (30_encoding.md R81), and which words are none (R82). -/
theorem decodeCommand_cases (w : Word64) :
    (w = 0 ∧ decodeCommand w = .ok .nop) ∨ (w = 1 ∧ decodeCommand w = .ok .parse) ∨
    (w = 2 ∧ decodeCommand w = .ok .decode) ∨ (w = 3 ∧ decodeCommand w = .ok .decodeBlock) ∨
    (w = 4 ∧ decodeCommand w = .ok .resetState) ∨
    ((5 ≤ w.toNat % 16 ∨ w.toNat / 16 ≠ 0) ∧ ∃ e, decodeCommand w = .error e) := by
  by_cases h : w.toNat / 16 = 0
  · by_cases h5 : w.toNat < 5
    · have hw : w = BitVec.ofNat 64 w.toNat := by simp
      generalize w.toNat = n at *
      subst hw
      interval_cases n <;> simp [decodeCommand, commandReserved, commandOp]
    · refine .inr (.inr (.inr (.inr (.inr ⟨.inl (by omega), .reservedOp, ?_⟩))))
      rw [decodeCommand, commandReserved_eq, commandOp_eq, if_neg (by omega)]
      have hn : w.toNat < 16 := by omega
      generalize w.toNat = n at *
      interval_cases n <;> rfl
  · refine .inr (.inr (.inr (.inr (.inr ⟨.inr h, .reservedBits, ?_⟩))))
    rw [decodeCommand, commandReserved_eq, if_pos h]

/-- What a command word that decodes to an instruction is (30_encoding.md R81). -/
theorem decodeCommand_ok {w : Word64} {i : Instr} (h : decodeCommand w = .ok i) :
    (w = 0 ∧ i = .nop) ∨ (w = 1 ∧ i = .parse) ∨ (w = 2 ∧ i = .decode) ∨ (w = 3 ∧ i = .decodeBlock) ∨
    (w = 4 ∧ i = .resetState) := by
  rcases decodeCommand_cases w with ⟨hw, hd⟩ | ⟨hw, hd⟩ | ⟨hw, hd⟩ | ⟨hw, hd⟩ | ⟨hw, hd⟩ | ⟨-, e, hd⟩ <;>
    rw [hd] at h <;> cases h <;> simp [hw]

/-- The three recognised tags are different (30_encoding.md R89). -/
theorem Tag.recognised_iff (t : Word32) :
    Tag.recognised t = true ↔ t = Tag.desc ∨ t = Tag.pakt ∨ t = Tag.data := by
  simp [Tag.recognised, or_assoc]

end Sys2Proof
end

