-- ==== Sys2Proof/Laws/Parser.lean ====
section
/-! SUPPORT. What one chunk, one step of the walk, and the whole walk can do. -/

namespace Sys2Proof.Machine

/-- How a chunk moves the walk on: past itself but not past the buffer, with a data chunk's array inside the chunk, and
with a frame count that is not negative (40_container_parser.md R119, R123, R124, R126). -/
structure WalkRun.Later (w w' : WalkRun) : Prop where
  bufEnd : w'.bufEnd = w.bufEnd
  after : w.cursor + 12 ≤ w'.cursor
  inside : w'.cursor ≤ w.bufEnd
  data : w'.data = w.data ∨
    ∃ size, w'.data = some { base := w.cursor + 16, size := size } ∧ w.cursor + 16 + size ≤ w.bufEnd
  pakt : w'.pakt = w.pakt ∨ ∃ f : Word64, w'.pakt = some f ∧ 0 ≤ f.toInt

/-- A chunk ends PARSE with an error, or moves the walk on. -/
def ChunkOutcome (s : State) (w : WalkRun) (t : State) : Prop :=
  (∃ e, e ≠ .ok ∧ t = s.raiseParse e) ∨ ∃ w', w.Later w' ∧ t = walkAdvance w' s

/-- A chunk whose buffer lies in IN always answers a next state, whatever its class. -/
theorem applyChunk_outcome {isData : Bool} {size : Word64} {s : State} {w : WalkRun}
    {body : WalkRun → Nat → Nat → Except ErrCode WalkRun} (hr : s.run = .walk w) (hb : w.bufEnd ≤ s.params.inSize)
    (he : ∀ p l e, body w p l = .error e → e ≠ .ok)
    (hok : ∀ l w', w.cursor + 12 + l ≤ w.bufEnd → body w (w.cursor + 12) l = .ok w' →
      w.Later { w' with cursor := w.cursor + 12 + l }) :
    ∃ t, applyChunk isData size s body = .next t ∧ ChunkOutcome s w t := by
  simp only [applyChunk, hr, if_pos hb]
  split
  · exact ⟨_, rfl, .inl ⟨_, by decide, rfl⟩⟩
  · next len _ =>
    split
    · exact ⟨_, rfl, .inl ⟨_, by decide, rfl⟩⟩
    · split
      · next e h => exact ⟨_, rfl, .inl ⟨e, he _ _ _ h, rfl⟩⟩
      · next w' h => exact ⟨_, rfl, .inr ⟨_, hok len w' (by omega) h, rfl⟩⟩

theorem execChunkDesc_outcome (size : Word64) {s : State} {w : WalkRun} (hr : s.run = .walk w)
    (hb : w.bufEnd ≤ s.params.inSize) : ∃ t, execChunkDesc size s = .next t ∧ ChunkOutcome s w t := by
  apply applyChunk_outcome hr hb
  · intro p l e h
    unfold descBody at h
    split at h <;> [skip; split at h] <;> cases h <;> decide
  · intro l w' hl h
    unfold descBody at h
    split at h <;> [skip; split at h] <;> cases h
    exact ⟨rfl, Nat.le_add_right _ _, hl, .inl rfl, .inl rfl⟩

theorem execChunkPakt_outcome (size : Word64) {s : State} {w : WalkRun} (hr : s.run = .walk w)
    (hb : w.bufEnd ≤ s.params.inSize) : ∃ t, execChunkPakt size s = .next t ∧ ChunkOutcome s w t := by
  apply applyChunk_outcome hr hb
  · intro p l e h
    unfold paktBody at h
    split at h <;> [skip; split at h] <;> cases h <;> decide
  · intro l w' hl h
    unfold paktBody at h
    split at h <;> [skip; split at h] <;> cases h
    exact ⟨rfl, Nat.le_add_right _ _, hl, .inl rfl, .inr ⟨_, rfl, by omega⟩⟩

theorem execChunkData_outcome (size : Word64) {s : State} {w : WalkRun} (hr : s.run = .walk w)
    (hb : w.bufEnd ≤ s.params.inSize) : ∃ t, execChunkData size s = .next t ∧ ChunkOutcome s w t := by
  apply applyChunk_outcome hr hb
  · intro p l e h
    unfold dataBody at h
    split at h <;> cases h
    decide
  · intro l w' hl h
    unfold dataBody at h
    split at h <;> cases h
    exact ⟨rfl, Nat.le_add_right _ _, hl, .inr ⟨l - 4, rfl, by omega⟩, .inl rfl⟩

theorem execChunkOther_outcome (tag : Word32) (size : Word64) {s : State} {w : WalkRun} (hr : s.run = .walk w)
    (hb : w.bufEnd ≤ s.params.inSize) : ∃ t, execChunkOther tag size s = .next t ∧ ChunkOutcome s w t := by
  apply applyChunk_outcome hr hb
  · intro p l e h
    cases h
  · intro l w' hl h
    cases h
    exact ⟨rfl, Nat.le_add_right _ _, hl, .inl rfl, .inl rfl⟩

/-- The chunk decoder answers one of the four classes, and each has its meaning. -/
theorem runChunk_decodeChunk (tag : Word32) (size : Word64) (s : State) :
    runChunk (decodeChunk tag size) s = exec (decodeChunk tag size) s := by
  unfold decodeChunk
  split
  · rfl
  · split
    · rfl
    · split <;> rfl

theorem exec_decodeChunk_outcome (tag : Word32) (size : Word64) {s : State} {w : WalkRun} (hr : s.run = .walk w)
    (hb : w.bufEnd ≤ s.params.inSize) : ∃ t, exec (decodeChunk tag size) s = .next t ∧ ChunkOutcome s w t := by
  unfold decodeChunk
  split
  · exact execChunkDesc_outcome size hr hb
  · split
    · exact execChunkPakt_outcome size hr hb
    · split
      · exact execChunkData_outcome size hr hb
      · exact execChunkOther_outcome tag size hr hb

theorem State.inBytes_length (s : State) (a n : Nat) : (s.inBytes a n).length = n := by
  induction n generalizing a with
  | zero => rfl
  | succ n ih => simp [State.inBytes, ih]

theorem State.inBytes_take (s : State) (a m n : Nat) : (s.inBytes a (m + n)).take m = s.inBytes a m := by
  induction m generalizing a with
  | zero => rfl
  | succ m ih =>
    rw [Nat.add_right_comm, State.inBytes, List.take_succ_cons, ih]
    rfl

theorem State.inBytes_drop (s : State) (a m n : Nat) : (s.inBytes a (m + n)).drop m = s.inBytes (a + m) n := by
  induction m generalizing a with
  | zero => simp
  | succ m ih =>
    rw [Nat.add_right_comm, State.inBytes, List.drop_succ_cons, ih]
    congr 1
    omega

/-- The chunk header at an address of IN (30_encoding.md R84). -/
theorem decodeChunkHeader_inBytes (s : State) (a : Nat) :
    decodeChunkHeader (s.inBytes a 12) = .ok (decodeChunk (s.rdU32 a) (s.rdU64 (a + 4))) := by
  have h4 := s.inBytes_take a 4 8
  have h8 := s.inBytes_drop a 4 8
  rw [decodeChunkHeader, if_pos (s.inBytes_length a 12), h4, h8]
  rfl

/-- A step of the walk inside its buffer runs the chunk at the cursor (40_container_parser.md R118). -/
theorem walkStep_of_header {s : State} {w : WalkRun} (hr : s.run = .walk w) (hb : w.bufEnd ≤ s.params.inSize)
    (hc : w.cursor + 12 ≤ w.bufEnd) :
    walkStep s = exec (decodeChunk (s.rdU32 w.cursor) (s.rdU64 (w.cursor + 4))) s := by
  simp only [walkStep, hr, if_pos hb]
  rw [if_neg (by omega), if_neg (by omega), decodeChunkHeader_inBytes]
  exact runChunk_decodeChunk _ _ _

/-- A step of a walk whose buffer lies in IN always answers a next state: PARSE ends with an error, or the walk moves
on. -/
theorem walkStep_outcome {s : State} {w : WalkRun} (hr : s.run = .walk w) (hb : w.bufEnd ≤ s.params.inSize) :
    ∃ t, walkStep s = .next t ∧ ChunkOutcome s w t := by
  by_cases hc : w.cursor + 12 ≤ w.bufEnd
  · rw [walkStep_of_header hr hb hc]
    exact exec_decodeChunk_outcome _ _ hr hb
  · simp only [walkStep, hr, if_pos hb]
    split
    · exact ⟨_, rfl, .inl ⟨_, by decide, rfl⟩⟩
    · rw [if_pos (by omega)]
      exact ⟨_, rfl, .inl ⟨_, by decide, rfl⟩⟩

/-- Moving on either ends PARSE with success or goes on with the walk (40_container_parser.md R127). -/
theorem walkAdvance_cases (w : WalkRun) (s : State) :
    (∃ d f b, w.desc = some d ∧ w.pakt = some f ∧ w.data = some b ∧ walkAdvance w s = s.parseSuccess d f b) ∨
    ((w.desc = none ∨ w.pakt = none ∨ w.data = none) ∧ walkAdvance w s = s.withRun (.walk w)) := by
  rcases w with ⟨c, e, _ | d, _ | f, _ | b⟩ <;>
    first | exact .inl ⟨_, _, _, rfl, rfl, rfl, rfl⟩ | exact .inr ⟨by simp, rfl⟩

/-- Moving on goes on with the walk while a kind is missing (40_container_parser.md R127). -/
theorem walkAdvance_on {w : WalkRun} {s : State} (h : w.desc = none ∨ w.pakt = none ∨ w.data = none) :
    walkAdvance w s = s.withRun (.walk w) := by
  rcases walkAdvance_cases w s with ⟨d, f, b, h1, h2, h3, -⟩ | ⟨-, h⟩
  · simp_all
  · exact h

/-- The length of a chunk whose size is not negative (40_container_parser.md R118). -/
theorem chunkLength_of_nat {size : Word64} {n payload bufEnd : Nat} (isData : Bool) (h : size.toInt = n) :
    chunkLength isData size payload bufEnd = some n := by
  have hn : size.toNat = n := by
    rw [BitVec.toInt_eq_toNat_cond] at h
    split at h <;> omega
  rw [chunkLength, if_neg (by omega), hn]

/-- The length of a data chunk, its size given or -1 (40_container_parser.md R118). -/
theorem chunkLength_data {size : Word64} {len payload bufEnd : Nat}
    (h : size.toInt = len ∨ (size.toInt = -1 ∧ payload + len = bufEnd)) :
    chunkLength true size payload bufEnd = some len := by
  rcases h with h | ⟨h, h1⟩
  · exact chunkLength_of_nat true h
  · rw [chunkLength, if_pos (by omega), if_pos (by simp [h])]
    congr 1
    omega

/-- A chunk that lies in its buffer does what its class does with its payload (40_container_parser.md R119, R126). -/
theorem applyChunk_inside {s : State} {w : WalkRun} {isData : Bool} {size : Word64} {len : Nat}
    {body : WalkRun → Nat → Nat → Except ErrCode WalkRun} (hr : s.run = .walk w) (hb : w.bufEnd ≤ s.params.inSize)
    (hl : chunkLength isData size (w.cursor + 12) w.bufEnd = some len) (hin : w.cursor + 12 + len ≤ w.bufEnd) :
    applyChunk isData size s body =
      match body w (w.cursor + 12) len with
      | .error e => .next (s.raiseParse e)
      | .ok w' => .next (walkAdvance { w' with cursor := w.cursor + 12 + len } s) := by
  simp only [applyChunk, hr, if_pos hb, hl]
  exact if_neg (by omega)

/-- What a walk started at cursor `lo` keeps. -/
structure WalkRun.From (lo : Nat) (w : WalkRun) : Prop where
  cursor : lo ≤ w.cursor
  inside : w.cursor ≤ w.bufEnd
  data : ∀ d, w.data = some d → lo + 16 ≤ d.base ∧ d.base + d.size ≤ w.bufEnd
  pakt : ∀ f, w.pakt = some f → 0 ≤ f.toInt

theorem WalkRun.From.later {lo : Nat} {w w' : WalkRun} (h : w.From lo) (hl : w.Later w') : w'.From lo := by
  obtain ⟨h1, -, h2, h3⟩ := h
  obtain ⟨k1, k2, k3, k4, k5⟩ := hl
  refine ⟨by omega, by omega, ?_, ?_⟩
  · intro d hd
    rcases k4 with k4 | ⟨n, k4, hn⟩
    · rw [k4] at hd
      have := h2 d hd
      omega
    · rw [k4] at hd
      cases hd
      show lo + 16 ≤ w.cursor + 16 ∧ w.cursor + 16 + n ≤ w'.bufEnd
      omega
  · intro f hf
    rcases k5 with k5 | ⟨g, k5, hg⟩
    · exact h3 f (k5 ▸ hf)
    · rw [k5] at hf
      cases hf
      exact hg

/-- A whole walk whose buffer lies in IN, given a step for every 12 bytes left, always ends PARSE: with an error, or
with success on a block array inside the buffer and a frame count that is not negative (40_container_parser.md R130). -/
theorem walkLoop_outcome {lo : Nat} (fuel : Nat) {s : State} {w : WalkRun} (hr : s.run = .walk w)
    (hb : w.bufEnd ≤ s.params.inSize) (hw : w.From lo) (hf : w.bufEnd < w.cursor + 12 * fuel) :
    ∃ t, walkLoop fuel s = .next t ∧
      ((∃ e, e ≠ .ok ∧ t = s.raiseParse e) ∨
        ∃ d f b, lo + 16 ≤ b.base ∧ b.base + b.size ≤ w.bufEnd ∧ 0 ≤ f.toInt ∧ t = s.parseSuccess d f b) := by
  induction fuel generalizing s w with
  | zero =>
    have := hw.inside
    omega
  | succ fuel ih =>
    obtain ⟨t, ht, ho⟩ := walkStep_outcome hr hb
    rw [walkLoop, ht, andThen_next]
    rcases ho with ⟨e, he, rfl⟩ | ⟨w', hl, rfl⟩
    · exact ⟨_, rfl, .inl ⟨e, he, rfl⟩⟩
    · have hw' := hw.later hl
      rcases walkAdvance_cases w' s with ⟨d, f, b, -, h2, h3, h⟩ | ⟨-, h⟩
      · rw [h]
        have := hw'.data b h3
        exact ⟨_, rfl, .inr ⟨d, f, b, this.1, hl.bufEnd ▸ this.2, hw'.pakt f h2, rfl⟩⟩
      · rw [h]
        have h1 := hl.bufEnd
        have h2 := hl.after
        obtain ⟨t, ht, ho⟩ := ih (s := s.withRun (.walk w')) (w := w') rfl (by rw [h1]; exact hb) hw' (by omega)
        refine ⟨t, ht, ?_⟩
        rw [← h1]
        exact ho

theorem startWalk_from {s : State} (h : 8 ≤ s.inLen.toNat) : (startWalk s).From (s.inBase.toNat + 8) := by
  refine ⟨Nat.le_refl _, ?_, by simp [startWalk], by simp [startWalk]⟩
  show s.inBase.toNat + 8 ≤ s.inBase.toNat + s.inLen.toNat
  omega

/-- What the checks before the walk leave when they pass (40_container_parser.md R111 to R114). -/
theorem parseCheck_none {s : State} (h : parseCheck s = none) :
    s.inBase.toNat + s.inLen.toNat ≤ s.params.inSize ∧ 8 ≤ s.inLen.toNat ∧ s.rdU32 s.inBase.toNat = Tag.caff ∧
      s.rdU16 (s.inBase.toNat + 4) = 1#16 := by
  unfold parseCheck State.inOK at h
  split at h <;> [skip; split at h <;> [skip; split at h <;> [skip; split at h]]] <;> cases h
  next h1 h2 h3 h4 =>
    push Not at h1 h2 h3 h4
    exact ⟨h1, h3, h2.2, h4⟩

theorem parseCheck_some {s : State} {e : ErrCode} (h : parseCheck s = some e) : e ≠ .ok := by
  unfold parseCheck at h
  split at h <;> [skip; split at h <;> [skip; split at h <;> [skip; split at h]]] <;> cases h <;> decide

/-- PARSE always ends: with an error, or with success on a block array inside the container and a frame count that is
not negative (40_container_parser.md R130). -/
theorem execParse_outcome (s : State) :
    ∃ t, execParse s = .next t ∧
      ((∃ e, e ≠ .ok ∧ t = s.raiseParse e) ∨
        ∃ d f b, s.inBase.toNat + 24 ≤ b.base ∧ b.base + b.size ≤ s.inBase.toNat + s.inLen.toNat ∧
          s.inBase.toNat + s.inLen.toNat ≤ s.params.inSize ∧ 0 ≤ f.toInt ∧ t = s.parseSuccess d f b) := by
  unfold execParse
  split
  · next e he => exact ⟨_, rfl, .inl ⟨e, parseCheck_some he, rfl⟩⟩
  · next hn =>
    obtain ⟨h1, h2, -, -⟩ := parseCheck_none hn
    have hf : (startWalk s).bufEnd < (startWalk s).cursor + 12 * (s.inLen.toNat / 12 + 1) := by
      show s.inBase.toNat + s.inLen.toNat < s.inBase.toNat + 8 + 12 * (s.inLen.toNat / 12 + 1)
      omega
    obtain ⟨t, ht, ho⟩ := walkLoop_outcome (s := s.withRun (.walk (startWalk s))) (w := startWalk s) _ rfl h1
      (startWalk_from h2) hf
    refine ⟨t, ht, ho.imp_right ?_⟩
    rintro ⟨d, f, b, k1, k2, k3, k4⟩
    exact ⟨d, f, b, by omega, k2, h1, k3, k4⟩

end Sys2Proof.Machine
end

