-- ==== Sys2Proof/Laws/Reference.lean ====
section
/-! SUPPORT. The machine's block decoder and the reference decoder agree, and the closed form of one block and of the
blocks of a DECODE. -/

namespace Sys2Proof.Machine

theorem State.memRead_lt (s : State) (a n : Nat) : s.memRead a n < 256 ^ n := by
  have := ofBytesBE_lt (s.inBytes a n)
  rwa [s.inBytes_length] at this

theorem State.rdU16_toNat (s : State) (a : Nat) : (s.rdU16 a).toNat = s.memRead a 2 := by
  rw [State.rdU16, BitVec.toNat_ofNat]
  exact Nat.mod_eq_of_lt (s.memRead_lt a 2)

theorem State.rdU32_toNat (s : State) (a : Nat) : (s.rdU32 a).toNat = s.memRead a 4 := by
  rw [State.rdU32, BitVec.toNat_ofNat]
  exact Nat.mod_eq_of_lt (s.memRead_lt a 4)

/-- The code fetched is the reference decoder's (41_block_decoder.md R148). -/
theorem State.codeAt_eq_refCode (s : State) (a k : Nat) : s.codeAt a k = BitVec.ofNat 4 (refCode s a k) := by
  apply BitVec.eq_of_toNat_eq
  have := (s.inByte (a + 2 + k / 2)).isLt
  rw [State.codeAt, nibbleOf, refCode]
  split <;> simp [BitVec.extractLsb'_toNat, Nat.shiftRight_eq_div_pow]

theorem refCode_lt (s : State) (a k : Nat) : refCode s a k < 16 := by
  have := (s.inByte (a + 2 + k / 2)).isLt
  unfold refCode
  split <;> omega

theorem preambleIndex_rdU16 (s : State) (a : Nat) : preambleIndex (s.rdU16 a) = refIndex s a := by
  simp [preambleIndex, refIndex, BitVec.extractLsb'_toNat, s.rdU16_toNat]

theorem preambleSeed_rdU16 (s : State) (a : Nat) : preambleSeed (s.rdU16 a) = refSeed s a := by
  have hp : s.memRead a 2 < 65536 := s.memRead_lt a 2
  have hn : ((s.rdU16 a).extractLsb' 7 9 ++ 0#7 : BitVec 16).toNat = s.memRead a 2 / 128 * 128 := by
    rw [BitVec.toNat_append, BitVec.extractLsb'_toNat, s.rdU16_toNat, Nat.shiftRight_eq_div_pow,
      Nat.shiftLeft_eq]
    simp
    omega
  rw [preambleSeed, BitVec.toInt_eq_toNat_cond, hn, refSeed, refIndex]
  split <;> split <;> omega

/-- A block's starting state is the reference decoder's (41_block_decoder.md R152, R153). -/
theorem startBlock_eq_refStart (s : State) (a : BlockArgs) (r : ChannelState) :
    (startBlock a (s.rdU16 a.addr) r).index = (refStart s a.addr r).index ∧
    (startBlock a (s.rdU16 a.addr) r).pred = (refStart s a.addr r).predictor := by
  simp only [startBlock, refStart, startPred, preambleIndex_rdU16, preambleSeed_rdU16]
  refine ⟨trivial, ?_⟩
  congr 1
  rw [eq_iff_iff]
  omega

/-- One code moves the running state as the reference decoder's does (41_block_decoder.md R151, R154, R156). -/
theorem afterCode_eq_refStep (b : BlockRun) {n : Nat} (hn : n < 16) (hs : b.step = stepAt b.index) :
    (b.afterCode (BitVec.ofNat 4 n)).index = (refStep n { index := b.index, predictor := b.pred }).index ∧
    (b.afterCode (BitVec.ofNat 4 n)).pred = (refStep n { index := b.index, predictor := b.pred }).predictor := by
  have hc : ∀ v : Int, clampPred v = max (-32768) (min 32767 v) := by
    intro v
    unfold clampPred clamp
    split <;> [skip; split] <;> omega
  have hi : ∀ v : Int, clampIndex v = (max 0 (min 88 v)).toNat := by
    intro v
    unfold clampIndex clamp
    split <;> [skip; split] <;> omega
  simp only [BlockRun.afterCode, codePred, codeDelta, refStep, refDelta, hc, hi, hs]
  generalize stepAt b.index = st
  interval_cases n <;> simp [indexAdj, indexAdjTable, Nat.shiftRight_eq_div_pow]

/-- The running block after `m` codes is the reference decoder's (41_block_decoder.md R159). -/
theorem blockAfter_eq_refBlock (s : State) (a : BlockArgs) (r : ChannelState) (m : Nat) :
    ({ index := (blockAfter s (startBlock a (s.rdU16 a.addr) r) m).index,
       predictor := (blockAfter s (startBlock a (s.rdU16 a.addr) r) m).pred } : ChannelState) =
      refBlock s a.addr r m ∧
    (blockAfter s (startBlock a (s.rdU16 a.addr) r) m).step =
      stepAt (blockAfter s (startBlock a (s.rdU16 a.addr) r) m).index := by
  induction m with
  | zero =>
    obtain ⟨h1, h2⟩ := startBlock_eq_refStart s a r
    exact ⟨by simp only [blockAfter, h1, h2]; rfl, rfl⟩
  | succ m ih =>
    obtain ⟨h1, h2⟩ := ih
    refine ⟨?_, rfl⟩
    have hk := afterCode_eq_refStep _ (refCode_lt s a.addr m) h2
    rw [h1] at hk
    have ha : (startBlock a (s.rdU16 a.addr) r).addr = a.addr ∧ (startBlock a (s.rdU16 a.addr) r).k = 0 := ⟨rfl, rfl⟩
    simp only [blockAfter, ha.1, ha.2, Nat.zero_add, State.codeAt_eq_refCode, refBlock]
    rw [hk.1, hk.2]

/-- OUT after `m` codes of the block `a` from state `s` (41_block_decoder.md R155). -/
def blockOut (s : State) (a : BlockArgs) : Nat → List (Nat × Word32)
  | 0 => s.outMem
  | m + 1 => Memory.write (a.outBase + m * a.stride)
      (sampleBits s.params.outFmt (refBlock s a.addr (s.channel a.chan) (m + 1)).predictor) (blockOut s a m)

theorem outAfter_eq_blockOut (s : State) (a : BlockArgs) (m : Nat) :
    outAfter s (startBlock a (s.rdU16 a.addr) (s.channel a.chan)) m = blockOut s a m := by
  induction m with
  | zero => rfl
  | succ m ih =>
    have h := (blockAfter_eq_refBlock s a (s.channel a.chan) (m + 1)).1
    rw [outAfter, blockOut, ih, ← h]
    simp [startBlock]

/-- The state after a whole block (41_block_decoder.md R158, R159). -/
def afterBlock (a : BlockArgs) (s : State) : State :=
  { s with
    outMem := blockOut s a a.count
    ch := s.ch.set a.chan (refBlock s a.addr (s.channel a.chan) a.count)
    run := .idle }

/-- A block whose bytes and elements exist and whose index is legal is decoded whole, and the command goes on
(41_block_decoder.md R159). -/
theorem decodeBlockThen_eq {a : BlockArgs} {s : State} (k : State → Result) (hi : s.inOK a.addr 34)
    (hn : a.count ≤ 64) (hx : refIndex s a.addr ≤ 88)
    (ho : ∀ i < a.count, a.outBase + i * a.stride < s.params.outSize) :
    decodeBlockThen a s k = k (afterBlock a s) := by
  rw [decodeBlockThen, if_pos hi, preambleIndex_rdU16, if_neg (by omega)]
  have hin : ∀ i < a.count, a.addr + 2 + i / 2 < s.params.inSize := by
    intro i h
    have := hi
    unfold State.inOK at this
    omega
  let b := startBlock a (s.rdU16 a.addr) (s.channel a.chan)
  have hb : b.addr = a.addr ∧ b.k = 0 ∧ b.outBase = a.outBase ∧ b.stride = a.stride ∧ b.chan = a.chan :=
    ⟨rfl, rfl, rfl, rfl, rfl⟩
  have hrun := runCodes_eq (s := s.withRun (.block b)) (b := b) rfl a.count
    (by simpa [hb.1, hb.2.1] using hin) (by simpa [hb.2.1, hb.2.2.1, hb.2.2.2.1] using ho)
  have hA : ∀ m, blockAfter (s.withRun (.block b)) b m = blockAfter s b m := by
    intro m
    induction m with
    | zero => rfl
    | succ m ih => simp only [blockAfter, ih]; rfl
  have hO : ∀ m, outAfter (s.withRun (.block b)) b m = outAfter s b m := by
    intro m
    induction m with
    | zero => rfl
    | succ m ih => simp only [outAfter, ih, hA]; rfl
  rw [hrun, andThen_next, hA, hO, outAfter_eq_blockOut]
  congr 1
  have hx := (blockAfter_eq_refBlock s a (s.channel a.chan) a.count).1
  obtain ⟨-, -, -, -, hc, -⟩ := blockAfter_fixed s b a.count
  simp only [storeBack, afterBlock, State.setChannel, State.withRun, hc, ← hx]
  rfl

/-- A block whose preamble index is above 88 ends the command (41_block_decoder.md R146). -/
theorem decodeBlockThen_badIndex {a : BlockArgs} {s : State} (k : State → Result) (hi : s.inOK a.addr 34)
    (hx : 88 < refIndex s a.addr) : decodeBlockThen a s k = .next (s.raise .badIndex) := by
  rw [decodeBlockThen, if_pos hi, preambleIndex_rdU16, if_pos hx]

/-- The reference decoder reads IN alone. -/
theorem refBlock_congr {s t : State} (h : t.inMem = s.inMem) (a : Nat) (r : ChannelState) (m : Nat) :
    refBlock t a r m = refBlock s a r m := by
  have hb : ∀ x, t.inByte x = s.inByte x := fun x => by rw [State.inByte, State.inByte, h]
  have hm : ∀ x n, t.memRead x n = s.memRead x n := fun x n => State.memRead_congr h x n
  induction m with
  | zero =>
    simp only [refBlock, refStart, refSeed, refIndex, hm]
    congr
  | succ m ih => simp only [refBlock, ih, refCode, hb]

theorem refIndex_congr {s t : State} (h : t.inMem = s.inMem) (a : Nat) : refIndex t a = refIndex s a := by
  rw [refIndex, refIndex, State.memRead_congr h]

/-- An element no code of the block writes keeps its value. -/
theorem blockOut_other {s : State} {a : BlockArgs} {e : Nat} (m : Nat)
    (h : ∀ i < m, e ≠ a.outBase + i * a.stride) : Memory.read? (blockOut s a m) e = Memory.read? s.outMem e := by
  induction m with
  | zero => rfl
  | succ m ih =>
    rw [blockOut, Memory.read?_write_other (h m (by omega)), ih fun i hi => h i (by omega)]

/-- An element holds the sample of the last code that writes it (20_memory.md R68). -/
theorem blockOut_same {s : State} {a : BlockArgs} {i : Nat} (m : Nat) (hi : i < m)
    (h : ∀ j < m, i < j → a.outBase + j * a.stride ≠ a.outBase + i * a.stride) :
    Memory.read? (blockOut s a m) (a.outBase + i * a.stride) =
      some (sampleBits s.params.outFmt (refBlock s a.addr (s.channel a.chan) (i + 1)).predictor) := by
  induction m with
  | zero => omega
  | succ m ih =>
    rw [blockOut]
    by_cases hm : i = m
    · rw [← hm, Memory.read?_write_same]
    · rw [Memory.read?_write_other (h m (by omega) (by omega)).symm]
      exact ih (by omega) fun j hj => h j (by omega)

end Sys2Proof.Machine
end

