-- ==== Sys2Proof/Laws/Checks.lean ====
section
/-! SUPPORT. The checks of DECODE_BLOCK and DECODE, in terms of the registers. -/

namespace Sys2Proof.Machine

theorem decodeBlockCheck_eq (s : State) :
    decodeBlockCheck s =
      if s.blkArgs.count.toNat = 0 ∨ 64 < s.blkArgs.count.toNat then some .badCount
      else if s.params.maxChannels ≤ s.blkArgs.channel.toNat then some .badChannel
      else if ¬ s.blkAddr.toNat + 34 ≤ s.params.inSize then some .blockRange
      else if ¬ ((s.blkArgs.count.toNat - 1) * s.blkArgs.stride.toNat + 1 ≤ s.outLen.toNat ∧
          s.outBase.toNat + ((s.blkArgs.count.toNat - 1) * s.blkArgs.stride.toNat + 1) ≤ s.params.outSize)
        then some .outRange
      else none := rfl

/-- The checks of DECODE_BLOCK pass exactly when it is ready (41_block_decoder.md R178). -/
theorem decodeBlockCheck_none_iff (s : State) : decodeBlockCheck s = none ↔ DecodeBlockReady s := by
  rw [decodeBlockCheck_eq]
  constructor
  · intro h
    split_ifs at h with h1 h2 h3 h4
    exact ⟨by omega, by omega, by omega, by omega⟩
  · rintro ⟨h1, h2, h3, h4⟩
    rw [if_neg (by omega), if_neg (by omega), if_neg (by omega), if_neg (by omega)]

theorem decodeBlockCheck_some {s : State} {e : ErrCode} (h : decodeBlockCheck s = some e) : e ≠ .ok := by
  rw [decodeBlockCheck_eq] at h
  split_ifs at h <;> cases h <;> decide

theorem decodeCheck_eq (s : State) :
    decodeCheck s =
      if s.status.parsed = false then some .notParsed
      else if s.siChannelCount.toNat = 0 ∨ s.params.maxChannels < s.siChannelCount.toNat then some .badChannels
      else if s.frameOffset.toNat % 64 ≠ 0 then some .unalignedOffset
      else if s.params.streamMode = .stateful ∧ s.frameOffset.toNat ≠ s.nextFrame.toNat then some .seekMismatch
      else if s.siFrameCount.toNat < s.frameOffset.toNat + s.frameCount.toNat then some .frameRange
      else if 0 < s.frameCount.toNat ∧ s.siBlockSize.toNat <
          (s.frameOffset.toNat / 64 + (s.frameCount.toNat + 63) / 64) * s.siChannelCount.toNat * 34 then
        some .blockRange
      else if ¬ (s.frameCount.toNat * s.siChannelCount.toNat ≤ s.outLen.toNat ∧
          s.outBase.toNat + s.frameCount.toNat * s.siChannelCount.toNat ≤ s.params.outSize) then some .outRange
      else none := rfl

/-- The checks of DECODE pass exactly when it is ready (42_stream_decoder.md R191). -/
theorem decodeCheck_none_iff (s : State) : decodeCheck s = none ↔ DecodeReady s := by
  rw [decodeCheck_eq]
  constructor
  · intro h
    split_ifs at h with h1 h2 h3 h4 h5 h6 h7
    refine ⟨by simpa using h1, by omega, by omega, ?_, by omega, ?_, by omega⟩
    · intro hm
      exact BitVec.eq_of_toNat_eq (Classical.not_not.1 fun hn => h4 ⟨hm, hn⟩)
    · intro hn
      exact Nat.not_lt.1 fun hl => h6 ⟨hn, hl⟩
  · rintro ⟨h1, h2, h3, h4, h5, h6, h7⟩
    have h4' : ¬ (s.params.streamMode = .stateful ∧ s.frameOffset.toNat ≠ s.nextFrame.toNat) := by
      rintro ⟨hm, hn⟩
      exact hn (by rw [h4 hm])
    have h6' : ¬ (0 < s.frameCount.toNat ∧ s.siBlockSize.toNat <
        (s.frameOffset.toNat / 64 + (s.frameCount.toNat + 63) / 64) * s.siChannelCount.toNat * 34) := by
      rintro ⟨hn, hl⟩
      have := h6 hn
      omega
    rw [if_neg (by simp [h1]), if_neg (by omega), if_neg (by omega), if_neg h4', if_neg (by omega), if_neg h6',
      if_neg (by omega)]

theorem decodeCheck_some {s : State} {e : ErrCode} (h : decodeCheck s = some e) : e ≠ .ok ∧ e ≠ .badIndex := by
  rw [decodeCheck_eq] at h
  split_ifs at h <;> cases h <;> decide

/-- DECODE_BLOCK's block lies in IN and its elements in OUT when the checks pass (41_block_decoder.md R143). -/
theorem DecodeBlockReady.elem_lt {s : State} (h : DecodeBlockReady s) {i : Nat} (hi : i < s.blkArgs.count.toNat) :
    s.outBase.toNat + i * s.blkArgs.stride.toNat < s.outBase.toNat + s.outLen.toNat ∧
      s.outBase.toNat + i * s.blkArgs.stride.toNat < s.params.outSize := by
  have h1 := h.output
  have h2 : i * s.blkArgs.stride.toNat ≤ (s.blkArgs.count.toNat - 1) * s.blkArgs.stride.toNat :=
    Nat.mul_le_mul_right _ (by omega)
  omega

/-- What DECODE_BLOCK does: a failed check or a preamble index above 88 ends it with an error, else it decodes its block
(41_block_decoder.md R177). -/
theorem execDecodeBlock_cases (s : State) :
    (∃ e, e ≠ .ok ∧ execDecodeBlock s = .next (s.raise e)) ∨
    (DecodeBlockReady s ∧ refIndex s s.blkAddr.toNat ≤ 88 ∧
      execDecodeBlock s = .next (afterBlock (decodeBlockArgs s) s).complete) := by
  cases hc : decodeBlockCheck s with
  | some e => exact .inl ⟨e, decodeBlockCheck_some hc, by simp [execDecodeBlock, hc]⟩
  | none =>
    have hr := (decodeBlockCheck_none_iff s).1 hc
    have hin : s.inOK (decodeBlockArgs s).addr 34 := hr.block
    by_cases hx : refIndex s s.blkAddr.toNat ≤ 88
    · refine .inr ⟨hr, hx, ?_⟩
      simp only [execDecodeBlock, hc]
      exact decodeBlockThen_eq _ hin hr.count.2 hx fun i hi => (hr.elem_lt hi).2
    · refine .inl ⟨.badIndex, by decide, ?_⟩
      simp only [execDecodeBlock, hc]
      exact decodeBlockThen_badIndex _ hin (Nat.lt_of_not_le hx)

end Sys2Proof.Machine
end

