-- ==== Sys2Proof/Laws/Stream.lean ====
section
/-! SUPPORT. The blocks of a DECODE in loop order: the closed form of any number of them, and that it is the reference
decoder's stream. -/

namespace Sys2Proof.Machine

/-- The state after the first `n` blocks of a DECODE (42_stream_decoder.md R184, R191). -/
def afterBlocks (s : State) : Nat → State
  | 0 => s
  | n + 1 => afterBlock (decodeArgs s n) (afterBlocks s n)

/-- Blocks change OUT, CH and the hidden state alone. -/
theorem afterBlocks_frame (s : State) (n : Nat) :
    afterBlocks s n =
      { s with outMem := (afterBlocks s n).outMem, ch := (afterBlocks s n).ch, run := (afterBlocks s n).run } := by
  have h : ∃ o c r, afterBlocks s n = { s with outMem := o, ch := c, run := r } := by
    induction n with
    | zero => exact ⟨_, _, _, rfl⟩
    | succ n ih =>
      obtain ⟨o, c, r, h⟩ := ih
      exact ⟨_, _, _, by rw [afterBlocks, h]; rfl⟩
  obtain ⟨o, c, r, h⟩ := h
  rw [h]

theorem afterBlocks_inMem (s : State) (n : Nat) : (afterBlocks s n).inMem = s.inMem := by rw [afterBlocks_frame]

theorem afterBlocks_params (s : State) (n : Nat) : (afterBlocks s n).params = s.params := by rw [afterBlocks_frame]

theorem decodeArgs_afterBlocks (s : State) (n j : Nat) : decodeArgs (afterBlocks s n) j = decodeArgs s j := by
  rw [afterBlocks_frame]
  rfl

theorem afterBlocks_ch_length (s : State) (n : Nat) : (afterBlocks s n).ch.length = s.ch.length := by
  induction n with
  | zero => rfl
  | succ n ih => simp [afterBlocks, afterBlock, ih]

/-- What the checks say of each block: its elements exist. -/
structure BlockFits (s : State) (a : BlockArgs) : Prop where
  count : a.count ≤ 64
  output : ∀ i < a.count, a.outBase + i * a.stride < s.params.outSize

/-- Blocks from block `j` on run to the completion, or up to the first whose preamble index is above 88, or up to the
first that does not lie in IN (42_stream_decoder.md R191, R192; log 11). -/
theorem decodeBlocks_cases (s : State) (m j : Nat) (hf : ∀ i, j ≤ i → i < j + m → BlockFits s (decodeArgs s i)) :
    ((∀ i, j ≤ i → i < j + m → refIndex s (decodeArgs s i).addr ≤ 88) ∧
      decodeBlocks m j (afterBlocks s j) = .next (finishDecode (afterBlocks s (j + m)))) ∨
    (∃ a, j ≤ a ∧ a < j + m ∧ (∀ i, j ≤ i → i < a → refIndex s (decodeArgs s i).addr ≤ 88) ∧
      88 < refIndex s (decodeArgs s a).addr ∧
      decodeBlocks m j (afterBlocks s j) = .next ((afterBlocks s a).raise .badIndex)) ∨
    ∃ a, j ≤ a ∧ a < j + m ∧ s.params.inSize < (decodeArgs s a).addr + 34 ∧
      decodeBlocks m j (afterBlocks s j) = .fault .noSuchInByte := by
  induction m generalizing j with
  | zero => exact .inl ⟨by omega, rfl⟩
  | succ m ih =>
    have h0 := hf j (Nat.le_refl _) (by omega)
    rw [decodeBlocks, decodeArgs_afterBlocks]
    have hx : refIndex (afterBlocks s j) (decodeArgs s j).addr = refIndex s (decodeArgs s j).addr :=
      refIndex_congr (afterBlocks_inMem s j) _
    by_cases hi : (decodeArgs s j).addr + 34 ≤ s.params.inSize
    · have hin : (afterBlocks s j).inOK (decodeArgs s j).addr 34 := by
        rw [State.inOK, afterBlocks_params]
        exact hi
      by_cases h88 : refIndex s (decodeArgs s j).addr ≤ 88
      · rw [decodeBlockThen_eq _ hin h0.count (by rw [hx]; exact h88)
          (by rw [afterBlocks_params]; exact h0.output)]
        have := ih (j + 1) fun i h1 h2 => hf i (by omega) (by omega)
        rw [afterBlocks, show j + 1 + m = j + (m + 1) by omega] at this
        have hfirst : ∀ i, j ≤ i → ¬ j + 1 ≤ i → refIndex s (decodeArgs s i).addr ≤ 88 := by
          intro i h1 h2
          have : i = j := by omega
          rw [this]
          exact h88
        rcases this with ⟨h, he⟩ | ⟨a, h1, h2, h, hb, he⟩ | ⟨a, h1, h2, h, he⟩
        · refine .inl ⟨fun i h1 h2 => ?_, he⟩
          by_cases hji : j + 1 ≤ i
          · exact h i hji h2
          · exact hfirst i h1 hji
        · refine .inr (.inl ⟨a, by omega, h2, fun i h1 h2 => ?_, hb, he⟩)
          by_cases hji : j + 1 ≤ i
          · exact h i hji h2
          · exact hfirst i h1 hji
        · exact .inr (.inr ⟨a, by omega, h2, h, he⟩)
      · refine .inr (.inl ⟨j, Nat.le_refl _, by omega, by omega, by omega, ?_⟩)
        rw [decodeBlockThen_badIndex _ hin (by rw [hx]; omega)]
    · refine .inr (.inr ⟨j, Nat.le_refl _, by omega, by omega, ?_⟩)
      rw [decodeBlockThen, if_neg (by rw [State.inOK, afterBlocks_params]; exact hi)]

/-- A number is one (slot, channel) pair only. -/
theorem slot_unique {w a b c d : Nat} (hb : b < w) (hd : d < w) (h : a * w + b = c * w + d) : a = c ∧ b = d := by
  have h1 : (b + w * a) / w = (d + w * c) / w := by
    rw [Nat.mul_comm w a, Nat.mul_comm w c, Nat.add_comm b, Nat.add_comm d, h]
  rw [Nat.add_mul_div_left _ _ (by omega), Nat.add_mul_div_left _ _ (by omega), Nat.div_eq_of_lt hb,
    Nat.div_eq_of_lt hd] at h1
  have : a = c := by omega
  subst this
  omega

/-- The arguments of the block of slot `J` and channel `C` (42_stream_decoder.md R184). -/
theorem decodeArgs_slot (s : State) {J C : Nat} (hC : C < s.siChannelCount.toNat) :
    decodeArgs s (J * s.siChannelCount.toNat + C) =
      { outBase := s.outBase.toNat + 64 * J * s.siChannelCount.toNat + C
        stride := s.siChannelCount.toNat
        addr := refAddr s J C
        count := refFrames s J
        chan := C
        blockNo := J * s.siChannelCount.toNat + C } := by
  have h1 : (J * s.siChannelCount.toNat + C) / s.siChannelCount.toNat = J := by
    rw [Nat.add_comm, Nat.add_mul_div_right _ _ (by omega), Nat.div_eq_of_lt hC, Nat.zero_add]
  have h2 : (J * s.siChannelCount.toNat + C) % s.siChannelCount.toNat = C := by
    rw [Nat.add_comm, Nat.add_mul_mod_self_right, Nat.mod_eq_of_lt hC]
  simp only [decodeArgs, decodeOperands, h1, h2]
  rfl

/-- Every block number is a slot and a channel. -/
theorem slot_exists (n : Nat) {w : Nat} (hw : 0 < w) : ∃ J C, C < w ∧ n = J * w + C :=
  ⟨n / w, n % w, Nat.mod_lt _ hw, by rw [Nat.mul_comm]; exact (Nat.div_add_mod n w).symm⟩

/-- A slot and channel come before another in loop order exactly as their block numbers do. -/
theorem slot_lt_iff {w J C J' C' : Nat} (hC : C < w) (hC' : C' < w) :
    J * w + C < J' * w + C' ↔ J < J' ∨ (J = J' ∧ C < C') := by
  rcases Nat.lt_trichotomy J J' with h | rfl | h
  · have : (J + 1) * w ≤ J' * w := Nat.mul_le_mul_right _ h
    rw [Nat.succ_mul] at this
    omega
  · omega
  · have : (J' + 1) * w ≤ J * w := Nat.mul_le_mul_right _ h
    rw [Nat.succ_mul] at this
    omega

/-- The elements of a DECODE's blocks exist when its checks pass (42_stream_decoder.md R190). -/
theorem DecodeReady.fits {s : State} (h : DecodeReady s) {n : Nat} (hn : n < decodeBlockTotal s) :
    BlockFits s (decodeArgs s n) := by
  obtain ⟨J, C, hC, rfl⟩ := slot_exists n h.channels.1
  rw [decodeArgs_slot s hC]
  refine ⟨by simp only [refFrames]; omega, ?_⟩
  intro i hi
  simp only [refFrames] at hi ⊢
  have h1 : (64 * J + i + 1) * s.siChannelCount.toNat ≤ s.frameCount.toNat * s.siChannelCount.toNat :=
    Nat.mul_le_mul_right _ (by omega)
  rw [Nat.succ_mul, Nat.add_mul] at h1
  have := h.output.2
  omega

/-- A DECODE's blocks lie in the block array when its checks pass (42_stream_decoder.md R187). -/
theorem DecodeReady.addr_le {s : State} (h : DecodeReady s) {n : Nat} (hn : n < decodeBlockTotal s) :
    (decodeArgs s n).addr + 34 ≤ s.siBlockBase.toNat + s.siBlockSize.toNat := by
  obtain ⟨J, C, hC, rfl⟩ := slot_exists n h.channels.1
  have hT : decodeBlockTotal s = (s.frameCount.toNat + 63) / 64 * s.siChannelCount.toNat + 0 := rfl
  rw [hT, slot_lt_iff hC h.channels.1] at hn
  have h1 := h.blocks (by omega)
  have h2 : (s.frameOffset.toNat / 64 + (J + 1)) * s.siChannelCount.toNat ≤
      (s.frameOffset.toNat / 64 + (s.frameCount.toNat + 63) / 64) * s.siChannelCount.toNat :=
    Nat.mul_le_mul_right _ (by omega)
  rw [← Nat.add_assoc, Nat.succ_mul] at h2
  rw [decodeArgs_slot s hC]
  simp only [refAddr]
  omega

/-- Reading CH after an entry is written. -/
theorem getD_set (l : List ChannelState) (a c : Nat) (v : ChannelState) (ha : a < l.length) :
    (l.set a v).getD c ChannelState.zero = if c = a then v else l.getD c ChannelState.zero := by
  by_cases h : c = a
  · subst h
    simp [List.getD, ha]
  · rw [if_neg h]
    simp [List.getD, List.getElem?_set_ne (Ne.symm h)]

/-- What the first blocks of a DECODE have done (42_stream_decoder.md R184, R198), from a state whose CH is the call's
entry state. -/
structure StreamDone (s : State) (n : Nat) : Prop where
  chans : ∀ J C c, C < s.siChannelCount.toNat → n = J * s.siChannelCount.toNat + C → c < s.siChannelCount.toNat →
    (afterBlocks s n).channel c = refStream s c (if c < C then J + 1 else J)
  others : ∀ c, s.siChannelCount.toNat ≤ c → (afterBlocks s n).channel c = s.channel c
  samples : ∀ f c, f < s.frameCount.toNat → c < s.siChannelCount.toNat →
    f / 64 * s.siChannelCount.toNat + c < n →
    Memory.read? (afterBlocks s n).outMem (s.outBase.toNat + f * s.siChannelCount.toNat + c) =
      some (sampleBits s.params.outFmt (refSample s f c))
  rest : ∀ e, (∀ f c, f < s.frameCount.toNat → c < s.siChannelCount.toNat →
      f / 64 * s.siChannelCount.toNat + c < n → e ≠ s.outBase.toNat + f * s.siChannelCount.toNat + c) →
    Memory.read? (afterBlocks s n).outMem e = Memory.read? s.outMem e

theorem streamDone {s : State} (hw : 0 < s.siChannelCount.toNat) (hl : s.siChannelCount.toNat ≤ s.ch.length)
    (he : ∀ c, s.channel c = refEntry s c) (n : Nat) : StreamDone s n := by
  induction n with
  | zero =>
    refine ⟨?_, fun _ _ => rfl, by omega, fun _ _ => rfl⟩
    intro J C c hC hJ hc
    have hC0 : C = 0 := by omega
    have hJ0 : J = 0 := by
      rcases Nat.mul_eq_zero.1 (show J * s.siChannelCount.toNat = 0 by omega) with h | h <;> omega
    subst hC0 hJ0
    exact he c
  | succ n ih =>
    obtain ⟨J, C, hC, hn⟩ := slot_exists n hw
    have hargs := decodeArgs_slot s (J := J) hC
    rw [← hn] at hargs
    have hchan : (afterBlocks s n).channel C = refStream s C J := by
      have := ih.chans J C C hC hn hC
      rwa [if_neg (by omega)] at this
    have hblock : ∀ k, refBlock (afterBlocks s n) (refAddr s J C) (refStream s C J) k =
        refBlock s (refAddr s J C) (refStream s C J) k := fun k => refBlock_congr (afterBlocks_inMem s n) _ _ _
    have hset : ∀ c, (afterBlocks s (n + 1)).channel c =
        if c = C then refStream s C (J + 1) else (afterBlocks s n).channel c := by
      intro c
      rw [State.channel, afterBlocks, hargs, afterBlock]
      simp only
      rw [getD_set _ _ _ _ (by rw [afterBlocks_ch_length]; omega), hchan, hblock]
      rfl
    have hout : (afterBlocks s (n + 1)).outMem = blockOut (afterBlocks s n) (decodeArgs s n) (refFrames s J) := by
      rw [afterBlocks, afterBlock, hargs]
    have hfr : ∀ i, i < refFrames s J → 64 * J + i < s.frameCount.toNat ∧ i < 64 := by
      intro i hi
      simp only [refFrames] at hi
      omega
    have haddr : ∀ i, (decodeArgs s n).outBase + i * (decodeArgs s n).stride =
        s.outBase.toNat + (64 * J + i) * s.siChannelCount.toNat + C := by
      intro i
      rw [hargs]
      simp only
      rw [Nat.add_mul]
      omega
    refine ⟨?_, ?_, ?_, ?_⟩
    · intro J' C' c hC' hn' hc
      rw [hset]
      by_cases hcC : c = C
      · subst hcC
        rw [if_pos rfl]
        by_cases hlast : c + 1 = s.siChannelCount.toNat
        · have : J' = J + 1 ∧ C' = 0 := slot_unique hC' hw (by rw [Nat.succ_mul]; omega)
          rw [if_neg (by omega), this.1]
        · have : J' = J ∧ C' = c + 1 := slot_unique hC' (by omega) (by omega)
          rw [if_pos (by omega), this.1]
      · rw [if_neg hcC, ih.chans J C c hC hn hc]
        by_cases hlast : C + 1 = s.siChannelCount.toNat
        · have : J' = J + 1 ∧ C' = 0 := slot_unique hC' hw (by rw [Nat.succ_mul]; omega)
          rw [if_pos (by omega), if_neg (by omega), this.1]
        · have : J' = J ∧ C' = C + 1 := slot_unique hC' (by omega) (by omega)
          rw [this.1]
          congr 1
          split <;> split <;> omega
    · intro c hc
      rw [hset, if_neg (by omega), ih.others c hc]
    · intro f c hf hc hlt
      rw [hout]
      by_cases hnow : f / 64 * s.siChannelCount.toNat + c = n
      · have hJC : f / 64 = J ∧ c = C := slot_unique hc hC (by omega)
        have hi : f % 64 < refFrames s J := by
          simp only [refFrames]
          omega
        have hfi : 64 * J + f % 64 = f := by omega
        have hb := blockOut_same (s := afterBlocks s n) (a := decodeArgs s n) (i := f % 64) _ hi fun j hj hij => by
          rw [haddr, haddr]
          have : (64 * J + f % 64 + 1) * s.siChannelCount.toNat ≤ (64 * J + j) * s.siChannelCount.toNat :=
            Nat.mul_le_mul_right _ (by omega)
          rw [Nat.succ_mul] at this
          omega
        rw [haddr, hfi, afterBlocks_params] at hb
        rw [hJC.2, hb, hargs]
        simp only
        rw [hchan, hblock, refSample, hJC.1]
      · rw [blockOut_other _ fun i hi => ?_, ih.samples f c hf hc (by omega)]
        rw [haddr]
        intro h
        have : f = 64 * J + i ∧ c = C := slot_unique hc hC (by omega)
        have h64 := (hfr i hi).2
        have : f / 64 = J := by omega
        have : c = C := by omega
        simp_all
    · intro e hne
      rw [hout, blockOut_other _ fun i hi => ?_, ih.rest e fun f c hf hc hlt => hne f c hf hc (by omega)]
      rw [haddr]
      have := hfr i hi
      refine hne _ C this.1 hC ?_
      have : (64 * J + i) / 64 = J := by omega
      rw [this]
      omega

/-- The entry state of a call (42_stream_decoder.md R186, R196). -/
theorem decodeStart_channel (s : State) (c : Nat) : (decodeStart s).channel c = refEntry s c := by
  unfold decodeStart refEntry
  cases s.params.streamMode with
  | stateful => rfl
  | stateless =>
    simp only [State.channel, State.zeroChannels, List.getD, List.getElem?_replicate]
    split <;> simp

/-- STATELESS zeroes CH and changes nothing else (42_stream_decoder.md R186). -/
theorem decodeStart_frame (s : State) : decodeStart s = { s with ch := (decodeStart s).ch } := by
  unfold decodeStart
  split <;> rfl

theorem decodeStart_ch_length {s : State} (h : s.ch.length = s.params.maxChannels) :
    (decodeStart s).ch.length = s.params.maxChannels := by
  unfold decodeStart
  split
  · exact h
  · simp [State.zeroChannels]

theorem decodeArgs_decodeStart (s : State) (n : Nat) : decodeArgs (decodeStart s) n = decodeArgs s n := by
  rw [decodeStart_frame]
  rfl

theorem refIndex_decodeStart (s : State) (a : Nat) : refIndex (decodeStart s) a = refIndex s a :=
  refIndex_congr (by rw [decodeStart_frame]) a

theorem decodeStart_entry (s : State) (c : Nat) : (decodeStart s).channel c = refEntry (decodeStart s) c := by
  have hp : (decodeStart s).params = s.params := by rw [decodeStart_frame]
  rw [refEntry, hp]
  split
  · rfl
  · next h => rw [decodeStart_channel, refEntry, if_neg h]

/-- The reference decoder's stream is the same from the call's state and from its entry state. -/
theorem refStream_decodeStart (s : State) (c J : Nat) : refStream (decodeStart s) c J = refStream s c J := by
  have hi : (decodeStart s).inMem = s.inMem := by rw [decodeStart_frame]
  induction J with
  | zero => rw [refStream, refStream, ← decodeStart_entry, decodeStart_channel]
  | succ J ih =>
    rw [refStream, refStream, ih, refBlock_congr hi]
    have h1 : refAddr (decodeStart s) J c = refAddr s J c := by
      rw [decodeStart_frame]
      rfl
    have h2 : refFrames (decodeStart s) J = refFrames s J := by
      rw [decodeStart_frame]
      rfl
    rw [h1, h2]

theorem refSample_decodeStart (s : State) (f c : Nat) : refSample (decodeStart s) f c = refSample s f c := by
  have hi : (decodeStart s).inMem = s.inMem := by rw [decodeStart_frame]
  have h1 : refAddr (decodeStart s) (f / 64) c = refAddr s (f / 64) c := by
    rw [decodeStart_frame]
    rfl
  rw [refSample, refSample, refStream_decodeStart, refBlock_congr hi, h1]

/-- What the first blocks of a DECODE have done, in terms of the state the call starts from. -/
theorem streamDone_decodeStart {s : State} (h : DecodeReady s) (hl : s.ch.length = s.params.maxChannels) (n : Nat) :
    (∀ J C c, C < s.siChannelCount.toNat → n = J * s.siChannelCount.toNat + C → c < s.siChannelCount.toNat →
      (afterBlocks (decodeStart s) n).channel c = refStream s c (if c < C then J + 1 else J)) ∧
    (∀ c, s.siChannelCount.toNat ≤ c → (afterBlocks (decodeStart s) n).channel c = refEntry s c) ∧
    (∀ f c, f < s.frameCount.toNat → c < s.siChannelCount.toNat → f / 64 * s.siChannelCount.toNat + c < n →
      (afterBlocks (decodeStart s) n).outElem (s.outBase.toNat + f * s.siChannelCount.toNat + c) =
        sampleBits s.params.outFmt (refSample s f c)) ∧
    (∀ e, (∀ f c, f < s.frameCount.toNat → c < s.siChannelCount.toNat →
        f / 64 * s.siChannelCount.toNat + c < n → e ≠ s.outBase.toNat + f * s.siChannelCount.toNat + c) →
      (afterBlocks (decodeStart s) n).outElem e = s.outElem e) := by
  have hch : (decodeStart s).siChannelCount = s.siChannelCount := by rw [decodeStart_frame]
  have hfc : (decodeStart s).frameCount = s.frameCount := by rw [decodeStart_frame]
  have hob : (decodeStart s).outBase = s.outBase := by rw [decodeStart_frame]
  have hp : (decodeStart s).params = s.params := by rw [decodeStart_frame]
  have ho : (decodeStart s).outMem = s.outMem := by rw [decodeStart_frame]
  obtain ⟨h1, h2, h3, h4⟩ := streamDone (s := decodeStart s) (by rw [hch]; exact h.channels.1)
    (by rw [hch, decodeStart_ch_length hl]; exact h.channels.2) (decodeStart_entry s) n
  rw [hch] at h1 h2 h3 h4
  rw [hfc, hob] at h3 h4
  refine ⟨?_, ?_, ?_, ?_⟩
  · intro J C c hC hn hc
    rw [h1 J C c hC hn hc, refStream_decodeStart]
  · intro c hc
    rw [h2 c hc, decodeStart_channel]
  · intro f c hf hc hlt
    rw [State.outElem, h3 f c hf hc hlt, hp, refSample_decodeStart]
    rfl
  · intro e he
    rw [State.outElem, h4 e he, afterBlocks_params, hp, ho]
    rfl

/-- What DECODE does: a failed check ends it with an error, else it decodes its blocks to the completion or up to the
first preamble index above 88 (42_stream_decoder.md R191, R192). It stops only if the block array does not lie in IN,
which no run brings about (20_memory.md R75, log 11). -/
theorem execDecode_cases (s : State) :
    (¬ DecodeReady s ∧ ∃ e, (e ≠ .ok ∧ e ≠ .badIndex) ∧ execDecode s = .next (s.raise e)) ∨
    (DecodeReady s ∧ (∀ n < decodeBlockTotal s, refIndex s (decodeArgs s n).addr ≤ 88) ∧
      execDecode s = .next (finishDecode (afterBlocks (decodeStart s) (decodeBlockTotal s)))) ∨
    (DecodeReady s ∧ ∃ a < decodeBlockTotal s, (∀ n < a, refIndex s (decodeArgs s n).addr ≤ 88) ∧
      88 < refIndex s (decodeArgs s a).addr ∧
      execDecode s = .next ((afterBlocks (decodeStart s) a).raise .badIndex)) ∨
    (s.params.inSize < s.siBlockBase.toNat + s.siBlockSize.toNat ∧ execDecode s = .fault .noSuchInByte) := by
  cases hc : decodeCheck s with
  | some e =>
    refine .inl ⟨fun h => ?_, e, decodeCheck_some hc, by simp [execDecode, hc]⟩
    rw [(decodeCheck_none_iff s).2 h] at hc
    cases hc
  | none =>
    have hr := (decodeCheck_none_iff s).1 hc
    have hx : execDecode s = decodeBlocks (decodeBlockTotal s) 0 (afterBlocks (decodeStart s) 0) := by
      simp only [execDecode, hc]
      rfl
    have hp : (decodeStart s).params = s.params := by rw [decodeStart_frame]
    have hfit : ∀ i, 0 ≤ i → i < 0 + decodeBlockTotal s → BlockFits (decodeStart s) (decodeArgs (decodeStart s) i) := by
      intro i _ hi
      obtain ⟨h1, h2⟩ := hr.fits (n := i) (by omega)
      rw [decodeArgs_decodeStart]
      exact ⟨h1, by rw [hp]; exact h2⟩
    rw [hx]
    have key := decodeBlocks_cases (decodeStart s) (decodeBlockTotal s) 0 hfit
    simp only [Nat.zero_le, Nat.zero_add, forall_const, true_and, decodeArgs_decodeStart, refIndex_decodeStart, hp]
      at key
    rcases key with ⟨h, he⟩ | ⟨a, h1, h2, h3, he⟩ | ⟨a, h1, h2, he⟩
    · exact .inr (.inl ⟨hr, h, he⟩)
    · exact .inr (.inr (.inl ⟨hr, a, h1, h2, h3, he⟩))
    · exact .inr (.inr (.inr ⟨Nat.lt_of_lt_of_le h2 (hr.addr_le h1), he⟩))

end Sys2Proof.Machine
end

