-- ==== Sys2Proof/Laws/Step.lean ====
section
/-! SUPPORT. What every instruction leaves alone, and everything one step can do. -/

namespace Sys2Proof.Machine

/-- What no instruction writes: the parameters, the host's registers and memory, and the model's own fields. -/
structure HostSame (s t : State) : Prop where
  params : t.params = s.params
  pending : t.pending = s.pending
  inBase : t.inBase = s.inBase
  inLen : t.inLen = s.inLen
  outBase : t.outBase = s.outBase
  outLen : t.outLen = s.outLen
  frameOffset : t.frameOffset = s.frameOffset
  frameCount : t.frameCount = s.frameCount
  blkAddr : t.blkAddr = s.blkAddr
  blkArgs : t.blkArgs = s.blkArgs
  chSel : t.chSel = s.chSel
  inMem : t.inMem = s.inMem
  hostHazard : t.hostHazard = s.hostHazard
  schedule : t.schedule = s.schedule
  history : t.history = s.history
  draws : t.draws = s.draws
  overrun : t.status.overrun = s.status.overrun

theorem HostSame.refl (s : State) : HostSame s s := by
  constructor <;> rfl

theorem HostSame.trans {s t u : State} (h : HostSame s t) (k : HostSame t u) : HostSame s u :=
  ⟨k.1.trans h.1, k.2.trans h.2, k.3.trans h.3, k.4.trans h.4, k.5.trans h.5, k.6.trans h.6, k.7.trans h.7,
    k.8.trans h.8, k.9.trans h.9, k.10.trans h.10, k.11.trans h.11, k.12.trans h.12, k.13.trans h.13,
    k.14.trans h.14, k.15.trans h.15, k.16.trans h.16, k.17.trans h.17⟩

theorem hostSame_raise (e : ErrCode) (s : State) : HostSame s (s.raise e) := by
  constructor <;> rfl

theorem hostSame_raiseParse (e : ErrCode) (s : State) : HostSame s (s.raiseParse e) := by
  constructor <;> rfl

theorem hostSame_complete (s : State) : HostSame s s.complete := by
  constructor <;> rfl

theorem hostSame_parseSuccess (d : DescFields) (f : Word64) (b : DataFields) (s : State) :
    HostSame s (s.parseSuccess d f b) := by
  constructor <;> rfl

theorem hostSame_withRun (r : Run) (s : State) : HostSame s (s.withRun r) := by
  constructor <;> rfl

theorem hostSame_afterBlock (a : BlockArgs) (s : State) : HostSame s (afterBlock a s) := by
  constructor <;> rfl

theorem hostSame_decodeStart (s : State) : HostSame s (decodeStart s) := by
  rw [decodeStart_frame]
  constructor <;> rfl

theorem hostSame_finishDecode (s : State) : HostSame s (finishDecode s) := by
  constructor <;> rfl

theorem hostSame_afterBlocks (s : State) (n : Nat) : HostSame s (afterBlocks s n) := by
  induction n with
  | zero => exact HostSame.refl s
  | succ n ih => exact ih.trans (hostSame_afterBlock _ _)

theorem hostSame_walkAdvance (w : WalkRun) (s : State) : HostSame s (walkAdvance w s) := by
  rcases walkAdvance_cases w s with ⟨d, f, b, -, -, -, h⟩ | ⟨-, h⟩ <;> rw [h]
  · exact hostSame_parseSuccess d f b s
  · exact hostSame_withRun _ s

theorem hostSame_applyCode {c : Nibble} {s t : State} (h : applyCode c s = .next t) : HostSame s t := by
  obtain ⟨b, -, -, rfl⟩ := applyCode_next h
  constructor <;> rfl

theorem hostSame_applyChunk {d : Bool} {z : Word64} {s t : State}
    {body : WalkRun → Nat → Nat → Except ErrCode WalkRun} (h : applyChunk d z s body = .next t) : HostSame s t := by
  unfold applyChunk at h
  split at h <;> [skip; cases h; cases h]
  split at h <;> [skip; cases h]
  split at h <;> [(cases h; exact hostSame_raiseParse _ _); skip]
  split at h <;> [(cases h; exact hostSame_raiseParse _ _); skip]
  split at h <;> cases h
  · exact hostSame_raiseParse _ _
  · exact hostSame_walkAdvance _ _

theorem hostSame_execParse {s t : State} (h : execParse s = .next t) : HostSame s t := by
  obtain ⟨t', ht, ho⟩ := execParse_outcome s
  rw [ht] at h
  cases h
  rcases ho with ⟨e, -, rfl⟩ | ⟨d, f, b, -, -, -, -, rfl⟩
  · exact hostSame_raiseParse e s
  · exact hostSame_parseSuccess d f b s

theorem hostSame_execDecodeBlock {s t : State} (h : execDecodeBlock s = .next t) : HostSame s t := by
  rcases execDecodeBlock_cases s with ⟨e, -, hd⟩ | ⟨-, -, hd⟩ <;> rw [hd] at h <;> cases h
  · exact hostSame_raise e s
  · exact (hostSame_afterBlock _ s).trans (hostSame_complete _)

theorem hostSame_execDecode {s t : State} (h : execDecode s = .next t) : HostSame s t := by
  rcases execDecode_cases s with ⟨-, e, -, hd⟩ | ⟨-, -, hd⟩ | ⟨-, a, -, -, -, hd⟩ | ⟨-, hd⟩ <;> rw [hd] at h <;> cases h
  · exact hostSame_raise e s
  · exact ((hostSame_decodeStart s).trans (hostSame_afterBlocks _ _)).trans (hostSame_finishDecode _)
  · exact ((hostSame_decodeStart s).trans (hostSame_afterBlocks _ _)).trans (hostSame_raise _ _)

/-- The frame of every instruction (20_memory.md R60, R62; 10_state.md R25). -/
theorem hostSame_exec {i : Instr} {s t : State} (h : exec i s = .next t) : HostSame s t := by
  cases i <;> first
    | exact hostSame_applyCode h
    | exact hostSame_applyChunk h
    | (simp only [exec, execChunkOther] at h; exact hostSame_applyChunk h)
    | exact hostSame_execParse h
    | exact hostSame_execDecodeBlock h
    | exact hostSame_execDecode h
    | (cases h; constructor <;> rfl)

/-- Every command a word can name leaves the machine idle (60_exceptions.md R210). -/
theorem exec_command_idle {w : Word64} {i : Instr} {s t : State} (hw : decodeCommand w = .ok i)
    (h : exec i s = .next t) : t.run = .idle ∧ t.status.busy = false := by
  rcases decodeCommand_ok hw with ⟨-, rfl⟩ | ⟨-, rfl⟩ | ⟨-, rfl⟩ | ⟨-, rfl⟩ | ⟨-, rfl⟩
  · cases h
    exact ⟨rfl, rfl⟩
  · obtain ⟨t', ht, ho⟩ := execParse_outcome s
    have : t' = t := by simpa [exec, ht] using h
    subst this
    rcases ho with ⟨e, -, rfl⟩ | ⟨d, f, b, -, -, -, -, rfl⟩ <;> exact ⟨rfl, rfl⟩
  · rcases execDecode_cases s with ⟨-, e, -, hd⟩ | ⟨-, -, hd⟩ | ⟨-, a, -, -, -, hd⟩ | ⟨-, hd⟩ <;>
      simp only [exec, hd] at h <;> cases h <;> exact ⟨rfl, rfl⟩
  · rcases execDecodeBlock_cases s with ⟨e, -, hd⟩ | ⟨-, -, hd⟩ <;> simp only [exec, hd] at h <;> cases h <;>
      exact ⟨rfl, rfl⟩
  · cases h
    exact ⟨rfl, rfl⟩

/-- Everything the core's own step can do. -/
theorem coreStep_cases (s : State) :
    (∃ i, decodeCommand s.pending = .ok i ∧ coreStep s = exec i s) ∨ coreStep s = .next (s.raise .illegalCmd) := by
  unfold coreStep
  split
  · next i h => exact .inl ⟨i, h, rfl⟩
  · exact .inr rfl

/-- The core's own step ends its command (60_exceptions.md R210, R214). -/
theorem coreStep_idle {s t : State} (h : coreStep s = .next t) : t.run = .idle ∧ t.status.busy = false := by
  rcases coreStep_cases s with ⟨i, hd, he⟩ | he <;> rw [he] at h
  · exact exec_command_idle hd h
  · cases h
    exact ⟨rfl, rfl⟩

/-- The core's own step leaves the host's side alone. -/
theorem hostSame_coreStep {s t : State} (h : coreStep s = .next t) : HostSame s t := by
  rcases coreStep_cases s with ⟨i, -, he⟩ | he <;> rw [he] at h
  · exact hostSame_exec h
  · cases h
    exact hostSame_raise _ _

/-- Everything one step between commands can do: the core's step, an idle core, the end of a WAIT, a reset, a host
access. -/
theorem takeTurn_cases (s : State) :
    (s.status.busy = true ∧ (s.schedule = [] ∧ takeTurn s = coreStep s ∨
      (∃ rest, s.schedule = .wait :: rest) ∧ takeTurn s = coreStep s ∨
      (∃ rest, s.schedule = .core :: rest) ∧ takeTurn s = coreStep (dropTurn s))) ∨
    (s.status.busy = false ∧ (s.schedule = [] ∧ takeTurn s = .next s ∨
      (∃ rest, s.schedule = .core :: rest) ∧ takeTurn s = .next (dropTurn s) ∨
      (∃ rest, s.schedule = .wait :: rest) ∧ takeTurn s = .next (endWait (dropTurn s)))) ∨
    ((∃ rest, s.schedule = .reset :: rest) ∧ takeTurn s = .next (dropTurn s).resetEvent) ∨
    ∃ a rest, s.schedule = .host a :: rest ∧ takeTurn s = hostAccess a (dropTurn s) := by
  have hb : (dropTurn s).status.busy = s.status.busy := rfl
  unfold takeTurn
  cases hs : s.status.busy <;> split <;> simp_all [coreTurn]

end Sys2Proof.Machine
end

