-- ==== Sys2Proof/Laws/History.lean ====
section
/-! SUPPORT. What the host keeps of its run: when it has seen BUSY = 0, and which windows are observed. -/

namespace Sys2Proof.Machine

@[simp] theorem sawDone_nil : sawDone [] = true := rfl
@[simp] theorem sawDone_command (w b l : Word64) (h : List HostEvent) : sawDone (.command w b l :: h) = false := rfl
@[simp] theorem sawDone_inByte (a : Nat) (v : Byte) (h : List HostEvent) :
    sawDone (.inByte a v :: h) = sawDone h := rfl
@[simp] theorem sawDone_outElem (e : Nat) (v : Word32) (h : List HostEvent) :
    sawDone (.outElem e v :: h) = sawDone h := rfl

/-- Only a read of STATUS can show the host that a command is over. -/
theorem sawDone_reg_of_ne {i : Nat} (hi : i ≠ 1) (v : Word64) (h : List HostEvent) :
    sawDone (.reg i v :: h) = sawDone h := by
  simp [sawDone, hi]

/-- Bit 8 of STATUS is BUSY (10_state.md R29). -/
theorem Status.word_busy (st : Status) : st.word.getLsbD 8 = st.busy := by
  obtain ⟨e, b, p, s, o⟩ := st
  cases e <;> cases b <;> cases p <;> cases s <;> cases o <;> rfl

/-- A read of STATUS tells what BUSY is. -/
theorem sawDone_status (st : Status) (h : List HostEvent) :
    sawDone (.reg 1 st.word :: h) = (!st.busy || sawDone h) := by
  rw [sawDone, Status.word_busy]
  rfl

/-- An element is observed exactly when it exists and lies in the window of a command the host started. -/
theorem mem_windowElems {s : State} {e : Nat} :
    e ∈ s.windowElems ↔
      ∃ h ∈ s.history, ∃ w, h.window = some w ∧ w.1 ≤ e ∧ e < w.1 + w.2 ∧ e < s.params.outSize := by
  simp only [State.windowElems, List.mem_flatMap, List.mem_filterMap, List.mem_reverse, List.mem_range'_1]
  constructor
  · rintro ⟨w, ⟨h, hm, hw⟩, h1, h2⟩
    exact ⟨h, hm, w, hw, h1, by omega, by omega⟩
  · rintro ⟨h, hm, w, hw, h1, h2, h3⟩
    exact ⟨w, ⟨h, hm, hw⟩, h1, by omega⟩

/-- What is observed stays observed while the host only adds to its history. -/
theorem windowElems_mono {s t : State} (hp : t.params = s.params) (hh : ∀ h ∈ s.history, h ∈ t.history) {e : Nat}
    (he : e ∈ s.windowElems) : e ∈ t.windowElems := by
  obtain ⟨h, hm, w, hw, h1, h2, h3⟩ := mem_windowElems.1 he
  exact mem_windowElems.2 ⟨h, hh h hm, w, hw, h1, h2, hp ▸ h3⟩

end Sys2Proof.Machine
end

