-- ==== Sys2Proof/Laws/Registers.lean ====
section
/-! SUPPORT. The register file: the value at each index, and what a write of each index is. -/

namespace Sys2Proof.Machine

@[simp] theorem State.regValue_0 (s : State) : s.regValue 0 = 0 := rfl
@[simp] theorem State.regValue_1 (s : State) : s.regValue 1 = s.status.word := rfl
@[simp] theorem State.regValue_2 (s : State) : s.regValue 2 = Params.configWord s.params := rfl
@[simp] theorem State.regValue_3 (s : State) : s.regValue 3 = s.inBase := rfl
@[simp] theorem State.regValue_4 (s : State) : s.regValue 4 = s.inLen := rfl
@[simp] theorem State.regValue_5 (s : State) : s.regValue 5 = s.outBase := rfl
@[simp] theorem State.regValue_6 (s : State) : s.regValue 6 = s.outLen := rfl
@[simp] theorem State.regValue_7 (s : State) : s.regValue 7 = s.frameOffset := rfl
@[simp] theorem State.regValue_8 (s : State) : s.regValue 8 = s.frameCount.setWidth 64 := rfl
@[simp] theorem State.regValue_9 (s : State) : s.regValue 9 = s.blkAddr := rfl
@[simp] theorem State.regValue_10 (s : State) : s.regValue 10 = s.blkArgs.word := rfl
@[simp] theorem State.regValue_11 (s : State) : s.regValue 11 = s.chSel.setWidth 64 := rfl
@[simp] theorem State.regValue_12 (s : State) : s.regValue 12 = s.chStateWord := rfl
@[simp] theorem State.regValue_13 (s : State) : s.regValue 13 = s.siBlockBase := rfl
@[simp] theorem State.regValue_14 (s : State) : s.regValue 14 = s.siBlockSize := rfl
@[simp] theorem State.regValue_15 (s : State) : s.regValue 15 = s.siSampleRate := rfl
@[simp] theorem State.regValue_16 (s : State) : s.regValue 16 = s.siFrameCount := rfl
@[simp] theorem State.regValue_17 (s : State) : s.regValue 17 = s.siChannelCount.setWidth 64 := rfl
@[simp] theorem State.regValue_18 (s : State) : s.regValue 18 = s.nextFrame := rfl
@[simp] theorem State.regValue_19 (s : State) : s.regValue 19 = s.decoded := rfl

/-- A reserved index reads 0 (10_state.md R24). -/
theorem State.regValue_ge (s : State) {j : Nat} (h : 20 ≤ j) : s.regValue j = 0 := by
  obtain ⟨k, rfl⟩ : ∃ k, j = k + 20 := ⟨j - 20, by omega⟩
  rfl

@[simp] theorem writeReg_0 (v : Word64) (s : State) : writeReg 0 v s = startCommand v s := rfl
@[simp] theorem writeReg_3 (v : Word64) (s : State) : writeReg 3 v s = { s with inBase := v } := rfl
@[simp] theorem writeReg_4 (v : Word64) (s : State) : writeReg 4 v s = { s with inLen := v } := rfl
@[simp] theorem writeReg_5 (v : Word64) (s : State) : writeReg 5 v s = { s with outBase := v } := rfl
@[simp] theorem writeReg_6 (v : Word64) (s : State) : writeReg 6 v s = { s with outLen := v } := rfl
@[simp] theorem writeReg_7 (v : Word64) (s : State) : writeReg 7 v s = { s with frameOffset := v } := rfl
@[simp] theorem writeReg_8 (v : Word64) (s : State) : writeReg 8 v s = { s with frameCount := v.setWidth 32 } := rfl
@[simp] theorem writeReg_9 (v : Word64) (s : State) : writeReg 9 v s = { s with blkAddr := v } := rfl
@[simp] theorem writeReg_10 (v : Word64) (s : State) : writeReg 10 v s = { s with blkArgs := BlkArgs.ofWord v } := rfl
@[simp] theorem writeReg_11 (v : Word64) (s : State) : writeReg 11 v s = { s with chSel := v.setWidth 16 } := rfl
@[simp] theorem writeReg_12 (v : Word64) (s : State) : writeReg 12 v s = writeChState v s := rfl

/-- A write of STATUS or CONFIG has no effect (10_state.md R24). -/
theorem writeReg_status (v : Word64) (s : State) : writeReg 1 v s = s := rfl

theorem writeReg_config (v : Word64) (s : State) : writeReg 2 v s = s := rfl

/-- A write of an RO register or a reserved index has no effect (10_state.md R24). -/
theorem writeReg_ge (v : Word64) (s : State) {i : Nat} (h : 13 ≤ i) : writeReg i v s = s := by
  obtain ⟨k, rfl⟩ : ∃ k, i = k + 13 := ⟨i - 13, by omega⟩
  rfl

theorem Status.word_zero : Status.word Status.zero = 0 := by decide

theorem BlkArgs.word_zero : BlkArgs.word { count := 0, channel := 0, stride := 0 } = 0 := by decide

/-- A zero entry reads 0 through the CH_STATE window, whatever the selector (10_state.md R22, R35). -/
theorem window_zero (n k : Nat) :
    ChannelState.window ((List.replicate n ChannelState.zero).getD k ChannelState.zero) = 0 := by
  have h : (List.replicate n ChannelState.zero).getD k ChannelState.zero = ChannelState.zero := by
    simp only [List.getD, List.getElem?_replicate]
    split <;> rfl
  rw [h]
  decide

/-- Every register reads 0 after reset, but CONFIG (70_reset_and_hazards.md R241). -/
theorem regValue_resetWith (p : Params) {i : Nat} (h : i ≠ 2) : (State.resetWith p).regValue i = 0 := by
  by_cases h20 : i < 20
  · rcases (by omega : i = 1 ∨ i = 10 ∨ i = 12 ∨ (i ≠ 1 ∧ i ≠ 10 ∧ i ≠ 12)) with rfl | rfl | rfl | ⟨h1, h10, h12⟩
    · rw [State.regValue_1]
      exact Status.word_zero
    · rw [State.regValue_10]
      exact BlkArgs.word_zero
    · rw [State.regValue_12, State.chStateWord, State.channel]
      have := window_zero p.maxChannels (State.resetWith p).chSel.toNat
      split
      · exact this
      · rfl
    · interval_cases i <;> first | contradiction | rfl
  · rw [State.regValue_ge _ (by omega)]

/-- Every write is one of these (10_state.md R24 to R35): the command, one argument register, the CH_STATE window, or
nothing. -/
theorem writeReg_cases (i : Nat) (v : Word64) (s : State) :
    (i = 0 ∧ writeReg i v s = startCommand v s) ∨ (i = 12 ∧ writeReg i v s = writeChState v s) ∨
    (3 ≤ i ∧ i ≤ 11 ∧ ∃ b l ob ol fo fc ba bb cs, writeReg i v s =
      { s with
        inBase := b, inLen := l, outBase := ob, outLen := ol, frameOffset := fo, frameCount := fc, blkAddr := ba
        blkArgs := bb, chSel := cs }) ∨
    writeReg i v s = s := by
  by_cases h : i < 13
  · interval_cases i
    · exact .inl ⟨rfl, rfl⟩
    · exact .inr (.inr (.inr rfl))
    · exact .inr (.inr (.inr rfl))
    · exact .inr (.inr (.inl ⟨by omega, by omega, v, s.inLen, s.outBase, s.outLen, s.frameOffset, s.frameCount, s.blkAddr,
        s.blkArgs, s.chSel, rfl⟩))
    · exact .inr (.inr (.inl ⟨by omega, by omega, s.inBase, v, s.outBase, s.outLen, s.frameOffset, s.frameCount, s.blkAddr,
        s.blkArgs, s.chSel, rfl⟩))
    · exact .inr (.inr (.inl ⟨by omega, by omega, s.inBase, s.inLen, v, s.outLen, s.frameOffset, s.frameCount, s.blkAddr,
        s.blkArgs, s.chSel, rfl⟩))
    · exact .inr (.inr (.inl ⟨by omega, by omega, s.inBase, s.inLen, s.outBase, v, s.frameOffset, s.frameCount, s.blkAddr,
        s.blkArgs, s.chSel, rfl⟩))
    · exact .inr (.inr (.inl ⟨by omega, by omega, s.inBase, s.inLen, s.outBase, s.outLen, v, s.frameCount, s.blkAddr,
        s.blkArgs, s.chSel, rfl⟩))
    · exact .inr (.inr (.inl ⟨by omega, by omega, s.inBase, s.inLen, s.outBase, s.outLen, s.frameOffset, v.setWidth 32,
        s.blkAddr, s.blkArgs, s.chSel, rfl⟩))
    · exact .inr (.inr (.inl ⟨by omega, by omega, s.inBase, s.inLen, s.outBase, s.outLen, s.frameOffset, s.frameCount, v,
        s.blkArgs, s.chSel, rfl⟩))
    · exact .inr (.inr (.inl ⟨by omega, by omega, s.inBase, s.inLen, s.outBase, s.outLen, s.frameOffset, s.frameCount,
        s.blkAddr, BlkArgs.ofWord v, s.chSel, rfl⟩))
    · exact .inr (.inr (.inl ⟨by omega, by omega, s.inBase, s.inLen, s.outBase, s.outLen, s.frameOffset, s.frameCount,
        s.blkAddr, s.blkArgs, v.setWidth 16, rfl⟩))
    · exact .inr (.inl ⟨rfl, rfl⟩)
  · exact .inr (.inr (.inr (writeReg_ge v s (by omega))))

/-- The CH_STATE window of an entry whose index fits it, as a number (10_state.md R35). -/
theorem ChannelState.window_toNat (c : ChannelState) (h : c.index < 128) :
    c.window.toNat = c.index + (BitVec.ofInt 16 c.predictor).toNat * 65536 := by
  rw [ChannelState.window, BitVec.toNat_append, BitVec.toNat_append, BitVec.toNat_append]
  simp only [BitVec.toNat_ofNat, Nat.shiftLeft_eq]
  have := (BitVec.ofInt 16 c.predictor).isLt
  generalize (BitVec.ofInt 16 c.predictor).toNat = p at *
  rw [show c.index % 2 ^ 7 = c.index by omega, show 0 % 2 ^ 32 * 2 ^ 16 ||| p = p by simp,
    show p * 2 ^ 9 ||| 0 % 2 ^ 9 = p * 2 ^ 9 by simp, ← Nat.shiftLeft_eq, ← Nat.shiftLeft_add_eq_or_of_lt (by omega),
    Nat.shiftLeft_eq]
  omega

/-- Everything one access of the host can do (70_reset_and_hazards.md R244 to R246): a dropped write, a register write, a
register read, a hazard, or an access to IN or OUT. -/
theorem hostAccess_next {a : HostAccess} {s t : State} (h : hostAccess a s = .next t) :
    (∃ i v, a = .regWrite i v ∧ s.status.busy = true ∧ t = { s with status := s.status.overran }) ∨
    (∃ i v, a = .regWrite i v ∧ s.status.busy = false ∧ t = writeReg i v s) ∨
    (∃ i, a = .regRead i ∧ t = hostRegRead i s) ∨
    (s.status.busy = true ∧ t = recordHazard s) ∨
    (∃ addr b, a = .inWrite addr b ∧ s.status.busy = false ∧ addr < s.params.inSize ∧ t = s.storeIn addr b) ∨
    (∃ addr, a = .inRead addr ∧ t = s.note (.inByte addr (s.inByte addr))) ∨
    (∃ e v, a = .outWrite e v ∧ s.status.busy = false ∧ e < s.params.outSize ∧
      t = s.storeOut e (elementBits s.params.outFmt v)) ∨
    (∃ e, a = .outRead e ∧ s.status.busy = false ∧ t = s.note (.outElem e (s.outElem e))) := by
  cases hb : s.status.busy <;> cases a <;>
    simp only [hostAccess, hostRegWrite, hb, Bool.false_eq_true, if_true, if_false] at h <;>
    (try split_ifs at h) <;> cases h <;> simp_all

/-- A register read leaves everything but what the host keeps and the draw counter. -/
theorem hostRegRead_frame (i : Nat) (s : State) :
    ∃ v n, hostRegRead i s = { s.note (.reg i v) with draws := n } ∧ (i = 1 → v = s.status.word) := by
  unfold hostRegRead
  split
  · next h => exact ⟨_, _, rfl, fun hi => absurd hi h.2.1⟩
  · exact ⟨s.regValue i, s.draws, rfl, fun hi => by subst hi; rfl⟩

end Sys2Proof.Machine
end

