-- ==== Sys2Proof/Laws/Invariant.lean ====
section
/-! SUPPORT. Every operation over the state keeps the invariant, the canonical form of the memories among it. -/

namespace Sys2Proof.Machine

/-- A stored byte of IN keeps the canonical form. -/
theorem State.storeIn_wf {s : State} (h : Memory.wf s.inMem) (a : Nat) (b : Byte) : Memory.wf (s.storeIn a b).inMem :=
  Memory.wf_write h

/-- Stored bytes of IN keep the canonical form. -/
theorem State.storeInBytes_wf {s : State} (h : Memory.wf s.inMem) (a : Nat) (bytes : List Byte) :
    Memory.wf (State.storeInBytes a bytes s).inMem := by
  induction bytes generalizing a s with
  | nil => exact h
  | cons b rest ih => exact ih (State.storeIn_wf h a b) (a + 1)

/-- A stored element of OUT keeps the canonical form. -/
theorem State.storeOut_wf {s : State} (h : Memory.wf s.outMem) (e : Nat) (v : Word32) :
    Memory.wf (s.storeOut e v).outMem :=
  Memory.wf_write h

/-- The memories after power-on are in canonical form. -/
theorem State.resetWith_wf (p : Params) : Memory.wf (State.resetWith p).inMem ∧ Memory.wf (State.resetWith p).outMem :=
  ⟨List.Pairwise.nil, List.Pairwise.nil⟩

/-- A sample's pattern has the width of OUT's elements (20_memory.md R61). -/
theorem elementBits_sampleBits (f : OutFmt) (v : Int) : elementBits f (sampleBits f v) = sampleBits f v := by
  cases f with
  | pcm16 =>
    simp only [elementBits, sampleBits, pcm16Bits]
    ext i hi
    by_cases h : i < 16
    · simp [h, hi]
    · simp [BitVec.getLsbD_of_ge _ _ (Nat.le_of_not_lt h)]
  | float32 => rfl

theorem elementBits_idem (f : OutFmt) (v : Word32) : elementBits f (elementBits f v) = elementBits f v := by
  cases f with
  | pcm16 =>
    simp only [elementBits]
    ext i hi
    by_cases h : i < 16 <;> simp [h, hi]
  | float32 => rfl

/-- The invariant of an idle state, as one condition that a given state can be checked against. -/
theorem State.Inv.of_idle {s : State} (hr : s.run = .idle)
    (h : (s.params.valid ∧ s.ch.length = s.params.maxChannels ∧ (∀ c ∈ s.ch, c.legal)) ∧
      (Memory.wf s.inMem ∧ Memory.wf s.outMem ∧ (∀ x ∈ s.inMem, x.1 < s.params.inSize) ∧
        (∀ x ∈ s.outMem, x.1 < s.params.outSize) ∧ ∀ x ∈ s.outMem, elementBits s.params.outFmt x.2 = x.2) ∧
      s.siBlockBase.toNat + s.siBlockSize.toNat ≤ s.params.inSize ∧ s.siFrameCount.toNat < 2 ^ 63) : s.Inv where
  params := h.1.1
  chLength := h.1.2.1
  chLegal := h.1.2.2
  inWf := h.2.1.1
  outWf := h.2.1.2.1
  inBound := h.2.1.2.2.1
  outBound := h.2.1.2.2.2.1
  outWidth := h.2.1.2.2.2.2
  blocksInIn := h.2.2.1
  frames := h.2.2.2
  run := hr ▸ trivial

theorem inv_storeOut {s : State} (h : s.Inv) {e : Nat} {v : Word32} (he : e < s.params.outSize)
    (hv : elementBits s.params.outFmt v = v) : (s.storeOut e v).Inv := by
  refine ⟨h.1, h.2, h.3, h.4, Memory.wf_write h.5, h.6, ?_, ?_, h.9, h.10, h.11⟩
  · intro x hx
    rcases Memory.mem_write hx with rfl | hx
    · exact he
    · exact h.7 x hx
  · intro x hx
    rcases Memory.mem_write hx with rfl | hx
    · exact hv
    · exact h.8 x hx

theorem inv_storeIn {s : State} (h : s.Inv) {a : Nat} {b : Byte} (ha : a < s.params.inSize) : (s.storeIn a b).Inv := by
  refine ⟨h.1, h.2, h.3, Memory.wf_write h.4, h.5, ?_, h.7, h.8, h.9, h.10, h.11⟩
  intro x hx
  rcases Memory.mem_write hx with rfl | hx
  · exact ha
  · exact h.6 x hx

theorem inv_withRun {s : State} (h : s.Inv) {r : Run} (hr : r.legal s.params.inSize) : (s.withRun r).Inv :=
  ⟨h.1, h.2, h.3, h.4, h.5, h.6, h.7, h.8, h.9, h.10, hr⟩

theorem inv_setChannel {s : State} (h : s.Inv) {c : Nat} {v : ChannelState} (hv : v.legal) :
    (s.setChannel c v).Inv := by
  refine ⟨h.1, by simp [State.setChannel, h.2], ?_, h.4, h.5, h.6, h.7, h.8, h.9, h.10, h.11⟩
  intro x hx
  rcases List.mem_or_eq_of_mem_set hx with hx | rfl
  · exact h.3 x hx
  · exact hv

theorem inv_zeroChannels {s : State} (h : s.Inv) : s.zeroChannels.Inv := by
  refine ⟨h.1, by simp [State.zeroChannels], ?_, h.4, h.5, h.6, h.7, h.8, h.9, h.10, h.11⟩
  intro c hc
  obtain ⟨-, rfl⟩ := List.mem_replicate.1 hc
  decide

theorem inv_raise {s : State} (h : s.Inv) (e : ErrCode) : (s.raise e).Inv :=
  ⟨h.1, h.2, h.3, h.4, h.5, h.6, h.7, h.8, h.9, h.10, trivial⟩

theorem inv_raiseParse {s : State} (h : s.Inv) (e : ErrCode) : (s.raiseParse e).Inv :=
  ⟨h.1, h.2, h.3, h.4, h.5, h.6, h.7, h.8, h.9, h.10, trivial⟩

theorem inv_complete {s : State} (h : s.Inv) : s.complete.Inv :=
  ⟨h.1, h.2, h.3, h.4, h.5, h.6, h.7, h.8, h.9, h.10, trivial⟩

theorem inv_finishDecode {s : State} (h : s.Inv) : (finishDecode s).Inv :=
  ⟨h.1, h.2, h.3, h.4, h.5, h.6, h.7, h.8, h.9, h.10, trivial⟩

theorem inv_dropTurn {s : State} (h : s.Inv) : (dropTurn s).Inv :=
  ⟨h.1, h.2, h.3, h.4, h.5, h.6, h.7, h.8, h.9, h.10, h.11⟩

/-- A successful PARSE keeps the invariant when its block array lies in IN and its frame count is not negative. -/
theorem inv_parseSuccess {s : State} (h : s.Inv) (d : DescFields) {f : Word64} {b : DataFields}
    (hb : b.base + b.size ≤ s.params.inSize) (hf : 0 ≤ f.toInt) : (s.parseSuccess d f b).Inv := by
  have z := inv_zeroChannels h
  refine ⟨z.1, z.2, z.3, z.4, z.5, z.6, z.7, z.8, ?_, ?_, trivial⟩
  · show (BitVec.ofNat 64 b.base).toNat + (BitVec.ofNat 64 b.size).toNat ≤ s.params.inSize
    simp only [BitVec.toNat_ofNat]
    have := Nat.mod_le b.base (2 ^ 64)
    have := Nat.mod_le b.size (2 ^ 64)
    omega
  · show f.toNat < 2 ^ 63
    rw [BitVec.toInt_eq_toNat_cond] at hf
    have := f.isLt
    split at hf <;> omega

/-- Every entry read is in its ranges. -/
theorem channel_legal {s : State} (h : s.Inv) (c : Nat) : (s.channel c).legal := by
  rw [State.channel]
  by_cases hc : c < s.ch.length
  · rw [List.getD_eq_getElem _ _ hc]
    exact h.3 _ (List.getElem_mem hc)
  · rw [List.getD_eq_default _ _ (by omega)]
    decide

/-- A block starts in its ranges. -/
theorem startBlock_legal {s : State} (h : s.Inv) (a : BlockArgs) {p : Word16} (hp : preambleIndex p ≤ 88) :
    (startBlock a p (s.channel a.chan)).legal := by
  refine ⟨hp, ?_, rfl⟩
  have := (channel_legal h a.chan).2
  simp only [startBlock, startPred]
  split
  · exact this
  · have h1 := BitVec.toInt_lt (x := (p.extractLsb' 7 9 ++ 0#7 : BitVec 16))
    have h2 := BitVec.le_toInt (x := (p.extractLsb' 7 9 ++ 0#7 : BitVec 16))
    simp only [preambleSeed, predInRange]
    exact ⟨by simpa using h2, by simp_all; omega⟩

theorem inv_nextCode {s t : State} (h : s.Inv) (ht : nextCode s = .next t) : t.Inv := by
  obtain ⟨b, -, he⟩ := nextCode_next ht
  obtain ⟨b, -, hlt, rfl⟩ := applyCode_next he
  exact inv_withRun (inv_storeOut h hlt (elementBits_sampleBits _ _)) (b.legal_afterCode _)

theorem inv_runCodes (m : Nat) {s t : State} (h : s.Inv) (ht : runCodes m s = .next t) : t.Inv := by
  induction m generalizing s with
  | zero =>
    cases ht
    exact h
  | succ m ih =>
    obtain ⟨u, hu, ht⟩ := andThen_eq_next ht
    exact ih (inv_nextCode h hu) ht

theorem inv_storeBack {s : State} (h : s.Inv) : (storeBack s).Inv := by
  unfold storeBack
  split
  · next b hb =>
    have := h.11
    rw [hb] at this
    exact inv_withRun (inv_setChannel h ⟨this.1, this.2.1⟩) trivial
  · exact h
  · exact h

end Sys2Proof.Machine
end

