-- ==== Sys2Proof/Laws/PerInstr.lean ====
section
/-! SUPPORT. Statements made per instruction, about the instruction as syntax. -/

namespace Sys2Proof.Laws

/-- The form an instruction's encoding has: a command's word has no reserved bit (30_encoding.md R80, R82), a code is the
4 bits of its sign and magnitude (R93), a chunk header is 12 bytes (R84). -/
def EncodedForm.Statement (i : Instr) : Prop :=
  match encode i with
  | .command w => w.toNat < 5
  | .code c => decodeCode c = i
  | .chunkHeader bytes => bytes.length = 12

theorem EncodedForm.nop : EncodedForm.Statement .nop := by
  simp [EncodedForm.Statement, encode]

theorem EncodedForm.parse : EncodedForm.Statement .parse := by
  simp [EncodedForm.Statement, encode]

theorem EncodedForm.decode : EncodedForm.Statement .decode := by
  simp [EncodedForm.Statement, encode]

theorem EncodedForm.decodeBlock : EncodedForm.Statement .decodeBlock := by
  simp [EncodedForm.Statement, encode]

theorem EncodedForm.resetState : EncodedForm.Statement .resetState := by
  simp [EncodedForm.Statement, encode]

theorem EncodedForm.codeP0 : EncodedForm.Statement .codeP0 := rfl

theorem EncodedForm.codeP1 : EncodedForm.Statement .codeP1 := rfl

theorem EncodedForm.codeP2 : EncodedForm.Statement .codeP2 := rfl

theorem EncodedForm.codeP3 : EncodedForm.Statement .codeP3 := rfl

theorem EncodedForm.codeP4 : EncodedForm.Statement .codeP4 := rfl

theorem EncodedForm.codeP5 : EncodedForm.Statement .codeP5 := rfl

theorem EncodedForm.codeP6 : EncodedForm.Statement .codeP6 := rfl

theorem EncodedForm.codeP7 : EncodedForm.Statement .codeP7 := rfl

theorem EncodedForm.codeN0 : EncodedForm.Statement .codeN0 := rfl

theorem EncodedForm.codeN1 : EncodedForm.Statement .codeN1 := rfl

theorem EncodedForm.codeN2 : EncodedForm.Statement .codeN2 := rfl

theorem EncodedForm.codeN3 : EncodedForm.Statement .codeN3 := rfl

theorem EncodedForm.codeN4 : EncodedForm.Statement .codeN4 := rfl

theorem EncodedForm.codeN5 : EncodedForm.Statement .codeN5 := rfl

theorem EncodedForm.codeN6 : EncodedForm.Statement .codeN6 := rfl

theorem EncodedForm.codeN7 : EncodedForm.Statement .codeN7 := rfl

theorem EncodedForm.chunkDesc (size : Word64) : EncodedForm.Statement (.chunkDesc size) := by
  simp [EncodedForm.Statement, encode, chunkHeaderBytes]

theorem EncodedForm.chunkPakt (size : Word64) : EncodedForm.Statement (.chunkPakt size) := by
  simp [EncodedForm.Statement, encode, chunkHeaderBytes]

theorem EncodedForm.chunkData (size : Word64) : EncodedForm.Statement (.chunkData size) := by
  simp [EncodedForm.Statement, encode, chunkHeaderBytes]

theorem EncodedForm.chunkOther (tag : Word32) (size : Word64) : EncodedForm.Statement (.chunkOther tag size) := by
  simp [EncodedForm.Statement, encode, chunkHeaderBytes]

end Sys2Proof.Laws
end

