-- ==== Sys2Proof/Tests/Slice0.lean ====
section
/-! SUPPORT. The model's own tests: the refusals of WellFormed, words written out from the encodings of the spec,
single steps with the values of 95_test_vectors.md, and for every statement with hypotheses a witness that meets them. -/

namespace Sys2Proof.Tests

open Sys2Proof Sys2Proof.Machine

set_option Elab.async false

/-! ### WellFormed: ill-formed terms are refused -/

theorem test_wf_other_with_tag_desc : (Instr.chunkOther 0x64657363#32 0#64).wellFormed = false := by decide
theorem test_wf_other_with_tag_pakt : (Instr.chunkOther 0x70616B74#32 0#64).wellFormed = false := by decide
theorem test_wf_other_with_tag_data : (Instr.chunkOther 0x64617461#32 0#64).wellFormed = false := by decide
theorem test_wf_other_with_free_tag : (Instr.chunkOther 0x66726565#32 6#64).wellFormed = true := by decide

/-! ### Decoding: words from the tables of 30_encoding.md R81, R93, R84 and R85 -/

theorem test_decode_commands :
    [0x0#64, 0x1#64, 0x2#64, 0x3#64, 0x4#64].map decodeCommand =
      [.ok .nop, .ok .parse, .ok .decode, .ok .decodeBlock, .ok .resetState] := by decide

theorem test_decode_illegal_commands :
    [0x5#64, 0xF#64, 0x10#64, 0x8000000000000001#64].map decodeCommand =
      [.error .reservedOp, .error .reservedOp, .error .reservedBits, .error .reservedBits] := by decide

theorem test_decode_codes_that_add :
    [0b0000#4, 0b0001#4, 0b0010#4, 0b0011#4, 0b0100#4, 0b0101#4, 0b0110#4, 0b0111#4].map decodeCode =
      [.codeP0, .codeP1, .codeP2, .codeP3, .codeP4, .codeP5, .codeP6, .codeP7] := by decide

theorem test_decode_codes_that_subtract :
    [0b1000#4, 0b1001#4, 0b1010#4, 0b1011#4, 0b1100#4, 0b1101#4, 0b1110#4, 0b1111#4].map decodeCode =
      [.codeN0, .codeN1, .codeN2, .codeN3, .codeN4, .codeN5, .codeN6, .codeN7] := by decide

/-- 'desc' with size 32. -/
theorem test_decode_desc :
    decodeChunkHeader [0x64#8, 0x65#8, 0x73#8, 0x63#8, 0, 0, 0, 0, 0, 0, 0, 0x20#8] = .ok (.chunkDesc 32#64) := by decide

/-- 'pakt' with size 24. -/
theorem test_decode_pakt :
    decodeChunkHeader [0x70#8, 0x61#8, 0x6B#8, 0x74#8, 0, 0, 0, 0, 0, 0, 0, 0x18#8] = .ok (.chunkPakt 24#64) := by decide

/-- 'data' with size -1. -/
theorem test_decode_data :
    decodeChunkHeader ([0x64#8, 0x61#8, 0x74#8, 0x61#8] ++ List.replicate 8 0xFF#8) =
      .ok (.chunkData 0xFFFFFFFFFFFFFFFF#64) := by decide

/-- 'free' with size 0x0102030405060708: every byte of the size in its place. -/
theorem test_decode_other :
    decodeChunkHeader [0x66#8, 0x72#8, 0x65#8, 0x65#8, 1, 2, 3, 4, 5, 6, 7, 8] =
      .ok (.chunkOther 0x66726565#32 0x0102030405060708#64) := by decide

theorem test_decode_short_header : decodeChunkHeader [0x64#8, 0x65#8, 0x73#8] = .error .headerLength := by decide

/-- The low nibble of a byte is the even code, the high nibble the odd one (30_encoding.md R94). -/
theorem test_nibbles : nibbleOf 0 0x34#8 = 0x4#4 ∧ nibbleOf 1 0x34#8 = 0x3#4 := by decide

/-- The table's words, and 'data' with size 5 in the 96-bit layout. -/
theorem test_table_words :
    decodeTableWord 64 3 = some .decodeBlock ∧ decodeTableWord 64 16 = none ∧ decodeTableWord 8 0xA = some .codeN2 ∧
    decodeTableWord 4 0x7 = some .codeP7 ∧ decodeTableWord 32 0x64657363 = some (.chunkDesc 0) ∧
    decodeTableWord 96 0x0000000000000005_64617461 = some (.chunkData 5) := by decide

/-! ### Small states -/

/-- A small instance: two channels, 172 bytes of IN, 128 elements of OUT. -/
def smallParams : Params :=
  { outFmt := .pcm16, streamMode := .stateful, maxChannels := 2, inSize := 172, outSize := 128, outByteOrder := .little }

/-- The small instance after power-on. -/
def small : State := State.resetWith smallParams

/-- The small instance with these bytes at IN address 0 on. -/
def smallWith (bytes : List Byte) : State := State.storeInBytes 0 bytes small

/-- A command word is pending. -/
def pendingWord (w : Word64) (s : State) : State := { s with pending := w, status := s.status.started }

/-- A turn is next. -/
def turnNext (t : Turn) (s : State) : State := { s with schedule := [t] }

/-- A one-code block whose sample goes to element 127. -/
def codeRun (pred : Int) (index : Nat) : BlockRun :=
  { outBase := 127, stride := 1, addr := 0, count := 1, chan := 0, blockNo := 0, k := 0, pred := pred, index := index,
    step := stepAt index }

/-- A one-code block at element 127, the last of OUT, with this running state. -/
def codeState (pred : Int) (index : Nat) : State :=
  { small with run := .block (codeRun pred index) }

/-- The sample written and the new index, after an instruction of the code format. -/
def codeResult (i : Instr) (pred : Int) (index : Nat) : Option (Word32 × Nat) :=
  match exec i (codeState pred index) with
  | .next t => match t.run with
    | .block b => some (t.outElem 127, b.index)
    | .idle | .walk _ => none
  | .fault _ | .refused _ => none

/-- The first 104 bytes of container F1 (95_test_vectors.md section 2): everything before its blocks. -/
def f1Bytes : List Byte :=
  [0x63, 0x61, 0x66, 0x66, 0x00, 0x01, 0x00, 0x00, 0x64, 0x65, 0x73, 0x63, 0x00, 0x00, 0x00, 0x00] ++
  [0x00, 0x00, 0x00, 0x20, 0x40, 0xe5, 0x88, 0x80, 0x00, 0x00, 0x00, 0x00, 0x69, 0x6d, 0x61, 0x34] ++
  [0x00, 0x00, 0x00, 0x00, 0x00, 0x00, 0x00, 0x22, 0x00, 0x00, 0x00, 0x40, 0x00, 0x00, 0x00, 0x01] ++
  [0x00, 0x00, 0x00, 0x00, 0x70, 0x61, 0x6b, 0x74, 0x00, 0x00, 0x00, 0x00, 0x00, 0x00, 0x00, 0x18] ++
  [0x00, 0x00, 0x00, 0x00, 0x00, 0x00, 0x00, 0x02, 0x00, 0x00, 0x00, 0x00, 0x00, 0x00, 0x00, 0x80] ++
  [0x00, 0x00, 0x00, 0x00, 0x00, 0x00, 0x00, 0x00, 0x64, 0x61, 0x74, 0x61, 0x00, 0x00, 0x00, 0x00] ++
  [0x00, 0x00, 0x00, 0x48, 0x00, 0x00, 0x00, 0x00]

/-- F1 in IN, its length in IN_LEN, and element 3 of CH set so that PARSE's reset of CH is seen. -/
def f1 : State := { smallWith f1Bytes with inLen := 172, ch := [{ index := 3, predictor := 9 }, ChannelState.zero] }

/-- Block A (95_test_vectors.md section 2): preamble 0, then 0x34 in every code byte; 3 bytes are enough for 2 codes. -/
def blockA : List Byte := [0x00, 0x00, 0x34, 0x34]

/-- DECODE_BLOCK of the block at 0: (COUNT, CHANNEL, STRIDE), an output window of `len` elements at 0. -/
def blockCall (bytes : List Byte) (count : BitVec 7) (channel : BitVec 16) (stride : BitVec 32) (len : Word64) : State :=
  { smallWith bytes with blkArgs := { count := count, channel := channel, stride := stride }, outLen := len }

/-- A parsed stream of `chans` channels whose block array is the 136 bytes at 0. -/
def stream (bytes : List Byte) (chans frames : Word32) : State :=
  { smallWith bytes with
    status := Status.zero.parseDone, siBlockSize := 136, siFrameCount := 128, siChannelCount := chans
    frameCount := frames, outLen := 128 }

/-- Read a fact off an outcome that is a next state. -/
def nextHas (o : Result) (p : State → Bool) : Bool :=
  match o with
  | .next t => p t
  | .fault _ | .refused _ => false

/-- Both outcomes are next states, and the same. -/
def sameNext (o o' : Result) : Bool := nextHas o fun t => nextHas o' fun t' => t == t'

theorem nextHas_exists {o : Result} {p : State → Bool} (h : nextHas o p = true) : ∃ t, o = .next t ∧ p t = true := by
  cases o with
  | next t => exact ⟨t, rfl, h⟩
  | fault f => cases h
  | refused r => cases h

/-! ### Single steps, with the values of 95_test_vectors.md -/

/-- Section 3.1, at index 40. -/
theorem test_codes_that_add_at_40 :
    [Instr.codeP0, .codeP1, .codeP2, .codeP3, .codeP4, .codeP5, .codeP6, .codeP7].map (fun i => codeResult i 0 40) =
      [some (42, 39), some (126, 39), some (210, 39), some (294, 39), some (379, 42), some (463, 44), some (547, 46),
        some (631, 48)] := by decide +kernel

/-- Section 3.1, at index 40: the patterns of -42, -126, -210, -294, -379, -463, -547, -631. -/
theorem test_codes_that_subtract_at_40 :
    [Instr.codeN0, .codeN1, .codeN2, .codeN3, .codeN4, .codeN5, .codeN6, .codeN7].map (fun i => codeResult i 0 40) =
      [some (65494, 39), some (65410, 39), some (65326, 39), some (65242, 39), some (65157, 42), some (65073, 44),
        some (64989, 46), some (64905, 48)] := by decide +kernel

/-- Section 3.2: V-CLAMP-1, V-CLAMP-2, V-CLAMP-5, V-CLAMP-6. -/
theorem test_code_clamps :
    codeResult .codeP7 32000 88 = some (32767, 88) ∧ codeResult .codeN7 (-32000) 88 = some (32768, 88) ∧
    codeResult .codeN4 (-3) 1 = some (65524, 3) ∧ codeResult .codeP0 32767 88 = some (32767, 87) := by decide +kernel

/-- Section 3.3: the seeds of 0x8058, 0x7FD8, 0x1234 and 0xFF80, and the index of 0x1234. -/
theorem test_preambles :
    preambleSeed 0x8058#16 = -32768 ∧ preambleSeed 0x7FD8#16 = 32640 ∧ preambleSeed 0x1234#16 = 4608 ∧
    preambleSeed 0xFF80#16 = -128 ∧ preambleIndex 0x1234#16 = 52 := by decide

/-- Section 3.6. -/
theorem test_float32 :
    [32767, -32768, 0, 1, -1, 513, 517, 3204, 32672].map float32Bits =
      [0x3F800000, 0xBF800100, 0x00000000, 0x38000100, 0xB8000100, 0x3C804100, 0x3C814102, 0x3DC84190, 0x3F7F41FE] := by
  decide +kernel

/-- V-BLK-O5 with stride 2 (section 3.7's last row, from element 0). -/
theorem test_decodeBlock_O5 :
    nextHas (exec .decodeBlock (blockCall [0x00, 0x00, 0x21, 0x43, 0x65] 5 0 2 9)) (fun t =>
      t.outMem == [(0, 1), (2, 4), (4, 8), (6, 15), (8, 27)] && t.ch == [⟨6, 27⟩, ⟨0, 0⟩] && t.status.word == 0) = true := by
  decide +kernel

/-- V-BLK-X's preamble: BAD_INDEX, and STATUS from reset is 0x418. -/
theorem test_decodeBlock_badIndex :
    nextHas (exec .decodeBlock (blockCall [0x0C, 0xFF] 64 0 1 64)) (fun t =>
      t.outMem == [] && t.ch == small.ch && t.status.word == 0x418#64) = true := by decide +kernel

/-- Block A's first two samples through DECODE: 7 and 14, and {1, 14} after them. -/
theorem test_decode_A2 :
    nextHas (exec .decode (stream blockA 1 2)) (fun t =>
      t.outMem == [(0, 7), (1, 14)] && t.ch == [⟨1, 14⟩, ⟨0, 0⟩] && t.nextFrame == 2 && t.decoded == 2) = true := by
  decide +kernel

/-- V-DEC-N0a: no frames. -/
theorem test_decode_no_frames :
    nextHas (exec .decode (stream blockA 1 0)) (fun t =>
      t.outMem == [] && t.ch == small.ch && t.nextFrame == 0 && t.status.word == 0x200#64) = true := by decide +kernel

/-- V-PA-1. -/
theorem test_parse_F1 :
    nextHas (exec .parse f1) (fun t =>
      t.siBlockBase == 104 && t.siBlockSize == 68 && t.siFrameCount == 128 && t.siChannelCount == 1 &&
        t.siSampleRate == 0x40E5888000000000#64 && t.status.word == 0x200#64 &&
        t.ch == [ChannelState.zero, ChannelState.zero]) = true := by decide +kernel

/-- V-PA-11: three bytes are no magic. -/
theorem test_parse_short :
    nextHas (exec .parse { smallWith [0x63, 0x61, 0x66] with inLen := 3 }) (fun t => t.status.word == 0x401#64) = true := by
  decide +kernel

theorem test_nop :
    nextHas (exec .nop (pendingWord 0 small)) (fun t => t == { small with status := Status.zero }) = true := by
  decide +kernel

theorem test_resetState :
    nextHas (exec .resetState { f1 with frameOffset := 64, decoded := 5 })
      (fun t => t == { smallWith f1Bytes with inLen := 172, frameOffset := 64, nextFrame := 64 }) = true := by
  decide +kernel

/-- A walk over F1 from its first chunk. -/
def freshWalk (cursor bufEnd : Nat) : WalkRun :=
  { cursor := cursor, bufEnd := bufEnd, desc := none, pakt := none, data := none }

/-- F1 in IN, with that walk in progress. -/
def f1Walk (cursor bufEnd : Nat) : State := { smallWith f1Bytes with run := .walk (freshWalk cursor bufEnd) }

/-- The walk after one chunk. -/
def walkOf (o : Result) : Option WalkRun :=
  match o with
  | .next t => match t.run with
    | .walk w => some w
    | .idle | .block _ => none
  | .fault _ | .refused _ => none

/-- F1's desc chunk: 44100.0 and one channel. -/
theorem test_chunkDesc :
    walkOf (exec (.chunkDesc 32) (f1Walk 8 172)) =
      some { freshWalk 52 172 with desc := some { rate := 0x40E5888000000000#64, chans := 1 } } := by decide +kernel

/-- F1's pakt chunk: 128 frames. -/
theorem test_chunkPakt :
    walkOf (exec (.chunkPakt 24) (f1Walk 52 172)) =
      some { freshWalk 88 172 with pakt := some 128 } := by decide +kernel

/-- F1's data chunk, with its size and with -1 (V-PA-9). -/
theorem test_chunkData :
    walkOf (exec (.chunkData 72) (f1Walk 88 172)) = walkOf (exec (.chunkData (-1)) (f1Walk 88 172)) ∧
    walkOf (exec (.chunkData 72) (f1Walk 88 172)) =
      some { freshWalk 172 172 with data := some { base := 104, size := 68 } } := by
  decide +kernel

/-- A 6-byte chunk of another tag is skipped (V-PA-15); one past the buffer is CORRUPT. -/
theorem test_chunkOther :
    walkOf (exec (.chunkOther 0x66726565#32 6) (f1Walk 8 172)) =
      some (freshWalk 26 172) ∧
    nextHas (exec (.chunkOther 0x66726565#32 153) (f1Walk 8 172)) (fun t => t.status.word == 0x405#64) = true := by
  decide +kernel

/-- Each format placed where the next step takes it, from reset: the step is exec of it. -/
theorem test_placed_words :
    sameNext (step (State.reset.withFetchWord 64 4)) (exec .resetState (State.reset.withFetchWord 64 4)) = true ∧
    sameNext (step (State.reset.withFetchWord 8 0xD)) (exec .codeN5 (State.reset.withFetchWord 8 0xD)) = true ∧
    sameNext (step (State.reset.withFetchWord 32 0x66726565))
      (exec (.chunkOther 0x66726565#32 0) (State.reset.withFetchWord 32 0x66726565)) = true := by decide +kernel

/-- A host program: NOP through CMD, a WAIT, a read of STATUS (30_encoding.md R98). -/
theorem test_host_program :
    hostProgram [.run 0, .get 1] = [.host (.regWrite 0 0), .wait, .host (.regRead 1)] := by decide

/-- BLKARGS 5, 0, 2 and CHSTATE 1, 0x58, -1, from their expansions (30_encoding.md R99). -/
theorem test_host_pseudo_instructions :
    hostProgram [.blkArgs 5 0 2, .chState 1 0x58 (-1)] =
      [.host (.regWrite 10 0x0000000200000005#64), .host (.regWrite 11 1#64),
        .host (.regWrite 12 0x00000000FFFF0058#64)] := by decide

/-- The run's end needs a read of BUSY = 0 after the last command (70_reset_and_hazards.md R255). -/
theorem test_run_end :
    (State.ended { small with history := [.command 0 0 0] } = false) ∧
    (State.ended { small with history := [.reg 1 0, .command 0 0 0] } = true) ∧
    (State.ended { small with history := [.command 0 0 0, .reg 1 0] } = false) ∧
    State.ended { small with history := [.reg 1 0x100, .command 0 0 0] } = false := by decide +kernel

/-- The windows of DECODE and DECODE_BLOCK are observed, cut to the elements that exist, oldest first. -/
theorem test_observed_windows :
    State.windowElems { small with history := [.command 0 9 9, .command 3 126 5, .reg 1 0, .command 2 3 2] } =
      [3, 4, 126, 127] := by decide +kernel

/-! ### Witnesses: concrete states that meet the hypotheses of each statement -/

theorem witness_DecodeOfEncode :
    (Instr.chunkOther 0x66726565#32 6#64).wellFormed = true ∧ (Instr.codeN7).wellFormed = true := by decide

theorem witness_EncodeOfDecode :
    decode (.code 0xF#4) = .ok .codeN7 ∧ decode (.command 4#64) = .ok .resetState := by decide

theorem witness_IllegalCommandWords :
    (pendingWord 5 small).hostHazard = false ∧ (pendingWord 5 small).run = .idle ∧ (pendingWord 5 small).schedule = [] ∧
    (pendingWord 5 small).status.busy = true ∧ 5 ≤ (pendingWord 5 small).pending.toNat % 16 ∧
    5 ≤ (pendingWord 15 small).pending.toNat % 16 ∧ (pendingWord 16 small).pending.toNat / 16 ≠ 0 := by decide +kernel

/-- The same with the core's turn first, and with a WAIT first. -/
theorem witness_IllegalCommandWords_turns :
    (turnNext .core (pendingWord 5 small)).schedule = .core :: [] ∧
    (turnNext .wait (pendingWord 16 small)).schedule = .wait :: [] ∧
    (turnNext .wait (pendingWord 16 small)).status.busy = true ∧
    (turnNext .wait (pendingWord 16 small)).pending.toNat / 16 ≠ 0 := by decide +kernel

theorem witness_StepIsExec_core :
    (turnNext .core (pendingWord 4 small)).hostHazard = false ∧ (turnNext .core (pendingWord 4 small)).run = .idle ∧
    (turnNext .core (pendingWord 4 small)).schedule = .core :: [] ∧
    (turnNext .core (pendingWord 4 small)).status.busy = true ∧
    decodeCommand (turnNext .core (pendingWord 4 small)).pending = .ok .resetState := by decide +kernel

theorem witness_StepIsExec_idle :
    small.hostHazard = false ∧ small.run = .idle ∧ small.schedule = [] ∧ small.status.busy = false := by decide +kernel

theorem witness_StepIsExec_wait :
    (turnNext .wait (pendingWord 0 small)).schedule = .wait :: [] ∧
    (turnNext .wait (pendingWord 0 small)).status.busy = true ∧ (turnNext .wait small).status.busy = false ∧
    decodeCommand (turnNext .wait (pendingWord 0 small)).pending = .ok .nop ∧
    (turnNext .wait small).hostHazard = false ∧ (turnNext .wait small).run = .idle := by decide +kernel

theorem witness_StepInsideABlock :
    (codeState 0 88).hostHazard = false ∧ (codeState 0 88).run = .block (codeRun 0 88) ∧
    (codeRun 0 88).k < (codeRun 0 88).count ∧
    (codeRun 0 88).addr + 2 + (codeRun 0 88).k / 2 < (codeState 0 88).params.inSize := by decide +kernel

/-- Each clause at its boundary: no byte left, 11 left, 12 left. -/
theorem witness_StepInsideAWalk :
    (f1Walk 172 172).run = .walk (freshWalk 172 172) ∧ (f1Walk 172 172).hostHazard = false ∧
    (freshWalk 172 172).bufEnd ≤ (f1Walk 172 172).params.inSize ∧ (freshWalk 172 172).cursor = (freshWalk 172 172).bufEnd ∧
    (freshWalk 161 172).cursor < (freshWalk 161 172).bufEnd ∧
    (freshWalk 161 172).bufEnd < (freshWalk 161 172).cursor + 12 ∧
    (freshWalk 160 172).cursor + 12 ≤ (freshWalk 160 172).bufEnd := by decide +kernel

theorem witness_ConfigShowsTheParameters :
    smallParams.valid ∧ ∃ t, step (pendingWord 0 small) = .next t ∧ (t.status.busy == false) = true := ⟨by decide, nextHas_exists (by decide +kernel)⟩

theorem witness_ParseHeaderChecks_inRange :
    ({ small with inLen := 173 } : State).params.inSize <
      ({ small with inLen := 173 } : State).inBase.toNat + ({ small with inLen := 173 } : State).inLen.toNat := by decide +kernel

/-- The first bytes of a container and its length. -/
def header (bytes : List Byte) (len : Word64) : State := { smallWith bytes with inLen := len }

theorem witness_ParseHeaderChecks_magic :
    (header [0x63, 0x61, 0x66] 3).inBase.toNat + (header [0x63, 0x61, 0x66] 3).inLen.toNat ≤ smallParams.inSize ∧
    (header [0x63, 0x61, 0x66] 3).inLen.toNat < 4 ∧
    4 ≤ (header [0x52, 0x49, 0x46, 0x46] 4).inLen.toNat ∧
    (header [0x52, 0x49, 0x46, 0x46] 4).memRead 0 4 ≠ 0x63616666 := by decide +kernel

theorem witness_ParseHeaderChecks_header :
    4 ≤ (header [0x63, 0x61, 0x66, 0x66] 7).inLen.toNat ∧ (header [0x63, 0x61, 0x66, 0x66] 7).inLen.toNat < 8 ∧
    (header [0x63, 0x61, 0x66, 0x66] 7).memRead 0 4 = 0x63616666 ∧
    8 ≤ (header [0x63, 0x61, 0x66, 0x66, 0, 2, 0, 0] 8).inLen.toNat ∧
    (header [0x63, 0x61, 0x66, 0x66, 0, 2, 0, 0] 8).memRead 0 4 = 0x63616666 ∧
    (header [0x63, 0x61, 0x66, 0x66, 0, 2, 0, 0] 8).memRead 4 2 ≠ 1 := by decide +kernel

theorem witness_FailedParse :
    ∃ t, exec .parse small = .next t ∧ decide (t.status.err ≠ .ok) = true := nextHas_exists (by decide +kernel)

theorem witness_SuccessfulParse :
    ∃ t, exec .parse f1 = .next t ∧ decide (t.status.err = .ok) = true := nextHas_exists (by decide +kernel)

theorem witness_ParseOfTheUsualContainer :
    f1.inBase.toNat = 0 ∧ 0 + f1.inLen.toNat ≤ f1.params.inSize ∧ f1.rdU32 0 = Tag.caff ∧ f1.rdU16 (0 + 4) = 1 ∧
    f1.rdU32 (0 + 8) = Tag.desc ∧ (f1.rdU64 (0 + 12)).toInt = (32 : Nat) ∧ f1.rdU32 (0 + 28) = Tag.ima4 ∧
    f1.rdU32 (0 + 20 + 32) = Tag.pakt ∧ (f1.rdU64 (0 + 24 + 32)).toInt = (24 : Nat) ∧
    0 ≤ (f1.rdU64 (0 + 40 + 32)).toInt ∧ f1.rdU32 (0 + 32 + 32 + 24) = Tag.data ∧
    (f1.rdU64 (0 + 36 + 32 + 24)).toInt = (72 : Nat) ∧ 0 + 44 + 32 + 24 + 72 ≤ 0 + f1.inLen.toNat := by decide +kernel

/-- The same with F1's data size -1 (container Fm). -/
theorem witness_ParseOfTheUsualContainer_minusOne :
    ((State.storeInBytes 92 [255, 255, 255, 255, 255, 255, 255, 255] f1).rdU64 (0 + 36 + 32 + 24)).toInt = -1 ∧
    0 + 44 + 32 + 24 + 72 = 0 + f1.inLen.toNat := by decide +kernel

/-- A size of -2, and one byte past the buffer. -/
theorem witness_ChunkSizesAreChecked :
    (f1Walk 8 172).run = .walk (freshWalk 8 172) ∧ (freshWalk 8 172).bufEnd ≤ (f1Walk 8 172).params.inSize ∧
    ((-2 : Word64).toInt < 0 ∧ (-2 : Word64).toInt ≠ -1) ∧
    (freshWalk 8 172).bufEnd < (freshWalk 8 172).cursor + 12 + (153 : Word64).toNat := by decide +kernel

/-- 31 and 32 bytes, the last ending at the buffer's end; 'ima4' and 'lma4'. -/
theorem witness_DescChunk :
    0 ≤ (31 : Word64).toInt ∧ (31 : Word64).toNat < 32 ∧ 0 ≤ (32 : Word64).toInt ∧
    (freshWalk 8 52).cursor + 12 + (32 : Word64).toNat ≤ (freshWalk 8 52).bufEnd ∧
    (freshWalk 8 52).bufEnd ≤ (f1Walk 8 52).params.inSize ∧
    (f1Walk 8 52).memRead ((freshWalk 8 52).cursor + 20) 4 = 0x696D6134 ∧
    (State.storeIn 28 0x6C f1).memRead (8 + 20) 4 ≠ 0x696D6134 ∧ (freshWalk 8 52).pakt = none := by decide +kernel

theorem witness_PaktChunk :
    (23 : Word64).toNat < 24 ∧ 0 ≤ (24 : Word64).toInt ∧
    (freshWalk 52 88).cursor + 12 + (24 : Word64).toNat ≤ (freshWalk 52 88).bufEnd ∧
    (freshWalk 52 88).bufEnd ≤ (f1Walk 52 88).params.inSize ∧ 0 ≤ ((f1Walk 52 88).rdU64 (52 + 20)).toInt ∧
    ((State.storeIn 72 0x80 f1).rdU64 (52 + 20)).toInt < 0 ∧ (freshWalk 52 88).desc = none := by decide +kernel

theorem witness_DataChunk :
    (3 : Word64).toInt = (3 : Nat) ∧ (4 : Word64).toInt = (4 : Nat) ∧
    (freshWalk 88 104).cursor + 12 + 4 ≤ (freshWalk 88 104).bufEnd ∧
    ((-1 : Word64).toInt = -1 ∧ (freshWalk 88 104).cursor + 12 + 4 = (freshWalk 88 104).bufEnd) ∧
    (freshWalk 88 104).bufEnd ≤ (f1Walk 88 104).params.inSize ∧ (freshWalk 88 104).pakt = none := by decide +kernel

theorem witness_OtherChunkIsSkipped :
    (f1Walk 8 20).run = .walk (freshWalk 8 20) ∧ (freshWalk 8 20).bufEnd ≤ (f1Walk 8 20).params.inSize ∧
    0 ≤ (0 : Word64).toInt ∧ (freshWalk 8 20).cursor + 12 + (0 : Word64).toNat ≤ (freshWalk 8 20).bufEnd ∧
    (freshWalk 8 20).desc = none := by decide +kernel

/-- A walk at F1's chunk at `cursor` that has seen everything but one kind. -/
def lastKind (cursor : Nat) (desc : Option DescFields) (pakt : Option Word64) (data : Option DataFields) : State :=
  { smallWith f1Bytes with run := .walk { cursor := cursor, bufEnd := 172, desc := desc, pakt := pakt, data := data } }

theorem witness_TheThirdKindEndsParse :
    nextHas (exec (.chunkDesc 32) (lastKind 8 none (some 7) (some ⟨1, 2⟩))) (fun t => t.status.parsed) = true ∧
    nextHas (exec (.chunkPakt 24) (lastKind 52 (some ⟨3, 4⟩) none (some ⟨1, 2⟩))) (fun t => t.status.parsed) = true ∧
    nextHas (exec (.chunkData 72) (lastKind 88 (some ⟨3, 4⟩) (some 7) none)) (fun t => t.status.parsed) = true ∧
    (lastKind 8 none (some 7) (some ⟨1, 2⟩)).rdU32 (8 + 20) = Tag.ima4 ∧ 8 + 12 + 32 ≤ 172 ∧ 52 + 12 + 24 ≤ 172 ∧
    88 + 12 + 72 = 172 ∧ (32 : Word64).toInt = (32 : Nat) ∧ (24 : Word64).toInt = (24 : Nat) ∧
    (72 : Word64).toInt = (72 : Nat) ∧ 0 ≤ ((lastKind 8 none none none).rdU64 (52 + 20)).toInt := by decide +kernel

/-- For CodesThatAdd and CodesThatSubtract: the last element of OUT, the highest predictor and index. -/
theorem witness_Codes :
    (codeState 32767 88).run = .block (codeRun 32767 88) ∧
    (codeRun 32767 88).outBase + (codeRun 32767 88).k * (codeRun 32767 88).stride < (codeState 32767 88).params.outSize := by decide +kernel

theorem witness_EveryCodeKeepsTheRangesAndTheRest :
    ∃ t, exec (decodeCode 0xF#4) (codeState (-32768) 0) = .next t ∧ decide (t.run ≠ .idle) = true := nextHas_exists (by decide +kernel)

theorem witness_CodesAndChunksStopOutsideTheirCommand :
    small.run = .idle ∧ smallParams.outSize ≤ 128 + 0 * 1 ∧
    (f1Walk 8 173).run = .walk (freshWalk 8 173) ∧ smallParams.inSize < (freshWalk 8 173).bufEnd := by decide +kernel

theorem witness_Samples :
    (-32768 : Int) ≤ -32768 ∧ (32767 : Int) ≤ 32767 ∧ (-1 : Int) ≠ 0 ∧ sampleBits .pcm16 (-1) = 0xFFFF#32 := by decide +kernel

theorem witness_DecodeBlockChecks_count :
    (blockCall blockA 0 0 1 64).blkArgs.count.toNat = 0 ∧ 64 < (blockCall blockA 65 0 1 64).blkArgs.count.toNat ∧
    (blockCall blockA 64 2 1 64).blkArgs.count.toNat ≤ 64 ∧
    smallParams.maxChannels ≤ (blockCall blockA 64 2 1 64).blkArgs.channel.toNat := by decide +kernel

theorem witness_DecodeBlockChecks_ranges :
    (blockCall blockA 64 1 1 64).blkArgs.channel.toNat < smallParams.maxChannels ∧
    smallParams.inSize < ({ blockCall blockA 64 1 1 64 with blkAddr := 139 } : State).blkAddr.toNat + 34 ∧
    ({ blockCall blockA 64 1 1 64 with blkAddr := 138 } : State).blkAddr.toNat + 34 ≤ smallParams.inSize ∧
    (blockCall blockA 64 0 1 63).outLen.toNat < (64 - 1) * 1 + 1 ∧
    smallParams.outSize < ({ blockCall blockA 64 0 1 64 with outBase := 65 } : State).outBase.toNat + ((64 - 1) * 1 + 1) := by decide +kernel

/-- Smallest illegal index, the window filled to its last element. -/
theorem witness_DecodeBlockReady :
    DecodeBlockReady (blockCall [0x00, 0x59] 64 1 2 127) ∧
    88 < (blockCall [0x00, 0x59] 64 1 2 127).memRead 0 2 % 128 := ⟨(decodeBlockCheck_none_iff _).1 (by decide +kernel), by decide +kernel⟩

/-- Largest legal index. -/
theorem witness_DecodeBlockGivesTheReferenceBlock :
    DecodeBlockReady (blockCall [0x00, 0x58] 64 1 2 127) ∧ refIndex (blockCall [0x00, 0x58] 64 1 2 127) 0 ≤ 88 ∧
    (blockCall [0x00, 0x58] 64 1 2 127).ch.length = smallParams.maxChannels := ⟨(decodeBlockCheck_none_iff _).1 (by decide +kernel), by decide +kernel⟩

/-- A one-code block with preamble 0 on a channel that holds {0, 127} or {0, 128}: the rule's two sides. -/
def kept (pred : Int) : State := { blockCall [0x00, 0x00, 0x00] 1 0 1 1 with ch := [⟨0, pred⟩, ⟨0, 0⟩] }

theorem witness_ContinuityRule :
    DecodeBlockReady (kept 127) ∧ (kept 127).blkArgs.count = 1 ∧ (kept 127).memRead 0 2 = 0 ∧ 0 % 128 ≤ 88 ∧
    (kept 127).channel 0 = ⟨0, 127⟩ ∧ ((0 : Int) - 127).natAbs ≤ 127 := ⟨(decodeBlockCheck_none_iff _).1 (by decide +kernel), by decide +kernel⟩

theorem witness_ContinuityRule_reseed :
    DecodeBlockReady (kept 128) ∧ (kept 128).memRead 0 2 = 0 ∧ (kept 128).channel 0 = ⟨0, 128⟩ ∧
    ¬ ((0 : Int) - 128).natAbs ≤ 127 := ⟨(decodeBlockCheck_none_iff _).1 (by decide +kernel), by decide +kernel⟩

/-- Byte 3 differs; one code reads bytes 0 to 2 only. -/
theorem witness_DecodeBlockReadsOnlyItsBytes :
    (∀ a, (kept 127).blkAddr.toNat ≤ a → a < (kept 127).blkAddr.toNat + 2 + ((kept 127).blkArgs.count.toNat + 1) / 2 →
      ({ kept 127 with inMem := [(0, 0), (1, 0), (2, 0), (3, 0x77)] } : State).inByte a = (kept 127).inByte a) ∧
    ∃ t, exec .decodeBlock (kept 127) = .next t ∧ decide (t.status.err = .ok) = true := by
  refine ⟨?_, nextHas_exists (by decide +kernel)⟩
  intro a _ h
  have : a < 3 := h
  interval_cases a <;> decide +kernel
/-- Four blocks of zeros, two slots of two channels, in an OUT of 256 elements. -/
def zeroStream (frames : Word32) : State :=
  { stream (List.replicate 136 0) 2 frames with params := { smallParams with outSize := 256 }, outLen := 256 }

/-- The same with a preamble index of 127 in slot 1, channel 0. -/
def badStream : State :=
  { stream (List.replicate 69 0 ++ [0x7F] ++ List.replicate 66 0) 2 128 with
    params := { smallParams with outSize := 256 }, outLen := 256 }

/-- One channel, so that 65 frames take the first two blocks of zeros. -/
def monoStream (frames : Word32) : State := stream (List.replicate 68 0) 1 frames

/-- A stream in STATELESS mode. -/
def stateless (s : State) : State := { s with params := { s.params with streamMode := .stateless } }

theorem witness_DecodeChecks_first :
    small.status.parsed = false ∧ (zeroStream 128).status.parsed = true ∧
    (stream [] 0 128).siChannelCount.toNat = 0 ∧ smallParams.maxChannels < (stream [] 3 128).siChannelCount.toNat ∧
    ({ zeroStream 64 with frameOffset := 63 } : State).frameOffset.toNat % 64 ≠ 0 ∧
    ({ zeroStream 64 with frameOffset := 64 } : State).frameOffset ≠ (zeroStream 64).nextFrame ∧
    smallParams.streamMode = .stateful := by decide +kernel

theorem witness_DecodeChecks_last :
    0 < (zeroStream 128).siChannelCount.toNat ∧ (zeroStream 128).siChannelCount.toNat ≤ smallParams.maxChannels ∧
    (zeroStream 129).siFrameCount.toNat < (zeroStream 129).frameOffset.toNat + (zeroStream 129).frameCount.toNat ∧
    ({ zeroStream 128 with siBlockSize := 135 } : State).siBlockSize.toNat < (0 / 64 + (128 + 63) / 64) * 2 * 34 ∧
    ({ zeroStream 128 with outLen := 255 } : State).outLen.toNat < 128 * 2 ∧
    256 < ({ zeroStream 128 with outBase := 1 } : State).outBase.toNat + 128 * 2 := by decide +kernel

theorem witness_DecodeOfNoFrames :
    DecodeReady (zeroStream 0) ∧ (zeroStream 0).frameCount = 0 :=
  ⟨(decodeCheck_none_iff _).1 (by decide +kernel), by decide +kernel⟩

theorem witness_DecodeGivesTheReferenceStream :
    DecodeReady (zeroStream 128) ∧
    (zeroStream 128).siBlockBase.toNat + (zeroStream 128).siBlockSize.toNat ≤ (zeroStream 128).params.inSize ∧
    (zeroStream 128).ch.length = (zeroStream 128).params.maxChannels ∧
    ∀ j c, 64 * j < (zeroStream 128).frameCount.toNat → c < (zeroStream 128).siChannelCount.toNat →
      refIndex (zeroStream 128) (refAddr (zeroStream 128) j c) ≤ 88 := by
  refine ⟨(decodeCheck_none_iff _).1 (by decide +kernel), by decide +kernel, by decide +kernel, ?_⟩
  intro j c hj hc
  have hj : 64 * j < 128 := hj
  have hj : j < 2 := by omega
  have hc : c < 2 := hc
  interval_cases j <;> interval_cases c <;> decide +kernel

theorem witness_BadIndexKeepsTheEarlierBlocks :
    DecodeReady badStream ∧
    badStream.siBlockBase.toNat + badStream.siBlockSize.toNat ≤ badStream.params.inSize ∧
    badStream.ch.length = badStream.params.maxChannels ∧ 64 * 1 < badStream.frameCount.toNat ∧
    0 < badStream.siChannelCount.toNat ∧ 88 < refIndex badStream (refAddr badStream 1 0) ∧
    ∀ j c, (j < 1 ∨ (j = 1 ∧ c < 0)) → c < badStream.siChannelCount.toNat →
      refIndex badStream (refAddr badStream j c) ≤ 88 := by
  refine ⟨(decodeCheck_none_iff _).1 (by decide +kernel), by decide +kernel, by decide +kernel, by decide +kernel, by decide +kernel, by decide +kernel, ?_⟩
  intro j c hj hc
  have hc : c < 2 := hc
  obtain rfl : j = 0 := by omega
  interval_cases c <;> decide +kernel

theorem witness_StatelessDecode :
    (stateless (zeroStream 2)).params.streamMode = .stateless ∧ DecodeReady (stateless (zeroStream 2)) := by
  refine ⟨by decide +kernel, (decodeCheck_none_iff _).1 (by decide +kernel)⟩

theorem witness_SeekThenDecodeEqualsStateless :
    (zeroStream 2).params.streamMode = .stateful ∧
    (zeroStream 2).siBlockBase.toNat + (zeroStream 2).siBlockSize.toNat ≤ (zeroStream 2).params.inSize ∧
    (∃ u, exec .resetState (zeroStream 2) = .next u ∧ (u.decoded == 0) = true) ∧
    ∃ t, exec .decode { zeroStream 2 with params := { (zeroStream 2).params with streamMode := .stateless } } = .next t ∧
      decide (t.status.err = .ok) = true := by
  refine ⟨by decide +kernel, by decide +kernel, nextHas_exists (by decide +kernel), nextHas_exists (by decide +kernel)⟩

theorem witness_OneDecodeEqualsTwo :
    (monoStream 65).Inv ∧ (monoStream 65).params.streamMode = .stateful ∧ (64 : Word32).toNat % 64 = 0 ∧
    (monoStream 65).frameCount.toNat = (64 : Word32).toNat + (1 : Word32).toNat ∧
    ∃ t, exec .decode (monoStream 65) = .next t ∧ decide (t.status.err = .ok) = true := by
  refine ⟨.of_idle rfl (by decide +kernel), by decide +kernel, by decide +kernel, by decide +kernel,
    nextHas_exists (by decide +kernel)⟩

/-- For RegisterWritesAndBusy: CMD and the first RO index, busy and not. -/
theorem witness_RegisterWrites :
    (turnNext (.host (.regWrite 0 7)) small).hostHazard = false ∧ (turnNext (.host (.regWrite 0 7)) small).run = .idle ∧
    (turnNext (.host (.regWrite 0 7)) small).schedule = .host (.regWrite 0 7) :: [] ∧
    (turnNext (.host (.regWrite 13 7)) small).schedule = .host (.regWrite 13 7) :: [] ∧
    (turnNext (.host (.regWrite 13 7)) (pendingWord 0 small)).status.busy = true ∧
    (turnNext (.host (.regWrite 13 7)) small).status.busy = false := by decide +kernel

theorem witness_RegisterWritesReadBack :
    (turnNext (.host (.regWrite 3 7)) small).schedule = .host (.regWrite 3 7) :: [] ∧
    (turnNext (.host (.regWrite 11 7)) small).schedule = .host (.regWrite 11 7) :: [] ∧
    small.hostHazard = false ∧ small.run = .idle ∧ small.status.busy = false := by decide +kernel

theorem witness_ChStateWindow :
    (turnNext (.host (.regWrite 12 7)) { small with chSel := 2 }).schedule = .host (.regWrite 12 7) :: [] ∧
    smallParams.maxChannels ≤ ({ small with chSel := 2 } : State).chSel.toNat ∧
    ({ small with chSel := 1 } : State).chSel.toNat < smallParams.maxChannels ∧
    small.ch.length = smallParams.maxChannels := by decide +kernel

theorem witness_RegisterReads :
    (turnNext (.host (.regRead 20)) small).schedule = .host (.regRead 20) :: [] ∧ small.status.busy = false ∧
    (turnNext (.host (.regRead 0)) (pendingWord 0 small)).schedule = .host (.regRead 0) :: [] ∧
    (pendingWord 0 small).status.busy = true := by decide +kernel

theorem witness_HazardsAreRecorded :
    (turnNext (.host (.inWrite 171 5)) (pendingWord 0 small)).schedule = .host (.inWrite 171 5) :: [] ∧
    (pendingWord 0 small).status.busy = true ∧ 171 < smallParams.inSize ∧
    (turnNext (.host (.outRead 127)) (pendingWord 0 small)).schedule = .host (.outRead 127) :: [] ∧
    127 < smallParams.outSize ∧ ({ small with hostHazard := true } : State).hostHazard = true := by decide +kernel

theorem witness_HostMemoryAccesses :
    (turnNext (.host (.inWrite 172 5)) small).schedule = .host (.inWrite 172 5) :: [] ∧ smallParams.inSize ≤ 172 ∧
    171 < smallParams.inSize ∧ (turnNext (.host (.inRead 171)) small).schedule = .host (.inRead 171) :: [] ∧
    (turnNext (.host (.outWrite 127 5)) small).schedule = .host (.outWrite 127 5) :: [] ∧ 127 < smallParams.outSize ∧
    smallParams.outSize ≤ 128 ∧ small.status.busy = false ∧ small.hostHazard = false ∧ small.run = .idle := by decide +kernel

theorem witness_ResetEvent :
    (turnNext .reset (pendingWord 2 small)).schedule = .reset :: [] ∧
    (turnNext .reset (pendingWord 2 small)).hostHazard = false ∧ (turnNext .reset (pendingWord 2 small)).run = .idle := by decide +kernel

theorem witness_EveryStepKeepsTheInvariant :
    (pendingWord 1 f1).Inv ∧ ∃ t, step (pendingWord 1 f1) = .next t ∧ decide (t.status.err = .ok) = true := by
  refine ⟨.of_idle rfl (by decide +kernel), nextHas_exists (by decide +kernel)⟩

theorem witness_PowerOnMeetsTheInvariant :
    Config.defaultParams.valid ∧ smallParams.valid := by decide

theorem witness_NoHiddenStateBetweenSteps :
    small.run = .idle ∧ ∃ t, step (pendingWord 4 small) = .next t ∧ decide (t.run = .idle) = true := ⟨rfl, nextHas_exists (by decide +kernel)⟩

theorem witness_EveryCommandCompletes :
    (pendingWord 2 (zeroStream 64)).Inv ∧ (pendingWord 2 (zeroStream 64)).hostHazard = false ∧
    (pendingWord 2 (zeroStream 64)).run = .idle ∧ (pendingWord 2 (zeroStream 64)).status.busy = true ∧
    (pendingWord 2 (zeroStream 64)).schedule = [] ∧
    (turnNext .core (pendingWord 2 (zeroStream 64))).schedule = .core :: [] ∧
    (turnNext .wait (pendingWord 2 (zeroStream 64))).Inv :=
  ⟨.of_idle rfl (by decide +kernel), rfl, rfl, rfl, rfl, rfl, .of_idle rfl (by decide +kernel)⟩

theorem witness_NoInstructionWritesTheHostsState :
    ∃ t, exec .codeP7 (codeState 0 0) = .next t ∧ (t.pending == 0) = true := nextHas_exists (by decide +kernel)

theorem witness_CommandsWriteOnlyTheWindow :
    decodeCommand 3#64 = .ok .decodeBlock ∧
    (∃ t, exec .decodeBlock { kept 127 with outBase := 5 } = .next t ∧ (t.outMem == [(5, 127)]) = true) ∧
    4 < ({ kept 127 with outBase := 5 } : State).outBase.toNat ∧
    ({ kept 127 with outBase := 5 } : State).outBase.toNat + (kept 127).outLen.toNat ≤ 6 := ⟨by decide, nextHas_exists (by decide +kernel), by decide +kernel, by decide +kernel⟩

theorem witness_StickyFlags :
    (∀ rest, (pendingWord 0 small).schedule ≠ .reset :: rest) ∧
    (∃ t, step { pendingWord 0 small with status := { Status.zero.started with errSeen := true, overrun := true } } =
      .next t ∧ (t.status.errSeen && t.status.overrun) = true) ∧
    decodeCommand 2#64 = .ok .decode ∧ ∃ t, exec .decode small = .next t ∧ decide (t.status.err ≠ .ok) = true := by
  refine ⟨?_, nextHas_exists (by decide +kernel), by decide, nextHas_exists (by decide +kernel)⟩
  intro rest h
  cases h

theorem witness_WhoWritesTheStreamRegisters :
    (∃ t, step (pendingWord 1 f1) = .next t ∧ decide (t.siBlockBase ≠ f1.siBlockBase) = true) ∧
    ∃ t, step (pendingWord 4 { small with frameOffset := 64 }) = .next t ∧ decide (t.nextFrame ≠ small.nextFrame) = true := ⟨nextHas_exists (by decide +kernel), nextHas_exists (by decide +kernel)⟩

theorem witness_WhoWritesTheChannelStates :
    (∃ t, step (pendingWord 4 f1) = .next t ∧ decide (t.ch ≠ f1.ch) = true) ∧
    (∃ t, step (turnNext (.host (.regWrite 12 5)) small) = .next t ∧ decide (t.ch ≠ small.ch) = true) ∧
    ∃ t, step (turnNext .reset f1) = .next t ∧ decide (t.ch ≠ f1.ch) = true := ⟨nextHas_exists (by decide +kernel), nextHas_exists (by decide +kernel), nextHas_exists (by decide +kernel)⟩

/-- The small instance after a NOP that the host has seen end. -/
def seenNop : State := { small with history := [.reg 1 0, .command 0 0 0] }

theorem witness_TheEndOfARun :
    seenNop.ended = true ∧ seenNop.hostHazard = false ∧
    (pendingWord 0 { small with history := [.command 0 0 0] }).status.busy = true ∧
    sawDone (pendingWord 0 { small with history := [.command 0 0 0] }).history = false ∧
    (∃ t, step (turnNext (.host (.regWrite 0 0)) seenNop) = .next t ∧ t.status.busy = true) ∧
    (turnNext .wait small).schedule = .wait :: [] ∧
    (turnNext (.host (.regRead 1)) small).schedule = .host (.regRead 1) :: [] ∧ small.status.busy = false :=
  ⟨by decide +kernel, rfl, rfl, rfl, nextHas_exists (by decide +kernel), rfl, rfl, rfl⟩

/-- A DECODE_BLOCK that the host started, whose sample goes to element 5, which holds 0. -/
def startedBlock : State :=
  { pendingWord 3 { kept 127 with outBase := 5 } with history := [.command 3 5 1], outMem := [(5, 0)] }

theorem witness_TheObservationCoversTheWindows :
    startedBlock.windowKept ∧ startedBlock.run = .idle ∧ startedBlock.status.busy = true ∧
    (∃ t, step startedBlock = .next t ∧ decide (t.outElem 5 ≠ startedBlock.outElem 5) = true) ∧
    5 < startedBlock.params.outSize := by
  refine ⟨?_, rfl, rfl, nextHas_exists (by decide +kernel), by decide +kernel⟩
  intro _ _ e h1 h2 _
  have h1 : 5 ≤ e := h1
  have h2 : e < 6 := h2
  interval_cases e
  decide +kernel

end Sys2Proof.Tests
end

section
/-! Proofs: everything one step can do, as one inversion lemma per part of the machine. -/

namespace Sys2Proof.Machine

/-- Everything a step between commands can do (log 5): the core performs the pending command, nothing is to be done, a
WAIT ends, a reset, or an access of the host. `l` are the turns then left. -/
inductive TurnOutcome (s : State) : State → Prop
  | command {l : List Turn} {t : State} (busy : s.status.busy = true) (noHost : ∀ a rest, s.schedule ≠ .host a :: rest)
      (run : coreStep { s with schedule := l } = .next t) : TurnOutcome s t
  | stay (l : List Turn) : TurnOutcome s { s with schedule := l }
  | waitEnds (l : List Turn) : TurnOutcome s (endWait { s with schedule := l })
  | reset {l : List Turn} (first : s.schedule = .reset :: l) :
      TurnOutcome s (State.resetEvent { s with schedule := l })
  | host {a : HostAccess} {l : List Turn} {t : State} (first : s.schedule = .host a :: l)
      (access : hostAccess a { s with schedule := l } = .next t) : TurnOutcome s t

theorem takeTurn_next {s t : State} (h : takeTurn s = .next t) : TurnOutcome s t := by
  rcases takeTurn_cases s with ⟨hb, ht⟩ | ⟨-, ht⟩ | ⟨⟨rest, hs⟩, ht⟩ | ⟨a, rest, hs, ht⟩
  · rcases ht with ⟨hs, ht⟩ | ⟨⟨rest, hs⟩, ht⟩ | ⟨⟨rest, hs⟩, ht⟩ <;> rw [ht] at h <;>
      exact .command hb (by simp [hs]) h
  · rcases ht with ⟨-, ht⟩ | ⟨-, ht⟩ | ⟨-, ht⟩ <;> rw [ht] at h <;> cases h
    · exact .stay s.schedule
    · exact .stay s.schedule.tail
    · exact .waitEnds s.schedule.tail
  · rw [ht] at h
    cases h
    simpa [dropTurn, hs] using TurnOutcome.reset hs
  · rw [ht] at h
    exact .host hs (by simpa [dropTurn, hs] using h)

/-- A step from an idle state is a turn. -/
theorem step_idle_next {s t : State} (hr : s.run = .idle) (h : step s = .next t) : TurnOutcome s t := by
  unfold step machineStep at h
  split at h
  · cases h
  · simp only [hr] at h
    exact takeTurn_next h

/-- Everything a step of the walk can do when it answers a next state. -/
theorem walkStep_next {s t : State} (h : walkStep s = .next t) :
    ∃ w, s.run = .walk w ∧ w.bufEnd ≤ s.params.inSize ∧ ChunkOutcome s w t := by
  cases hr : s.run with
  | idle => simp [walkStep, hr] at h
  | block b => simp [walkStep, hr] at h
  | walk w =>
    by_cases hb : w.bufEnd ≤ s.params.inSize
    · obtain ⟨t', ht, ho⟩ := walkStep_outcome hr hb
      rw [ht] at h
      cases h
      exact ⟨w, rfl, hb, ho⟩
    · simp [walkStep, hr, hb] at h

/-- Everything a step can do: a turn, or in the middle of a command (log 7) the next step of its walk or of its
blocks. -/
theorem step_next {s t : State} (h : step s = .next t) :
    TurnOutcome s t ∨ (∃ w, s.run = .walk w ∧ w.bufEnd ≤ s.params.inSize ∧ ChunkOutcome s w t) ∨
      nextCode s = .next t ∨ ∃ b, restOfCommand b (storeBack s) = .next t := by
  cases hr : s.run with
  | idle => exact .inl (step_idle_next hr h)
  | walk w =>
    have hw : walkStep s = .next t := by
      unfold step machineStep at h
      split at h
      · cases h
      · simpa only [resumeStep, hr] using h
    obtain ⟨w', hw', ho⟩ := walkStep_next hw
    exact .inr (.inl ⟨w', hr ▸ hw', ho⟩)
  | block b =>
    unfold step machineStep at h
    split at h
    · cases h
    · simp only [resumeStep, hr] at h
      split at h
      · exact .inr (.inr (.inl h))
      · exact .inr (.inr (.inr ⟨b, h⟩))

/-- A host's turn between commands is its access (log 5). -/
theorem step_host {s : State} {a : HostAccess} {rest : List Turn} (hh : s.hostHazard = false) (hr : s.run = .idle)
    (hs : s.schedule = .host a :: rest) : step s = hostAccess a { s with schedule := rest } := by
  simp [step, machineStep, takeTurn, dropTurn, hh, hr, hs]

end Sys2Proof.Machine
end

section
/-! Proofs: a property that each operation on blocks keeps is kept by whole block commands, and by the rest of one. -/

namespace Sys2Proof.Machine

/-- A property of states that every operation on blocks keeps (41_block_decoder.md R159, 42_stream_decoder.md R191). -/
structure KeptByBlocks (P : State → Prop) : Prop where
  start : ∀ {s : State} (a : BlockArgs) {p : Word16}, P s → preambleIndex p ≤ 88 →
    P (s.withRun (.block (startBlock a p (s.channel a.chan))))
  code : ∀ {s t : State}, P s → nextCode s = .next t → P t
  store : ∀ {s : State}, P s → P (storeBack s)
  raise : ∀ {s : State} (e : ErrCode), P s → P (s.raise e)
  complete : ∀ {s : State}, P s → P s.complete
  finish : ∀ {s : State}, P s → P (finishDecode s)

variable {P : State → Prop} {s t : State}

theorem KeptByBlocks.runCodes (hP : KeptByBlocks P) {m : Nat} (h : P s) (ht : runCodes m s = .next t) : P t := by
  induction m generalizing s with
  | zero =>
    cases ht
    exact h
  | succ m ih =>
    obtain ⟨u, hu, ht⟩ := andThen_eq_next ht
    exact ih (hP.code h hu) ht

theorem KeptByBlocks.decodeBlockThen (hP : KeptByBlocks P) {a : BlockArgs} {k : State → Result} (h : P s)
    (hk : ∀ u, P u → k u = .next t → P t) (ht : decodeBlockThen a s k = .next t) : P t := by
  unfold Machine.decodeBlockThen at ht
  split_ifs at ht with hin hx
  · cases ht
    exact hP.raise _ h
  · obtain ⟨u, hu, ht⟩ := andThen_eq_next ht
    exact hk _ (hP.store (hP.runCodes (hP.start a h (by omega)) hu)) ht

theorem KeptByBlocks.decodeBlocks (hP : KeptByBlocks P) {m j : Nat} (h : P s) (ht : decodeBlocks m j s = .next t) :
    P t := by
  induction m generalizing s j with
  | zero =>
    cases ht
    exact hP.finish h
  | succ m ih => exact hP.decodeBlockThen h (fun _ hu => ih hu) ht

theorem KeptByBlocks.restOfCommand (hP : KeptByBlocks P) {b : BlockRun} (h : P s)
    (ht : restOfCommand b s = .next t) : P t := by
  unfold Machine.restOfCommand at ht
  split at ht
  · exact hP.decodeBlocks h ht
  · cases ht
    exact hP.complete h

theorem KeptByBlocks.execDecodeBlock (hP : KeptByBlocks P) (h : P s) (ht : execDecodeBlock s = .next t) : P t := by
  unfold Machine.execDecodeBlock at ht
  split at ht
  · cases ht
    exact hP.raise _ h
  · refine hP.decodeBlockThen h (fun u hu he => ?_) ht
    cases he
    exact hP.complete hu

theorem KeptByBlocks.execDecode (hP : KeptByBlocks P) (hz : P s → P s.zeroChannels) (h : P s)
    (ht : execDecode s = .next t) : P t := by
  unfold Machine.execDecode at ht
  split at ht
  · cases ht
    exact hP.raise _ h
  · refine hP.decodeBlocks ?_ ht
    unfold decodeStart
    split
    · exact h
    · exact hz h

end Sys2Proof.Machine
end

section
/-! Proofs: the invariant is kept by every step (O50). -/

namespace Sys2Proof.Machine

theorem keptByBlocks_inv : KeptByBlocks State.Inv where
  start a _ h hp := inv_withRun h (startBlock_legal h a hp)
  code := inv_nextCode
  store := inv_storeBack
  raise e h := inv_raise h e
  complete := inv_complete
  finish := inv_finishDecode

/-- A chunk that moves a legal walk on leaves it legal (40_container_parser.md R119, R123). -/
theorem WalkRun.Later.legal {n : Nat} {w w' : WalkRun} (hl : w.Later w') (h : w.legal n) : w'.legal n := by
  obtain ⟨hbuf, hdata, hpakt⟩ := h
  obtain ⟨kbuf, -, -, kdata, kpakt⟩ := hl
  refine ⟨kbuf ▸ hbuf, ?_, ?_⟩
  · intro d hd
    rcases kdata with kd | ⟨size, kd, hs⟩
    · exact kbuf ▸ hdata d (kd ▸ hd)
    · rw [kd] at hd
      cases hd
      exact kbuf ▸ hs
  · intro f hf
    rcases kpakt with kp | ⟨g, kp, hg⟩
    · exact hpakt f (kp ▸ hf)
    · rw [kp] at hf
      cases hf
      exact hg

theorem inv_walkAdvance {s : State} {w : WalkRun} (h : s.Inv) (hw : w.legal s.params.inSize) :
    (walkAdvance w s).Inv := by
  obtain ⟨hbuf, hdata, hpakt⟩ := hw
  rcases walkAdvance_cases w s with ⟨d, f, b, -, hf, hb, he⟩ | ⟨-, he⟩ <;> rw [he]
  · exact inv_parseSuccess h d (Nat.le_trans (hdata b hb) hbuf) (hpakt f hf)
  · exact inv_withRun h ⟨hbuf, hdata, hpakt⟩

theorem inv_chunkOutcome {s t : State} {w : WalkRun} (h : s.Inv) (hr : s.run = .walk w) (ho : ChunkOutcome s w t) :
    t.Inv := by
  have hw : w.legal s.params.inSize := by simpa [Run.legal, hr] using h.run
  rcases ho with ⟨e, -, rfl⟩ | ⟨w', hl, rfl⟩
  · exact inv_raiseParse h e
  · exact inv_walkAdvance h (hl.legal hw)

theorem inv_execParse {s t : State} (h : s.Inv) (ht : execParse s = .next t) : t.Inv := by
  obtain ⟨t', ht', ho⟩ := execParse_outcome s
  rw [ht'] at ht
  cases ht
  rcases ho with ⟨e, -, rfl⟩ | ⟨d, f, b, -, hb, hin, hf, rfl⟩
  · exact inv_raiseParse h e
  · exact inv_parseSuccess h d (Nat.le_trans hb hin) hf

theorem inv_execResetState {s t : State} (h : s.Inv) (ht : execResetState s = .next t) : t.Inv := by
  cases ht
  exact { inv_complete (inv_zeroChannels h) with }

/-- Every command keeps the invariant. -/
theorem inv_exec_command {w : Word64} {i : Instr} {s t : State} (hw : decodeCommand w = .ok i) (h : s.Inv)
    (ht : exec i s = .next t) : t.Inv := by
  rcases decodeCommand_ok hw with ⟨-, rfl⟩ | ⟨-, rfl⟩ | ⟨-, rfl⟩ | ⟨-, rfl⟩ | ⟨-, rfl⟩
  · cases ht
    exact inv_complete h
  · exact inv_execParse h ht
  · exact keptByBlocks_inv.execDecode inv_zeroChannels h ht
  · exact keptByBlocks_inv.execDecodeBlock h ht
  · exact inv_execResetState h ht

theorem inv_coreStep {s t : State} (h : s.Inv) (ht : coreStep s = .next t) : t.Inv := by
  rcases coreStep_cases s with ⟨i, hd, he⟩ | he <;> rw [he] at ht
  · exact inv_exec_command hd h ht
  · cases ht
    exact inv_raise h _

/-- A reset keeps the memories, which were legal, and zeroes the rest (70_reset_and_hazards.md R240). -/
theorem inv_resetEvent {s : State} (h : s.Inv) : s.resetEvent.Inv where
  params := h.params
  chLength := (inv_zeroChannels h).chLength
  chLegal := (inv_zeroChannels h).chLegal
  inWf := h.inWf
  outWf := h.outWf
  inBound := h.inBound
  outBound := h.outBound
  outWidth := h.outWidth
  blocksInIn := Nat.zero_le _
  frames := Nat.two_pow_pos 63
  run := trivial

/-- The entry a word written to CH_STATE stands for is in its ranges (10_state.md R35). -/
theorem ChannelState.legal_ofWindow (w : Word64) : (ChannelState.ofWindow w).legal := by
  have hle : -32768 ≤ (w.extractLsb' 16 16).toInt := BitVec.le_toInt _
  have hlt : (w.extractLsb' 16 16).toInt < 32768 := BitVec.toInt_lt
  exact ⟨Nat.min_le_right _ _, hle, Int.lt_add_one_iff.1 hlt⟩

theorem inv_writeReg {s : State} (h : s.Inv) (i : Nat) (v : Word64) : (writeReg i v s).Inv := by
  rcases writeReg_cases i v s with ⟨-, he⟩ | ⟨-, he⟩ | ⟨-, -, b, l, ob, ol, fo, fc, ba, bb, cs, he⟩ | he <;> rw [he]
  · exact { h with }
  · unfold writeChState
    split
    · exact inv_setChannel h (ChannelState.legal_ofWindow v)
    · exact h
  · exact { h with }
  · exact h

/-- Every access of the host keeps the invariant. -/
theorem inv_hostAccess {a : HostAccess} {s t : State} (h : s.Inv) (ht : hostAccess a s = .next t) : t.Inv := by
  rcases hostAccess_next ht with ⟨i, v, -, -, rfl⟩ | ⟨i, v, -, -, rfl⟩ | ⟨i, -, rfl⟩ | ⟨-, rfl⟩ |
    ⟨addr, b, -, -, hlt, rfl⟩ | ⟨addr, -, rfl⟩ | ⟨e, v, -, -, hlt, rfl⟩ | ⟨e, -, -, rfl⟩
  · exact { h with }
  · exact inv_writeReg h i v
  · obtain ⟨v, n, he, -⟩ := hostRegRead_frame i s
    rw [he]
    exact { h with }
  · exact { h with }
  · exact inv_storeIn h hlt
  · exact { h with }
  · exact inv_storeOut h hlt (elementBits_idem _ _)
  · exact { h with }

theorem inv_turnOutcome {s t : State} (h : s.Inv) (ho : TurnOutcome s t) : t.Inv := by
  have hl : ∀ l, State.Inv { s with schedule := l } := fun l => { h with }
  cases ho with
  | command _ _ run => exact inv_coreStep (hl _) run
  | stay l => exact hl l
  | waitEnds l => exact { hl l with }
  | reset first => exact inv_resetEvent (hl _)
  | host first access => exact inv_hostAccess (hl _) access

/-- Settles O50: each kind of step keeps the invariant. -/
theorem everyStepKeepsTheInvariant : Obligations.EveryStepKeepsTheInvariant := by
  intro s t h ht
  rcases step_next ht with ho | ⟨w, hr, -, ho⟩ | hc | ⟨b, hc⟩
  · exact inv_turnOutcome h ho
  · exact inv_chunkOutcome h hr ho
  · exact inv_nextCode h hc
  · exact keptByBlocks_inv.restOfCommand (inv_storeBack h) hc

end Sys2Proof.Machine
end

section
/-! Proofs: what the commands, the host's accesses and the other turns can change between commands. -/

namespace Sys2Proof.Machine

/-- The StreamInfo registers are as before (10_state.md R36). -/
structure StreamInfoSame (s t : State) : Prop where
  siBlockBase : t.siBlockBase = s.siBlockBase
  siBlockSize : t.siBlockSize = s.siBlockSize
  siSampleRate : t.siSampleRate = s.siSampleRate
  siFrameCount : t.siFrameCount = s.siFrameCount
  siChannelCount : t.siChannelCount = s.siChannelCount

/-- NEXT_FRAME and DECODED are as before (10_state.md R44, R45). -/
structure PositionSame (s t : State) : Prop where
  nextFrame : t.nextFrame = s.nextFrame
  decoded : t.decoded = s.decoded

/-- A set flag of ERR_SEEN and OVERRUN is still set (10_state.md R29). -/
structure FlagsKept (s t : State) : Prop where
  errSeen : s.status.errSeen = true → t.status.errSeen = true
  overrun : s.status.overrun = true → t.status.overrun = true

/-- What a turn that is neither the core's command nor a reset leaves alone. -/
structure CoreSideSame (s t : State) : Prop extends StreamInfoSame s t, PositionSame s t, FlagsKept s t where
  params : t.params = s.params
  run : t.run = s.run

/-- Every way a command with this word can end. A DECODE or a DECODE_BLOCK that has decoded blocks has changed OUT, CH
and the hidden state (41_block_decoder.md R159, 42_stream_decoder.md R192). -/
inductive CommandOutcome (w : Word64) (s : State) : State → Prop
  | nop (word : w = 0) : CommandOutcome w s s.complete
  | parseFails (word : w = 1) {e : ErrCode} (he : e ≠ .ok) : CommandOutcome w s (s.raiseParse e)
  | parses (word : w = 1) (d : DescFields) (f : Word64) (b : DataFields) : CommandOutcome w s (s.parseSuccess d f b)
  | decodeFails (word : w = 2) {e : ErrCode} (he : e ≠ .ok) (o : List (Nat × Word32)) (c : List ChannelState)
      (r : Run) : CommandOutcome w s (State.raise e { s with outMem := o, ch := c, run := r })
  | decodes (word : w = 2) (o : List (Nat × Word32)) (c : List ChannelState) (r : Run) :
      CommandOutcome w s (finishDecode { s with outMem := o, ch := c, run := r })
  | decodeBlockFails (word : w = 3) {e : ErrCode} (he : e ≠ .ok) : CommandOutcome w s (s.raise e)
  | decodesBlock (word : w = 3) (o : List (Nat × Word32)) (c : List ChannelState) (r : Run) :
      CommandOutcome w s (State.complete { s with outMem := o, ch := c, run := r })
  | resetsState (word : w = 4) :
      CommandOutcome w s { s.zeroChannels.complete with nextFrame := s.frameOffset, decoded := 0 }
  | illegal : CommandOutcome w s (s.raise .illegalCmd)

/-- The blocks of a DECODE, from its entry state, change OUT, CH and the hidden state alone. -/
theorem afterBlocks_decodeStart_frame (s : State) (n : Nat) :
    ∃ o c r, afterBlocks (decodeStart s) n = { s with outMem := o, ch := c, run := r } :=
  ⟨_, _, _, by rw [afterBlocks_frame, decodeStart_frame]⟩

theorem exec_command_next {w : Word64} {i : Instr} {s t : State} (hw : decodeCommand w = .ok i)
    (h : exec i s = .next t) : CommandOutcome w s t := by
  rcases decodeCommand_ok hw with ⟨word, rfl⟩ | ⟨word, rfl⟩ | ⟨word, rfl⟩ | ⟨word, rfl⟩ | ⟨word, rfl⟩ <;>
    simp only [exec] at h
  · cases h
    exact .nop word
  · obtain ⟨t', ht, ho⟩ := execParse_outcome s
    rw [ht] at h
    cases h
    rcases ho with ⟨e, he, rfl⟩ | ⟨d, f, b, -, -, -, -, rfl⟩
    · exact .parseFails word he
    · exact .parses word d f b
  · rcases execDecode_cases s with ⟨-, e, ⟨he, -⟩, hd⟩ | ⟨-, -, hd⟩ | ⟨-, a, -, -, -, hd⟩ | ⟨-, hd⟩ <;>
      rw [hd] at h <;> cases h
    · exact .decodeFails word he s.outMem s.ch s.run
    · obtain ⟨o, c, r, hf⟩ := afterBlocks_decodeStart_frame s (decodeBlockTotal s)
      exact hf ▸ .decodes word o c r
    · obtain ⟨o, c, r, hf⟩ := afterBlocks_decodeStart_frame s a
      exact hf ▸ .decodeFails word (by decide) o c r
  · rcases execDecodeBlock_cases s with ⟨e, he, hd⟩ | ⟨-, -, hd⟩ <;> rw [hd] at h <;> cases h
    · exact .decodeBlockFails word he
    · exact .decodesBlock word _ _ _
  · cases h
    exact .resetsState word

theorem coreStep_next {s t : State} (h : coreStep s = .next t) : CommandOutcome s.pending s t := by
  rcases coreStep_cases s with ⟨i, hd, he⟩ | he <;> rw [he] at h
  · exact exec_command_next hd h
  · cases h
    exact .illegal

/-- A command ends OK and leaves ERR_SEEN, or ends with an error and sets it (60_exceptions.md R210). -/
theorem CommandOutcome.errSeen {w : Word64} {s t : State} (h : CommandOutcome w s t) :
    (t.status.err = .ok ∧ t.status.errSeen = s.status.errSeen) ∨ t.status.errSeen = true := by
  cases h with
  | nop | parses | decodes | decodesBlock | resetsState => exact .inl ⟨rfl, rfl⟩
  | parseFails | decodeFails | decodeBlockFails | illegal => exact .inr rfl

/-- Only a PARSE that ends OK writes the StreamInfo registers (10_state.md R36). -/
theorem CommandOutcome.streamInfo {w : Word64} {s t : State} (h : CommandOutcome w s t) :
    StreamInfoSame s t ∨ (w = 1 ∧ t.status.err = .ok ∧ t.status.parsed = true) := by
  cases h with
  | parses word => exact .inr ⟨word, rfl, rfl⟩
  | _ => exact .inl ⟨rfl, rfl, rfl, rfl, rfl⟩

/-- Only a PARSE, DECODE or RESET_STATE that ends OK writes NEXT_FRAME and DECODED (10_state.md R44, R45). -/
theorem CommandOutcome.position {w : Word64} {s t : State} (h : CommandOutcome w s t) :
    PositionSame s t ∨ ((w = 1 ∨ w = 2 ∨ w = 4) ∧ t.status.err = .ok) := by
  cases h with
  | parses word => exact .inr ⟨.inl word, rfl⟩
  | decodes word => exact .inr ⟨.inr (.inl word), rfl⟩
  | resetsState word => exact .inr ⟨.inr (.inr word), rfl⟩
  | _ => exact .inl ⟨rfl, rfl⟩

/-- Only a PARSE that ends OK, a DECODE, a DECODE_BLOCK and a RESET_STATE write CH (10_state.md R23). -/
theorem CommandOutcome.channels {w : Word64} {s t : State} (h : CommandOutcome w s t) :
    t.ch = s.ch ∨ ((w = 1 ∨ w = 2 ∨ w = 3 ∨ w = 4) ∧ (w = 1 → t.status.err = .ok)) := by
  cases h with
  | parses word => exact .inr ⟨.inl word, fun _ => rfl⟩
  | decodes word | decodeFails word => exact .inr (by simp [word])
  | decodesBlock word => exact .inr (by simp [word])
  | resetsState word => exact .inr (by simp [word])
  | nop | parseFails | decodeBlockFails | illegal => exact .inl rfl

theorem coreSideSame_refl (s : State) : CoreSideSame s s where
  siBlockBase := rfl
  siBlockSize := rfl
  siSampleRate := rfl
  siFrameCount := rfl
  siChannelCount := rfl
  nextFrame := rfl
  decoded := rfl
  errSeen := id
  overrun := id
  params := rfl
  run := rfl

theorem coreSideSame_writeReg (i : Nat) (v : Word64) (s : State) : CoreSideSame s (writeReg i v s) := by
  rcases writeReg_cases i v s with ⟨-, he⟩ | ⟨-, he⟩ | ⟨-, -, b, l, ob, ol, fo, fc, ba, bb, cs, he⟩ | he <;> rw [he]
  · exact { coreSideSame_refl s with }
  · unfold writeChState
    split <;> exact { coreSideSame_refl s with }
  · exact { coreSideSame_refl s with }
  · exact coreSideSame_refl s

/-- An access of the host leaves the parameters, the hidden state, the StreamInfo registers, NEXT_FRAME, DECODED and
ERR_SEEN alone (10_state.md R24). -/
theorem coreSideSame_hostAccess {a : HostAccess} {s t : State} (h : hostAccess a s = .next t) : CoreSideSame s t := by
  have hs := coreSideSame_refl s
  rcases hostAccess_next h with ⟨i, v, -, -, rfl⟩ | ⟨i, v, -, -, rfl⟩ | ⟨i, -, rfl⟩ | ⟨-, rfl⟩ |
    ⟨addr, b, -, -, -, rfl⟩ | ⟨addr, -, rfl⟩ | ⟨e, v, -, -, -, rfl⟩ | ⟨e, -, -, rfl⟩
  · exact { hs with overrun := fun _ => rfl }
  · exact coreSideSame_writeReg i v s
  · obtain ⟨v, n, he, -⟩ := hostRegRead_frame i s
    rw [he]
    exact { hs with }
  all_goals exact { hs with }

/-- Of the host's accesses only a write of CH_STATE while BUSY = 0 changes CH (10_state.md R23, R35). -/
theorem hostAccess_channels {a : HostAccess} {s t : State} (h : hostAccess a s = .next t) :
    t.ch = s.ch ∨ (s.status.busy = false ∧ ∃ v, a = .regWrite 12 v) := by
  rcases hostAccess_next h with ⟨i, v, -, -, rfl⟩ | ⟨i, v, ha, hb, rfl⟩ | ⟨i, -, rfl⟩ | ⟨-, rfl⟩ |
    ⟨addr, b, -, -, -, rfl⟩ | ⟨addr, -, rfl⟩ | ⟨e, v, -, -, -, rfl⟩ | ⟨e, -, -, rfl⟩
  · exact .inl rfl
  · rcases writeReg_cases i v s with ⟨-, he⟩ | ⟨rfl, he⟩ | ⟨-, -, b, l, ob, ol, fo, fc, ba, bb, cs, he⟩ | he
    · exact .inl (by rw [he]; rfl)
    · exact .inr ⟨hb, v, ha⟩
    · exact .inl (by rw [he])
    · exact .inl (by rw [he])
  · obtain ⟨v, n, he, -⟩ := hostRegRead_frame i s
    exact .inl (by rw [he]; rfl)
  all_goals exact .inl rfl

/-- A turn is the core's command, or a reset, or leaves the core's side alone. -/
theorem TurnOutcome.core_or_reset_or_same {s t : State} (h : TurnOutcome s t) :
    (s.status.busy = true ∧ (∀ a rest, s.schedule ≠ .host a :: rest) ∧
      ∃ l, coreStep { s with schedule := l } = .next t) ∨
    (∃ l, s.schedule = .reset :: l ∧ t = State.resetEvent { s with schedule := l }) ∨
    CoreSideSame s t := by
  cases h with
  | command busy noHost run => exact .inl ⟨busy, noHost, _, run⟩
  | stay l => exact .inr (.inr { coreSideSame_refl s with })
  | waitEnds l => exact .inr (.inr { coreSideSame_refl s with })
  | reset first => exact .inr (.inl ⟨_, first, rfl⟩)
  | host first access => exact .inr (.inr { coreSideSame_hostAccess access with })

/-- Settles O52: a command ends idle, and no other turn starts a walk or a block. -/
theorem noHiddenStateBetweenSteps : Obligations.NoHiddenStateBetweenSteps := by
  intro s t hr h
  rcases (step_idle_next hr h).core_or_reset_or_same with ⟨-, -, l, hc⟩ | ⟨l, -, rfl⟩ | hs
  · exact (coreStep_idle hc).1
  · rfl
  · exact hs.run.trans hr

/-- Settles O57: a changed register rules out every turn but the core's, and every command but those that write it. -/
theorem whoWritesTheStreamRegisters : Obligations.WhoWritesTheStreamRegisters := by
  intro s t hr hn h
  rcases (step_idle_next hr h).core_or_reset_or_same with ⟨hb, hnh, l, hc⟩ | ⟨l, hl, -⟩ | hs
  · have hidle := (coreStep_idle hc).2
    refine ⟨fun hne => ?_, fun hne => ?_⟩
    · rcases (coreStep_next hc).streamInfo with hsame | ⟨hw, hok, hp⟩
      · simp [hsame.siBlockBase, hsame.siBlockSize, hsame.siSampleRate, hsame.siFrameCount,
          hsame.siChannelCount] at hne
      · exact ⟨hnh, hb, hidle, hw, hok, hp⟩
    · rcases (coreStep_next hc).position with hsame | ⟨hw, hok⟩
      · simp [hsame.nextFrame, hsame.decoded] at hne
      · exact ⟨hnh, hb, hidle, hw, hok⟩
  · exact absurd hl (hn l)
  · refine ⟨fun hne => ?_, fun hne => ?_⟩
    · simp [hs.siBlockBase, hs.siBlockSize, hs.siSampleRate, hs.siFrameCount, hs.siChannelCount] at hne
    · simp [hs.nextFrame, hs.decoded] at hne

/-- Settles O58: of the turns only the core's command, a write of CH_STATE and a reset write CH. -/
theorem whoWritesTheChannelStates : Obligations.WhoWritesTheChannelStates := by
  intro s t hr h hne
  cases step_idle_next hr h with
  | command busy noHost run =>
    obtain ⟨hw, hok⟩ := (coreStep_next run).channels.resolve_left hne
    exact .inl ⟨noHost, busy, (coreStep_idle run).2, hw, hok⟩
  | stay l => exact absurd rfl hne
  | waitEnds l => exact absurd rfl hne
  | reset first => exact .inr (.inr ⟨_, first⟩)
  | host first access =>
    obtain ⟨hb, v, rfl⟩ := (hostAccess_channels access).resolve_left hne
    exact .inr (.inl ⟨hb, v, _, first⟩)

/-! ### In the middle of a command (log 7) -/

theorem hostSame_storeBack (s : State) : HostSame s (storeBack s) := by
  unfold storeBack
  split <;> constructor <;> rfl

theorem hostSame_nextCode {s t : State} (h : nextCode s = .next t) : HostSame s t := by
  obtain ⟨b, -, hc⟩ := nextCode_next h
  exact hostSame_applyCode hc

theorem hostSame_chunkOutcome {s t : State} {w : WalkRun} (h : ChunkOutcome s w t) : HostSame s t := by
  rcases h with ⟨e, -, rfl⟩ | ⟨w', -, rfl⟩
  · exact hostSame_raiseParse e s
  · exact hostSame_walkAdvance w' s

/-- Blocks and what follows them leave the host's side alone. -/
theorem keptByBlocks_hostSame (s : State) : KeptByBlocks (HostSame s) where
  start _ _ h _ := h.trans (hostSame_withRun _ _)
  code h hc := h.trans (hostSame_nextCode hc)
  store h := h.trans (hostSame_storeBack _)
  raise e h := h.trans (hostSame_raise e _)
  complete h := h.trans (hostSame_complete _)
  finish h := h.trans (hostSame_finishDecode _)

/-- No step changes the parameters (00_scope.md R6 to R10, log 1). -/
theorem step_params {s t : State} (h : step s = .next t) : t.params = s.params := by
  rcases step_next h with ho | ⟨w, -, -, ho⟩ | hc | ⟨b, hc⟩
  · rcases ho.core_or_reset_or_same with ⟨-, -, l, hc⟩ | ⟨l, -, rfl⟩ | hs
    · exact (hostSame_coreStep hc).params
    · rfl
    · exact hs.params
  · exact (hostSame_chunkOutcome ho).params
  · exact (hostSame_nextCode hc).params
  · exact ((keptByBlocks_hostSame s).restOfCommand (hostSame_storeBack s) hc).params

theorem nextCode_status {s t : State} (h : nextCode s = .next t) : t.status = s.status := by
  obtain ⟨b, -, hc⟩ := nextCode_next h
  obtain ⟨b', -, -, rfl⟩ := applyCode_next hc
  rfl

theorem storeBack_status (s : State) : (storeBack s).status = s.status := by
  unfold storeBack
  split <;> rfl

/-- Blocks and what follows them do not clear ERR_SEEN (10_state.md R29). -/
theorem keptByBlocks_errSeen : KeptByBlocks fun s => s.status.errSeen = true where
  start _ _ h _ := h
  code h hc := (congrArg Status.errSeen (nextCode_status hc)).trans h
  store h := (congrArg Status.errSeen (storeBack_status _)).trans h
  raise _ _ := rfl
  complete h := h
  finish h := h

theorem chunkOutcome_errSeen {s t : State} {w : WalkRun} (h : ChunkOutcome s w t) (hs : s.status.errSeen = true) :
    t.status.errSeen = true := by
  rcases h with ⟨e, -, rfl⟩ | ⟨w', -, rfl⟩
  · rfl
  · rcases walkAdvance_cases w' s with ⟨d, f, b, -, -, -, he⟩ | ⟨-, he⟩ <;> rw [he] <;> exact hs

/-- A turn that is not a reset keeps the sticky flags (10_state.md R29). -/
theorem flagsKept_turn {s t : State} (hn : ∀ rest, s.schedule ≠ .reset :: rest) (h : TurnOutcome s t) :
    FlagsKept s t := by
  rcases h.core_or_reset_or_same with ⟨-, -, l, hc⟩ | ⟨l, hl, -⟩ | hs
  · refine ⟨fun he => ?_, fun ho => (hostSame_coreStep hc).overrun.trans ho⟩
    rcases (coreStep_next hc).errSeen with ⟨-, hk⟩ | hk
    · exact hk.trans he
    · exact hk
  · exact absurd hl (hn l)
  · exact hs.toFlagsKept

/-- Every step whose turn is not a reset keeps the sticky flags (10_state.md R29). -/
theorem flagsKept_step {s t : State} (hn : ∀ rest, s.schedule ≠ .reset :: rest) (h : step s = .next t) :
    FlagsKept s t := by
  rcases step_next h with ho | ⟨w, -, -, ho⟩ | hc | ⟨b, hc⟩
  · exact flagsKept_turn hn ho
  · exact ⟨chunkOutcome_errSeen ho, fun hs => (hostSame_chunkOutcome ho).overrun.trans hs⟩
  · exact ⟨fun hs => keptByBlocks_errSeen.code hs hc, fun hs => (hostSame_nextCode hc).overrun.trans hs⟩
  · exact ⟨fun hs => keptByBlocks_errSeen.restOfCommand (keptByBlocks_errSeen.store hs) hc,
      fun hs => ((keptByBlocks_hostSame s).restOfCommand (hostSame_storeBack s) hc).overrun.trans hs⟩

/-- Settles O56: no step but a reset clears a sticky flag, and a command's error end sets ERR_SEEN. -/
theorem stickyFlags : Obligations.StickyFlags := by
  refine ⟨fun s t hn h => ?_, fun w i s t hw h hne => ?_⟩
  · obtain ⟨he, ho⟩ := flagsKept_step hn h
    exact ⟨he, ho⟩
  · rcases (exec_command_next hw h).errSeen with ⟨hok, -⟩ | hk
    · exact absurd hok hne
    · exact hk

end Sys2Proof.Machine
end

section
/-! Proofs: the words of STATUS, CONFIG and BLK_ARGS. -/

namespace Sys2Proof.Machine

/-- STATUS bit by bit (10_state.md R29). -/
theorem Status.getLsbD_word (st : Status) (i : Nat) :
    st.word.getLsbD i =
      if i < 8 then st.err.code.getLsbD i else if i = 8 then st.busy else if i = 9 then st.parsed
      else if i = 10 then st.errSeen else if i = 11 then st.overrun else false := by
  unfold Status.word
  iterate 5 rw [BitVec.getLsbD_append]
  simp only [BitVec.getLsbD_ofBool, BitVec.getLsbD_zero]
  obtain h | rfl | rfl | rfl | rfl | h : i < 8 ∨ i = 8 ∨ i = 9 ∨ i = 10 ∨ i = 11 ∨ 12 ≤ i := by omega
  · simp only [if_pos h]
  · simp
  · simp
  · simp
  · simp
  · iterate 10 rw [if_neg (by omega)]

/-- Settles O9: the fields are read off STATUS bit by bit, and the codes are those of the table. -/
theorem statusWordLayout : Obligations.StatusWordLayout := by
  refine ⟨fun st => ⟨?_, st.word_busy, ?_, ?_, ?_, ?_⟩, rfl, rfl⟩
  · ext i hi
    simp [Status.getLsbD_word, hi]
  · exact st.getLsbD_word 9
  · exact st.getLsbD_word 10
  · exact st.getLsbD_word 11
  · ext i hi
    rw [BitVec.getElem_extractLsb', st.getLsbD_word, if_neg (by omega), if_neg (by omega), if_neg (by omega),
      if_neg (by omega), if_neg (by omega)]
    simp

/-- CONFIG bit by bit (10_state.md R30). -/
theorem getLsbD_configWord (p : Params) (i : Nat) :
    (Params.configWord p).getLsbD i =
      if i = 0 then decide (p.outFmt = .float32) else if i = 1 then decide (p.streamMode = .stateless)
      else if i < 32 then false else (BitVec.ofNat 16 p.maxChannels).getLsbD (i - 32) := by
  unfold Params.configWord
  iterate 4 rw [BitVec.getLsbD_append]
  simp only [BitVec.getLsbD_ofBool, BitVec.getLsbD_zero, Nat.sub_sub, Nat.reduceAdd]
  obtain rfl | rfl | h | h : i = 0 ∨ i = 1 ∨ (2 ≤ i ∧ i < 32) ∨ 32 ≤ i := by omega
  · simp
  · simp
  · rw [if_neg (by omega), if_neg (by omega), if_pos (by omega), if_neg (by omega), if_neg (by omega), if_pos h.2]
  · rw [if_neg (show ¬ i < 1 by omega), if_neg (show ¬ i - 1 < 1 by omega), if_neg (show ¬ i - 2 < 30 by omega),
      if_neg (show ¬ i = 0 by omega), if_neg (show ¬ i = 1 by omega), if_neg (show ¬ i < 32 by omega)]
    split
    · rfl
    · exact (BitVec.getLsbD_of_ge _ _ (by omega)).symm

theorem configWord_maxChannels {p : Params} (hp : p.valid) :
    ((Params.configWord p).extractLsb' 32 16).toNat = p.maxChannels := by
  have he : (Params.configWord p).extractLsb' 32 16 = BitVec.ofNat 16 p.maxChannels := by
    ext i hi
    rw [BitVec.getElem_extractLsb', getLsbD_configWord, if_neg (by omega), if_neg (by omega), if_neg (by omega),
      Nat.add_sub_cancel_left, BitVec.getLsbD_eq_getElem hi]
  obtain ⟨-, hle, -, -⟩ := hp
  rw [he, BitVec.toNat_ofNat, Nat.mod_eq_of_lt (by omega)]

/-- Settles O10: the fields are read off CONFIG bit by bit, and no step changes the parameters. -/
theorem configShowsTheParameters : Obligations.ConfigShowsTheParameters := by
  refine ⟨fun s hp => ?_, fun s t h => ⟨step_params h, ?_⟩⟩
  · rw [State.regValue_2]
    refine ⟨?_, ?_, ?_, configWord_maxChannels hp, ?_⟩
    · rw [getLsbD_configWord, if_pos rfl, decide_eq_true_iff]
    · rw [getLsbD_configWord, if_neg (by decide), if_pos rfl, decide_eq_true_iff]
    · ext i hi
      rw [BitVec.getElem_extractLsb', getLsbD_configWord, if_neg (by omega), if_neg (by omega), if_pos (by omega)]
      simp
    · ext i hi
      rw [BitVec.getElem_extractLsb', getLsbD_configWord, if_neg (by omega), if_neg (by omega), if_neg (by omega),
        BitVec.getLsbD_of_ge _ _ (by omega)]
      simp
  · rw [State.regValue_2, State.regValue_2, step_params h]

/-- Reading BLK_ARGS back clears its reserved bits 7 and 31:24 (10_state.md R34). -/
theorem BlkArgs.word_ofWord (v : Word64) : (BlkArgs.ofWord v).word = v &&& 0xFFFFFFFF00FFFF7F#64 := by
  have hmask : 0xFFFFFFFF00FFFF7F#64 =
      BitVec.allOnes 32 ++ 0#8 ++ BitVec.allOnes 16 ++ 0#1 ++ BitVec.allOnes 7 := by decide
  have hv : v.extractLsb' 32 32 ++ v.extractLsb' 24 8 ++ v.extractLsb' 8 16 ++ v.extractLsb' 7 1 ++ v.extractLsb' 0 7 =
      v := by
    rw [BitVec.extractLsb'_append_extractLsb'_eq_extractLsb' (show 32 = 24 + 8 from rfl),
      BitVec.extractLsb'_append_extractLsb'_eq_extractLsb' (show 24 = 8 + 16 from rfl),
      BitVec.extractLsb'_append_extractLsb'_eq_extractLsb' (show 8 = 7 + 1 from rfl),
      BitVec.extractLsb'_append_extractLsb'_eq_extractLsb' (show 7 = 0 + 7 from rfl)]
    exact BitVec.extractLsb'_eq_self
  calc (BlkArgs.ofWord v).word
      = v.extractLsb' 32 32 ++ 0#8 ++ v.extractLsb' 8 16 ++ 0#1 ++ v.extractLsb' 0 7 := rfl
    _ = (v.extractLsb' 32 32 ++ v.extractLsb' 24 8 ++ v.extractLsb' 8 16 ++ v.extractLsb' 7 1 ++ v.extractLsb' 0 7) &&&
        (BitVec.allOnes 32 ++ 0#8 ++ BitVec.allOnes 16 ++ 0#1 ++ BitVec.allOnes 7) := by
      iterate 4 rw [BitVec.and_append]
      simp only [BitVec.and_allOnes, BitVec.and_zero]
    _ = v &&& 0xFFFFFFFF00FFFF7F#64 := by
      rw [hmask]
      exact congrArg (· &&& _) hv

/-- A word cut to its low `n` bits is the word with its other bits cleared. -/
theorem setWidth_setWidth_eq_and (v : Word64) {n : Nat} (hn : n ≤ 64) :
    (v.setWidth n).setWidth 64 = v &&& BitVec.ofNat 64 (2 ^ n - 1) := by
  have hp : 2 ^ n ≤ 2 ^ 64 := Nat.pow_le_pow_right (by decide) hn
  apply BitVec.eq_of_toNat_eq
  rw [BitVec.toNat_and, BitVec.toNat_ofNat, Nat.mod_eq_of_lt (by omega), Nat.and_two_pow_sub_one_eq_mod,
    BitVec.toNat_setWidth_of_le hn, BitVec.toNat_setWidth]

end Sys2Proof.Machine
end

section
/-! Proofs: the host's register accesses (10_state.md R24 to R35). -/

namespace Sys2Proof.Machine

/-- A register write while BUSY = 0, as a step. -/
theorem step_regWrite {s : State} {i : Nat} {v : Word64} {rest : List Turn} (hh : s.hostHazard = false)
    (hr : s.run = .idle) (hs : s.schedule = .host (.regWrite i v) :: rest) (hb : s.status.busy = false) :
    step s = .next (writeReg i v { s with schedule := rest }) := by
  rw [step_host hh hr hs]
  simp [hostAccess, hostRegWrite, hb]

/-- Settles O42: a write is dropped while BUSY = 1, and each index has its own lemma while BUSY = 0. -/
theorem registerWritesAndBusy : Obligations.RegisterWritesAndBusy := by
  intro s i v rest hh hr hs
  refine ⟨fun hb => ?_, fun hb => ⟨?_, ?_⟩⟩
  · rw [step_host hh hr hs]
    simp [hostAccess, hostRegWrite, hb, Status.overran]
  · rintro rfl
    rw [step_regWrite hh hr hs hb, writeReg_0]
    rfl
  · rw [step_regWrite hh hr hs hb]
    rintro (rfl | rfl | hi)
    · rw [writeReg_status]
    · rw [writeReg_config]
    · rw [writeReg_ge v _ hi]

/-- Settles O45: a read only adds to what the host keeps, the current value or a fresh draw. -/
theorem registerReadsAreCurrent : Obligations.RegisterReadsAreCurrent := by
  intro s i rest hh hr hs
  rw [step_host hh hr hs]
  refine ⟨fun h => ?_, fun h => ?_, ?_⟩
  · have hn : ¬ (s.status.busy = true ∧ i ≠ 1 ∧ i ≠ 2) := by
      rintro ⟨hb, h1, h2⟩
      simp [hb, h1, h2] at h
    simp only [hostAccess, hostRegRead, if_neg hn]
    rfl
  · simp only [hostAccess, hostRegRead, if_pos h]
    rfl
  · rintro (rfl | hi)
    · exact s.regValue_0
    · exact s.regValue_ge hi

/-- What a write of an argument register leaves there: its reserved bits are 0 (10_state.md R31 to R35). -/
theorem regValue_writeReg_same {i : Nat} (v : Word64) (s : State) (h3 : 3 ≤ i) (h11 : i ≤ 11) :
    (writeReg i v s).regValue i =
      if i = 8 then v &&& 0x00000000FFFFFFFF#64
      else if i = 10 then v &&& 0xFFFFFFFF00FFFF7F#64
      else if i = 11 then v &&& 0x000000000000FFFF#64
      else v := by
  by_cases hres : i = 8 ∨ i = 10 ∨ i = 11
  · rcases hres with rfl | rfl | rfl
    · exact setWidth_setWidth_eq_and v (n := 32) (by decide)
    · exact BlkArgs.word_ofWord v
    · exact setWidth_setWidth_eq_and v (n := 16) (by decide)
  · rw [if_neg (by omega), if_neg (by omega), if_neg (by omega)]
    obtain rfl | rfl | rfl | rfl | rfl | rfl : i = 3 ∨ i = 4 ∨ i = 5 ∨ i = 6 ∨ i = 7 ∨ i = 9 := by omega
    all_goals rfl

/-- A write of an argument register changes no other register, but the CH_STATE window of a new CH_SEL (10_state.md
R35). -/
theorem regValue_writeReg_other {i j : Nat} (v : Word64) (s : State) (h3 : 3 ≤ i) (h11 : i ≤ 11) (hj : j ≠ i)
    (hsel : ¬ (i = 11 ∧ j = 12)) : (writeReg i v s).regValue j = s.regValue j := by
  by_cases h20 : j < 20
  · rcases Nat.lt_or_gt_of_ne hj with hlt | hgt
    · interval_cases i <;> interval_cases j <;> rfl
    · by_cases hi : i = 11
      · subst hi
        have h13 : 13 ≤ j := by omega
        interval_cases j <;> rfl
      · have h10 : i ≤ 10 := by omega
        interval_cases i <;> interval_cases j <;> rfl
  · rw [State.regValue_ge _ (by omega), State.regValue_ge _ (by omega)]

/-- A write of an argument register changes no argument of another kind: CH, the memories, STATUS and the pending word
stay (10_state.md R31 to R35). -/
theorem writeReg_arg_frame {i : Nat} (v : Word64) (s : State) (h3 : 3 ≤ i) (h11 : i ≤ 11) :
    (writeReg i v s).ch = s.ch ∧ (writeReg i v s).inMem = s.inMem ∧ (writeReg i v s).outMem = s.outMem ∧
      (writeReg i v s).status = s.status ∧ (writeReg i v s).pending = s.pending := by
  rcases writeReg_cases i v s with ⟨rfl, -⟩ | ⟨rfl, -⟩ | ⟨-, -, b, l, ob, ol, fo, fc, ba, bb, cs, he⟩ | he
  · omega
  · omega
  · rw [he]
    exact ⟨rfl, rfl, rfl, rfl, rfl⟩
  · rw [he]
    exact ⟨rfl, rfl, rfl, rfl, rfl⟩

/-- Settles O43: the value read back, the other registers, and the frame, each by its lemma. -/
theorem registerWritesReadBack : Obligations.RegisterWritesReadBack := by
  intro s i v rest hh hr hs hb h3 h11
  exact ⟨_, step_regWrite hh hr hs hb, regValue_writeReg_same v _ h3 h11,
    fun j hj hsel => regValue_writeReg_other v { s with schedule := rest } h3 h11 hj hsel,
    writeReg_arg_frame v { s with schedule := rest } h3 h11⟩

/-- The entry a word written to CH_STATE stands for, as numbers (10_state.md R35). -/
theorem ChannelState.ofWindow_eq (v : Word64) :
    ChannelState.ofWindow v =
      { index := min (v.toNat % 256) 88, predictor := (v.extractLsb' 16 16).toInt } := by
  simp [ChannelState.ofWindow]

/-- The window of the entry a word stands for: the clamped index and the predictor's own bits (10_state.md R35). -/
theorem ChannelState.window_ofWindow (v : Word64) :
    (ChannelState.ofWindow v).window.toNat = min (v.toNat % 256) 88 + v.toNat / 65536 % 65536 * 65536 := by
  rw [ChannelState.ofWindow_eq, ChannelState.window_toNat _ (by simp only; omega), BitVec.ofInt_toInt,
    BitVec.extractLsb'_toNat, Nat.shiftRight_eq_div_pow]

/-- Settles O44: a selector past the channels drops the write and reads 0, any other reads the entry written back. -/
theorem chStateWindow : Obligations.ChStateWindow := by
  intro s v rest hh hr hs hb hl
  rw [step_regWrite hh hr hs hb, writeReg_12]
  refine ⟨fun hsel => ⟨?_, ?_⟩, fun hsel => ⟨_, rfl, ?_, ?_⟩⟩
  · rw [writeChState, if_neg (by simpa using hsel)]
  · rw [State.regValue_12, State.chStateWord, if_neg (by omega)]
  · rw [writeChState, if_pos hsel, ← ChannelState.ofWindow_eq]
    rfl
  · rw [writeChState, if_pos hsel, State.regValue_12, State.chStateWord, ← ChannelState.window_ofWindow]
    simp [State.channel, hsel, hl]

end Sys2Proof.Machine
end

section
/-! Proofs: the frame of every instruction, and where a command writes OUT (20_memory.md R60 to R62). -/

namespace Sys2Proof.Machine

/-- Settles O54: every field the record writes back is the one `hostSame_exec` says is unchanged. -/
theorem noInstructionWritesTheHostsState : Obligations.NoInstructionWritesTheHostsState := by
  intro i s t h
  have hs := hostSame_exec h
  rw [← hs.params, ← hs.pending, ← hs.inBase, ← hs.inLen, ← hs.outBase, ← hs.outLen, ← hs.frameOffset,
    ← hs.frameCount, ← hs.blkAddr, ← hs.blkArgs, ← hs.chSel, ← hs.inMem, ← hs.hostHazard, ← hs.schedule,
    ← hs.history, ← hs.draws, ← hs.overrun]

theorem outElem_afterBlock_other {s : State} {a : BlockArgs} {e : Nat}
    (h : ∀ i < a.count, e ≠ a.outBase + i * a.stride) : (afterBlock a s).outElem e = s.outElem e :=
  congrArg (Option.getD · _) (blockOut_other a.count h)

theorem outElem_afterBlocks_other {s : State} {e n : Nat}
    (h : ∀ m < n, ∀ i < (decodeArgs s m).count, e ≠ (decodeArgs s m).outBase + i * (decodeArgs s m).stride) :
    (afterBlocks s n).outElem e = s.outElem e := by
  induction n with
  | zero => rfl
  | succ n ih =>
    rw [afterBlocks, outElem_afterBlock_other (h n (by omega)), ih fun m hm => h m (by omega)]

/-- The elements of a DECODE's blocks lie in its window when its checks pass (42_stream_decoder.md R190). -/
theorem DecodeReady.elem_in_window {s : State} (h : DecodeReady s) {n i : Nat} (hn : n < decodeBlockTotal s)
    (hi : i < (decodeArgs s n).count) :
    s.outBase.toNat ≤ (decodeArgs s n).outBase + i * (decodeArgs s n).stride ∧
      (decodeArgs s n).outBase + i * (decodeArgs s n).stride < s.outBase.toNat + s.outLen.toNat := by
  obtain ⟨J, C, hC, rfl⟩ := slot_exists n h.channels.1
  rw [decodeArgs_slot s hC] at hi ⊢
  simp only [refFrames] at hi ⊢
  have hframe : (64 * J + i + 1) * s.siChannelCount.toNat ≤ s.frameCount.toNat * s.siChannelCount.toNat :=
    Nat.mul_le_mul_right _ (by omega)
  rw [Nat.succ_mul, Nat.add_mul] at hframe
  have := h.output.1
  omega

/-- The blocks of a DECODE whose checks pass leave OUT outside its window (20_memory.md R61). -/
theorem DecodeReady.outElem_afterBlocks {s : State} (h : DecodeReady s) {n e : Nat} (hn : n ≤ decodeBlockTotal s)
    (he : e < s.outBase.toNat ∨ s.outBase.toNat + s.outLen.toNat ≤ e) :
    (afterBlocks (decodeStart s) n).outElem e = s.outElem e := by
  calc (afterBlocks (decodeStart s) n).outElem e
      = (decodeStart s).outElem e := outElem_afterBlocks_other fun m hm i hi => by
        rw [decodeArgs_decodeStart] at hi ⊢
        have := h.elem_in_window (by omega) hi
        omega
    _ = s.outElem e := by
        rw [decodeStart_frame]
        rfl

/-- Settles O55: only DECODE and DECODE_BLOCK write OUT, and their checks keep each element in the window. -/
theorem commandsWriteOnlyTheWindow : Obligations.CommandsWriteOnlyTheWindow := by
  intro w i s t hw h e he
  rcases decodeCommand_ok hw with ⟨-, rfl⟩ | ⟨-, rfl⟩ | ⟨-, rfl⟩ | ⟨-, rfl⟩ | ⟨-, rfl⟩ <;> simp only [exec] at h
  · cases h
    rfl
  · obtain ⟨t', ht, ho⟩ := execParse_outcome s
    rw [ht] at h
    cases h
    rcases ho with ⟨_, -, rfl⟩ | ⟨_, _, _, -, -, -, -, rfl⟩ <;> rfl
  · rcases execDecode_cases s with ⟨-, _, -, hd⟩ | ⟨hr, -, hd⟩ | ⟨hr, a, ha, -, -, hd⟩ | ⟨-, hd⟩ <;> rw [hd] at h <;>
      cases h
    · rfl
    · exact hr.outElem_afterBlocks (Nat.le_refl _) he
    · exact hr.outElem_afterBlocks (Nat.le_of_lt ha) he
  · rcases execDecodeBlock_cases s with ⟨_, -, hd⟩ | ⟨hr, -, hd⟩ <;> rw [hd] at h <;> cases h
    · rfl
    · refine outElem_afterBlock_other fun i hi => ?_
      have : s.outBase.toNat + i * s.blkArgs.stride.toNat < s.outBase.toNat + s.outLen.toNat := (hr.elem_lt hi).1
      simp only [decodeBlockArgs]
      omega
  · cases h
    rfl

end Sys2Proof.Machine
end

section
/-! Proofs: the host's accesses to IN and OUT (20_memory.md R60, R61, R68). -/

namespace Sys2Proof.Machine

/-- A PCM16 element keeps the low half of the pattern written, a FLOAT32 element all of it (20_memory.md R61). -/
theorem elementBits_eq_and (f : OutFmt) (v : Word32) :
    elementBits f v = if f = .pcm16 then v &&& 0x0000FFFF#32 else v := by
  cases f with
  | float32 => rfl
  | pcm16 =>
    apply BitVec.eq_of_toNat_eq
    rw [elementBits, if_pos rfl, BitVec.toNat_setWidth_of_le (by decide), BitVec.extractLsb'_toNat,
      BitVec.toNat_and, Nat.shiftRight_zero]
    exact (Nat.and_two_pow_sub_one_eq_mod v.toNat 16).symm

/-- Settles O47: a turn of the host is its access; one that exists stores or reads as the memory's laws say. -/
theorem hostMemoryAccesses : Obligations.HostMemoryAccesses := by
  refine ⟨?inWrite, ?inRead, ?outWrite, ?outRead⟩
  case inWrite =>
    intro s a b rest hh hr hs
    rw [step_host hh hr hs]
    refine ⟨fun ha => if_pos ha, fun ha hb => ⟨State.storeIn a b { s with schedule := rest }, ?_,
      State.inByte_storeIn_same _ a b, fun a' hne => State.inByte_storeIn_other _ b hne, rfl⟩⟩
    simp [hostAccess, Nat.not_le.2 ha, hb]
  case inRead =>
    intro s a rest hh hr hs
    rw [step_host hh hr hs]
    exact ⟨fun ha => if_pos ha, fun ha => if_neg (Nat.not_le.2 ha)⟩
  case outWrite =>
    intro s e v rest hh hr hs
    rw [step_host hh hr hs]
    refine ⟨fun he => if_pos he, fun he hb =>
      ⟨State.storeOut e (elementBits s.params.outFmt v) { s with schedule := rest }, ?_, ?_,
        fun e' hne => State.outElem_storeOut_other _ _ hne, rfl⟩⟩
    · simp [hostAccess, Nat.not_le.2 he, hb]
    · rw [State.outElem_storeOut_same, elementBits_eq_and]
  case outRead =>
    intro s e rest hh hr hs
    rw [step_host hh hr hs]
    refine ⟨fun he => if_pos he, fun he hb => ?_⟩
    simp only [hostAccess, if_neg (Nat.not_le.2 he), hb]
    rfl

end Sys2Proof.Machine
end

section
/-! Proofs: encoding and decoding undo each other, and which words stand for nothing (30_encoding.md). -/

namespace Sys2Proof

/-- The row of a tag that no other row has (30_encoding.md R89). -/
theorem decodeChunk_of_not_recognised {tag : Word32} (h : Tag.recognised tag = false) (size : Word64) :
    decodeChunk tag size = .chunkOther tag size := by
  have hne : ¬(tag = Tag.desc ∨ tag = Tag.pakt ∨ tag = Tag.data) := by
    rw [← Tag.recognised_iff, h]
    exact Bool.false_ne_true
  obtain ⟨hdesc, hrest⟩ := not_or.1 hne
  obtain ⟨hpakt, hdata⟩ := not_or.1 hrest
  rw [decodeChunk, if_neg hdesc, if_neg hpakt, if_neg hdata]

/-- Whichever row a tag has, its encoding has that tag and the size (30_encoding.md R84, R85, R89). -/
theorem encode_decodeChunk (tag : Word32) (size : Word64) :
    encode (decodeChunk tag size) = .chunkHeader (chunkHeaderBytes tag size) := by
  unfold decodeChunk
  split_ifs with hdesc hpakt hdata
  · rw [hdesc, encode]
  · rw [hpakt, encode]
  · rw [hdata, encode]
  · rw [encode]

theorem wellFormed_decodeChunk (tag : Word32) (size : Word64) : (decodeChunk tag size).wellFormed = true := by
  cases h : Tag.recognised tag with
  | false => simp [decodeChunk_of_not_recognised h, Instr.wellFormed, h]
  | true => rcases (Tag.recognised_iff tag).1 h with rfl | rfl | rfl <;> rfl

/-- Each of the 16 codes is the code of its row, and of no other (30_encoding.md R93). -/
theorem encode_decodeCode : ∀ c : Nibble, encode (decodeCode c) = .code c ∧ (decodeCode c).wellFormed = true := by
  decide

/-- Settles O1: command words and codes are literals, and a chunk header holds its tag and size. -/
theorem decodeOfEncodeIsTheInstruction : Obligations.DecodeOfEncodeIsTheInstruction := by
  intro i hwf
  cases i with
  | chunkDesc size => exact decodeChunkHeader_chunkHeaderBytes Tag.desc size
  | chunkPakt size => exact decodeChunkHeader_chunkHeaderBytes Tag.pakt size
  | chunkData size => exact decodeChunkHeader_chunkHeaderBytes Tag.data size
  | chunkOther tag size =>
    have htag : Tag.recognised tag = false := by simpa [Instr.wellFormed] using hwf
    rw [encode, decode, decodeChunkHeader_chunkHeaderBytes, decodeChunk_of_not_recognised htag]
  | _ => rfl

/-- Settles O2: by format; the five words, the 16 codes, and twelve bytes as the header of the tag and size they hold. -/
theorem encodeOfDecodeIsTheEncoding : Obligations.EncodeOfDecodeIsTheEncoding := by
  intro e i h
  cases e with
  | command w =>
    rcases decodeCommand_ok h with ⟨rfl, rfl⟩ | ⟨rfl, rfl⟩ | ⟨rfl, rfl⟩ | ⟨rfl, rfl⟩ | ⟨rfl, rfl⟩ <;> exact ⟨rfl, rfl⟩
  | code c =>
    cases h
    exact encode_decodeCode c
  | chunkHeader bytes =>
    rw [decode, decodeChunkHeader] at h
    split at h
    · next hlen =>
      cases h
      exact ⟨by rw [encode_decodeChunk, chunkHeaderBytes_ofBytes hlen], wellFormed_decodeChunk _ _⟩
    · cases h

/-- The words that are no command (30_encoding.md R82). -/
theorem decodeCommand_error_iff (w : Word64) :
    (∃ e, decodeCommand w = .error e) ↔ (5 ≤ w.toNat % 16 ∨ w.toNat / 16 ≠ 0) := by
  constructor
  · rintro ⟨e, he⟩
    rcases decodeCommand_cases w with ⟨-, hd⟩ | ⟨-, hd⟩ | ⟨-, hd⟩ | ⟨-, hd⟩ | ⟨-, hd⟩ | ⟨hw, -⟩
    iterate 5 · cases hd.symm.trans he
    exact hw
  · intro hw
    cases hd : decodeCommand w with
    | error e => exact ⟨e, rfl⟩
    | ok i =>
      rcases decodeCommand_ok hd with ⟨rfl, -⟩ | ⟨rfl, -⟩ | ⟨rfl, -⟩ | ⟨rfl, -⟩ | ⟨rfl, -⟩ <;>
        exact absurd hw (by decide)

/-- Settles O3: the five words are literals, and `decodeCommand` reads their OP and reserved fields. -/
theorem commandWordsDecode : Obligations.CommandWordsDecode :=
  ⟨rfl, rfl, rfl, rfl, rfl⟩

/-- Settles O4: the codes are literals, and the twelve bytes are those of the tag and size written beside them. -/
theorem codesAndChunkHeadersDecode : Obligations.CodesAndChunkHeadersDecode := by
  refine ⟨rfl, rfl, rfl, ?desc, ?pakt, ?data, ?other⟩
  case desc => exact decodeChunkHeader_chunkHeaderBytes Tag.desc 32#64
  case pakt => exact decodeChunkHeader_chunkHeaderBytes Tag.pakt 24#64
  case data => exact decodeChunkHeader_chunkHeaderBytes Tag.data 0x102#64
  case other => exact decodeChunkHeader_chunkHeaderBytes 0x66726565#32 6#64

end Sys2Proof
end

section
/-! Proofs: a busy core's turn, and its step on an illegal command word (60_exceptions.md R213, R214). -/

namespace Sys2Proof.Machine

theorem dropTurn_of_noTurns {s : State} (hs : s.schedule = []) : dropTurn s = s := by
  rw [dropTurn, hs, List.tail_nil, ← hs]

/-- A busy core takes its step when its turn is first, and when no turn is left (60_exceptions.md R214, log 5). -/
theorem step_core_busy {s : State} (hh : s.hostHazard = false) (hr : s.run = .idle) (hb : s.status.busy = true)
    (hs : s.schedule = [] ∨ ∃ rest, s.schedule = .core :: rest) : step s = coreStep (dropTurn s) := by
  rcases hs with hs | ⟨rest, hs⟩
  · rw [dropTurn_of_noTurns hs]
    simp [step, machineStep, takeTurn, coreTurn, hh, hr, hb, hs]
  · simp [step, machineStep, takeTurn, coreTurn, hh, hr, hb, hs]

/-- A busy core takes its step while the host waits for it, and the WAIT stays (30_encoding.md R98, log 6). -/
theorem step_wait_busy {s : State} {rest : List Turn} (hh : s.hostHazard = false) (hr : s.run = .idle)
    (hb : s.status.busy = true) (hs : s.schedule = .wait :: rest) : step s = coreStep s := by
  simp [step, machineStep, takeTurn, hh, hr, hb, hs]

/-- An illegal word ends its command with ILLEGAL_CMD and does nothing else (60_exceptions.md R213). -/
theorem coreStep_illegal {s : State} {e : DecodeError} (h : decodeCommand s.pending = .error e) :
    coreStep s = .next (endedWith .illegalCmd s) := by
  rw [coreStep, h]
  rfl

/-- Settles O5: the refused words are those of `decodeCommand_error_iff`, and each of the turns is the core's step. -/
theorem illegalCommandWords : Obligations.IllegalCommandWords := by
  refine ⟨decodeCommand_error_iff, fun s hh hr hb hw => ?_⟩
  obtain ⟨e, he⟩ := (decodeCommand_error_iff s.pending).2 hw
  refine ⟨fun hs => ?core, fun rest hs => ?wait⟩
  case core => exact (step_core_busy hh hr hb hs).trans (coreStep_illegal he)
  case wait => exact (step_wait_busy hh hr hb hs).trans (coreStep_illegal he)

end Sys2Proof.Machine
end

section
/-! Proofs: what a chunk of each class does in a walk whose buffer lies in IN (40_container_parser.md R118 to R128). -/

namespace Sys2Proof.Machine

/-- An error of PARSE clears PARSED and touches STATUS only (40_container_parser.md R129). -/
theorem raiseParse_eq_parseEndedWith (e : ErrCode) (s : State) : s.raiseParse e = parseEndedWith e s := rfl

/-- A four-byte word of IN has a value when its bytes have it, read big-endian (20_memory.md R63). -/
theorem State.rdU32_eq_iff (s : State) (a : Nat) (v : Word32) : s.rdU32 a = v ↔ s.memRead a 4 = v.toNat := by
  rw [← s.rdU32_toNat, BitVec.toNat_inj]

theorem State.rdU16_eq_iff (s : State) (a : Nat) (v : Word16) : s.rdU16 a = v ↔ s.memRead a 2 = v.toNat := by
  rw [← s.rdU16_toNat, BitVec.toNat_inj]

/-- A chunk with a negative size other than a data chunk's -1, or with a payload past the buffer, is CORRUPT whatever
its class would do with the payload (40_container_parser.md R118, R119). -/
theorem applyChunk_of_badSize {isData : Bool} {size : Word64} {s : State} {w : WalkRun}
    {body : WalkRun → Nat → Nat → Except ErrCode WalkRun} (hr : s.run = .walk w) (hb : w.bufEnd ≤ s.params.inSize)
    (hbad : size.toInt < 0 ∨ w.bufEnd < w.cursor + 12 + size.toNat) (hdata : isData = true → size.toInt ≠ -1) :
    applyChunk isData size s body = .next (parseEndedWith .corrupt s) := by
  simp only [applyChunk, hr, if_pos hb]
  by_cases hneg : size.toInt < 0
  · have hl : chunkLength isData size (w.cursor + 12) w.bufEnd = none := by
      rw [chunkLength, if_pos hneg, if_neg fun h => hdata h.1 h.2]
    simp only [hl, raiseParse_eq_parseEndedWith]
  · have hl : chunkLength isData size (w.cursor + 12) w.bufEnd = some size.toNat := if_neg hneg
    simp only [hl, if_pos (hbad.resolve_left hneg), raiseParse_eq_parseEndedWith]

/-- Settles O18: only the data class has a length for a negative size, and only for -1. -/
theorem chunkSizesAreChecked : Obligations.ChunkSizesAreChecked := by
  intro s w tag size hr hb hbad
  refine ⟨?desc, ?pakt, ?other, fun hsize => ?data⟩
  case desc | pakt => exact applyChunk_of_badSize (isData := false) hr hb hbad nofun
  case other => exact applyChunk_of_badSize (isData := false) (body := fun w _ _ => .ok w) hr hb hbad nofun
  case data => exact applyChunk_of_badSize hr hb hbad fun _ => hsize

/-- A walk is in progress in a buffer inside IN, and a chunk of this size at its cursor has a payload of `len` bytes,
all in the buffer (40_container_parser.md R118, R119). -/
structure ChunkFits (isData : Bool) (size : Word64) (len : Nat) (s : State) (w : WalkRun) : Prop where
  run : s.run = .walk w
  buffer : w.bufEnd ≤ s.params.inSize
  length : chunkLength isData size (w.cursor + 12) w.bufEnd = some len
  inside : w.cursor + 12 + len ≤ w.bufEnd

section
variable {isData : Bool} {size : Word64} {len : Nat} {s : State} {w : WalkRun}

theorem ChunkFits.of_toInt_nonneg (hr : s.run = .walk w) (hb : w.bufEnd ≤ s.params.inSize) (hs : 0 ≤ size.toInt)
    (hin : w.cursor + 12 + size.toNat ≤ w.bufEnd) : ChunkFits isData size size.toNat s w :=
  ⟨hr, hb, if_neg (Int.not_lt.2 hs), hin⟩

theorem ChunkFits.of_toInt_eq (hr : s.run = .walk w) (hb : w.bufEnd ≤ s.params.inSize) (hs : size.toInt = len)
    (hin : w.cursor + 12 + len ≤ w.bufEnd) : ChunkFits isData size len s w :=
  ⟨hr, hb, chunkLength_of_nat isData hs, hin⟩

theorem ChunkFits.of_data (hr : s.run = .walk w) (hb : w.bufEnd ≤ s.params.inSize)
    (hs : size.toInt = len ∨ (size.toInt = -1 ∧ w.cursor + 12 + len = w.bufEnd))
    (hin : w.cursor + 12 + len ≤ w.bufEnd) : ChunkFits true size len s w :=
  ⟨hr, hb, chunkLength_data hs, hin⟩

/-- A chunk that fits ends PARSE with the error its class finds in the payload. -/
theorem ChunkFits.applyChunk_error {body : WalkRun → Nat → Nat → Except ErrCode WalkRun} {e : ErrCode}
    (h : ChunkFits isData size len s w) (he : body w (w.cursor + 12) len = .error e) :
    applyChunk isData size s body = .next (parseEndedWith e s) := by
  rw [applyChunk_inside h.run h.buffer h.length h.inside, he]
  rfl

/-- A chunk that fits and that its class accepts moves the walk past its payload (40_container_parser.md R126). -/
theorem ChunkFits.applyChunk_ok {body : WalkRun → Nat → Nat → Except ErrCode WalkRun} {w' : WalkRun}
    (h : ChunkFits isData size len s w) (hok : body w (w.cursor + 12) len = .ok w') :
    applyChunk isData size s body = .next (walkAdvance { w' with cursor := w.cursor + 12 + len } s) := by
  rw [applyChunk_inside h.run h.buffer h.length h.inside, hok]

/-- The walk after a legal desc chunk of `len` payload bytes at its cursor (40_container_parser.md R120, R126). -/
def WalkRun.afterDesc (s : State) (len : Nat) (w : WalkRun) : WalkRun :=
  { w with
    cursor := w.cursor + 12 + len
    desc := some { rate := s.rdU64 (w.cursor + 12), chans := s.rdU32 (w.cursor + 36) } }

/-- The walk after a legal pakt chunk of `len` payload bytes at its cursor (40_container_parser.md R122, R126). -/
def WalkRun.afterPakt (s : State) (len : Nat) (w : WalkRun) : WalkRun :=
  { w with cursor := w.cursor + 12 + len, pakt := some (s.rdU64 (w.cursor + 20)) }

/-- The walk after a legal data chunk of `len` payload bytes at its cursor (40_container_parser.md R124, R126). -/
def WalkRun.afterData (len : Nat) (w : WalkRun) : WalkRun :=
  { w with cursor := w.cursor + 12 + len, data := some { base := w.cursor + 16, size := len - 4 } }

/-- A legal desc chunk moves the walk on (40_container_parser.md R120). -/
theorem exec_chunkDesc_legal (h : ChunkFits false size len s w) (hl : 32 ≤ len)
    (hf : s.rdU32 (w.cursor + 20) = Tag.ima4) :
    exec (.chunkDesc size) s = .next (walkAdvance (w.afterDesc s len) s) := by
  refine h.applyChunk_ok (body := descBody s) (w' := { w.afterDesc s len with cursor := w.cursor }) ?_
  rw [descBody, if_neg (Nat.not_lt.2 hl), if_neg (not_not.2 hf)]
  rfl

/-- A legal pakt chunk moves the walk on (40_container_parser.md R122, R123). -/
theorem exec_chunkPakt_legal (h : ChunkFits false size len s w) (hl : 24 ≤ len)
    (hf : 0 ≤ (s.rdU64 (w.cursor + 20)).toInt) :
    exec (.chunkPakt size) s = .next (walkAdvance (w.afterPakt s len) s) := by
  refine h.applyChunk_ok (body := paktBody s) (w' := { w.afterPakt s len with cursor := w.cursor }) ?_
  rw [paktBody, if_neg (Nat.not_lt.2 hl), if_neg (Int.not_lt.2 hf)]
  rfl

/-- A legal data chunk moves the walk on (40_container_parser.md R124). -/
theorem exec_chunkData_legal (h : ChunkFits true size len s w) (hl : 4 ≤ len) :
    exec (.chunkData size) s = .next (walkAdvance (w.afterData len) s) :=
  h.applyChunk_ok (body := dataBody) (w' := { w.afterData len with cursor := w.cursor }) (if_neg (Nat.not_lt.2 hl))

end

/-- Settles O19: the checks of `descBody` in their order, and `walkAdvance_on` while a kind is missing. -/
theorem descChunk : Obligations.DescChunk := by
  intro s w size hr hb hs hin
  have fits : ChunkFits false size size.toNat s w := .of_toInt_nonneg hr hb hs hin
  have hfmt := s.rdU32_eq_iff (w.cursor + 20) Tag.ima4
  refine ⟨fun hl => ?short, fun hl hne => ?format, fun hl hf hmiss => ?legal⟩
  case short => exact fits.applyChunk_error (body := descBody s) (if_pos hl)
  case format =>
    refine fits.applyChunk_error (body := descBody s) ?_
    rw [descBody, if_neg (Nat.not_lt.2 hl), if_pos fun hf => hne (hfmt.1 hf)]
  case legal =>
    exact (exec_chunkDesc_legal fits hl (hfmt.2 hf)).trans (congrArg _ (walkAdvance_on (.inr hmiss)))

/-- Settles O20: the checks of `paktBody` in their order, and `walkAdvance_on` while a kind is missing. -/
theorem paktChunk : Obligations.PaktChunk := by
  intro s w size hr hb hs hin
  have fits : ChunkFits false size size.toNat s w := .of_toInt_nonneg hr hb hs hin
  refine ⟨fun hl => ?short, fun hl hneg => ?negative, fun hl hf hmiss => ?legal⟩
  case short => exact fits.applyChunk_error (body := paktBody s) (if_pos hl)
  case negative =>
    refine fits.applyChunk_error (body := paktBody s) ?_
    rw [paktBody, if_neg (Nat.not_lt.2 hl), if_pos hneg]
  case legal =>
    exact (exec_chunkPakt_legal fits hl hf).trans (congrArg _ (walkAdvance_on (hmiss.imp_right .inr)))

/-- Settles O21: the check of `dataBody`, and `walkAdvance_on` while a kind is missing. -/
theorem dataChunk : Obligations.DataChunk := by
  intro s w size len hr hb hs hin
  have fits : ChunkFits true size len s w := .of_data hr hb hs hin
  refine ⟨fun hl => ?short, fun hl hmiss => ?legal⟩
  case short => exact fits.applyChunk_error (body := dataBody) (if_pos hl)
  case legal =>
    exact (exec_chunkData_legal fits hl).trans (congrArg _ (walkAdvance_on (hmiss.imp_right .inl)))

/-- Settles O22: this class accepts every payload, and `walkAdvance_on` while a kind is missing. -/
theorem otherChunkIsSkipped : Obligations.OtherChunkIsSkipped := by
  intro s w tag size hr hb hs hin hmiss
  have fits : ChunkFits false size size.toNat s w := .of_toInt_nonneg hr hb hs hin
  exact (fits.applyChunk_ok (body := fun w _ _ => .ok w) rfl).trans (congrArg _ (walkAdvance_on hmiss))

/-- With all three kinds seen the walk ends PARSE with success (40_container_parser.md R127, R128). -/
theorem walkAdvance_of_allSeen (w : WalkRun) (s : State) {a : DescFields} {f : Word64} {d : DataFields}
    (ha : w.desc = some a) (hf : w.pakt = some f) (hd : w.data = some d) :
    walkAdvance w s = parsedAs d.base d.size a.rate f a.chans s := by
  simp only [walkAdvance, ha, hf, hd]
  rfl

/-- Settles O23: a legal chunk adds its own kind, and then `walkAdvance_of_allSeen` has all three. -/
theorem theThirdKindEndsParse : Obligations.TheThirdKindEndsParse := by
  intro s w size len hr hb hin
  refine ⟨fun f d hp hd hs hl hf => ?desc, fun a d ha hd hs hl hf => ?pakt, fun a f ha hp hs hl => ?data⟩
  case desc =>
    exact (exec_chunkDesc_legal (.of_toInt_eq hr hb hs hin) hl hf).trans
      (congrArg _ (walkAdvance_of_allSeen (w.afterDesc s len) s rfl hp hd))
  case pakt =>
    exact (exec_chunkPakt_legal (.of_toInt_eq hr hb hs hin) hl hf).trans
      (congrArg _ (walkAdvance_of_allSeen (w.afterPakt s len) s ha rfl hd))
  case data =>
    exact (exec_chunkData_legal (.of_data hr hb hs hin) hl).trans
      (congrArg _ (walkAdvance_of_allSeen (w.afterData len) s ha hp rfl))

end Sys2Proof.Machine
end

section
/-! Proofs: PARSE, its checks, its walk and how it ends (40_container_parser.md R111 to R130). -/

namespace Sys2Proof.Machine

/-- In the middle of a walk a step of the machine is one of the walk (log 7). -/
theorem step_of_walk {s : State} {w : WalkRun} (hh : s.hostHazard = false) (hr : s.run = .walk w) :
    step s = walkStep s := by
  simp [step, machineStep, resumeStep, hh, hr]

/-- Settles O8: the three branches of `walkStep`, the last one by the header at the cursor. -/
theorem stepInsideAWalkIsExecOfTheChunk : Obligations.StepInsideAWalkIsExecOfTheChunk := by
  intro s w hh hr hb
  rw [step_of_walk hh hr]
  refine ⟨fun hend => ?atEnd, fun hlt hcut => ?cutShort, fun hhead => walkStep_of_header hr hb hhead⟩
  case atEnd =>
    simp only [walkStep, hr, if_pos hb, if_pos hend]
    rfl
  case cutShort =>
    simp only [walkStep, hr, if_pos hb, if_neg (Nat.ne_of_lt hlt), if_pos hcut]
    rfl

/-- A check before the walk that fails ends PARSE with its code. -/
theorem exec_parse_of_check {s : State} {e : ErrCode} (h : parseCheck s = some e) :
    exec .parse s = .next (parseEndedWith e s) := by
  simp only [exec, execParse, h]
  rfl

/-- Settles O13: each clause is a branch of `parseCheck`. -/
theorem parseHeaderChecks : Obligations.ParseHeaderChecks := by
  intro s
  have hmagic := s.rdU32_eq_iff s.inBase.toNat Tag.caff
  have hversion := s.rdU16_eq_iff (s.inBase.toNat + 4) 1#16
  refine ⟨fun hout => exec_parse_of_check (if_pos (Nat.not_le.2 hout)),
    fun hin => ⟨fun hbad => exec_parse_of_check ?magic, fun h4 hm => ?afterMagic⟩⟩
  case magic => rw [parseCheck, if_neg (not_not.2 hin), if_pos (hbad.imp_right (mt hmagic.1))]
  case afterMagic =>
    have hpass : ¬(s.inLen.toNat < 4 ∨ s.rdU32 s.inBase.toNat ≠ Tag.caff) :=
      not_or.2 ⟨Nat.not_lt.2 h4, not_not.2 (hmagic.2 hm)⟩
    refine ⟨fun h8 => exec_parse_of_check ?header, fun h8 hv => exec_parse_of_check ?version⟩
    case header => rw [parseCheck, if_neg (not_not.2 hin), if_neg hpass, if_pos h8]
    case version =>
      rw [parseCheck, if_neg (not_not.2 hin), if_neg hpass, if_neg (Nat.not_lt.2 h8), if_pos (mt hversion.1 hv)]

/-- Without a successful PARSE a DECODE raises NOT_PARSED (42_stream_decoder.md R181). -/
theorem exec_decode_of_not_parsed {s : State} (h : s.status.parsed = false) :
    exec .decode s = .next (endedWith .notParsed s) := by
  have hc : decodeCheck s = some .notParsed := if_pos h
  simp only [exec, execDecode, hc]
  rfl

/-- Settles O15: of the two ends of PARSE this is the error's. -/
theorem failedParseKeepsEverything : Obligations.FailedParseKeepsEverything := by
  intro s t ht herr
  obtain ⟨t', ht', ho⟩ := execParse_outcome s
  cases ht'.symm.trans ht
  rcases ho with ⟨e, -, rfl⟩ | ⟨d, f, b, -, -, -, -, rfl⟩
  · exact ⟨rfl, rfl, exec_decode_of_not_parsed rfl⟩
  · exact absurd rfl herr

/-- Settles O16: of the two ends of PARSE this is the success, with the bounds the walk has kept. -/
theorem successfulParseState : Obligations.SuccessfulParseState := by
  intro s t ht hok
  obtain ⟨t', ht', ho⟩ := execParse_outcome s
  cases ht'.symm.trans ht
  rcases ho with ⟨e, he, rfl⟩ | ⟨d, f, b, hlo, hhi, hin, hf, rfl⟩
  · exact absurd hok he
  · exact ⟨b.base, b.size, d.rate, f, d.chans, rfl, hlo, hhi, hin, hf⟩

section
variable {s : State} {w : WalkRun}

/-- A step of the walk runs the row of the opcode table that the header at the cursor stands for
(40_container_parser.md R118). -/
theorem walkStep_of_row {i : Instr} (hb : w.bufEnd ≤ s.params.inSize) (hc : w.cursor + 12 ≤ w.bufEnd)
    (hi : decodeChunk (s.rdU32 w.cursor) (s.rdU64 (w.cursor + 4)) = i) :
    walkStep (s.withRun (.walk w)) = exec i (s.withRun (.walk w)) :=
  hi ▸ walkStep_of_header rfl hb hc

/-- A walk whose chunk at the cursor moves it on takes its next step there (40_container_parser.md R127). -/
theorem walkLoop_of_chunk_on {w' : WalkRun} {i : Instr} (fuel : Nat) (hb : w.bufEnd ≤ s.params.inSize)
    (hc : w.cursor + 12 ≤ w.bufEnd) (hi : decodeChunk (s.rdU32 w.cursor) (s.rdU64 (w.cursor + 4)) = i)
    (hx : exec i (s.withRun (.walk w)) = .next (s.withRun (.walk w'))) :
    walkLoop (fuel + 1) (s.withRun (.walk w)) = walkLoop fuel (s.withRun (.walk w')) := by
  rw [walkLoop, walkStep_of_row hb hc hi, hx]
  rfl

/-- A walk whose chunk at the cursor ends PARSE is over. -/
theorem walkLoop_of_chunk_end {t : State} {i : Instr} (fuel : Nat) (hb : w.bufEnd ≤ s.params.inSize)
    (hc : w.cursor + 12 ≤ w.bufEnd) (hi : decodeChunk (s.rdU32 w.cursor) (s.rdU64 (w.cursor + 4)) = i)
    (hx : exec i (s.withRun (.walk w)) = .next t) (ht : t.run = .idle) :
    walkLoop (fuel + 1) (s.withRun (.walk w)) = .next t := by
  simp only [walkLoop, walkStep_of_row hb hc hi, hx, andThen_next, ht]

/-- A legal desc chunk while another kind is missing: the walk goes on after it (40_container_parser.md R120). -/
theorem walkLoop_of_desc {len : Nat} (fuel : Nat) (hb : w.bufEnd ≤ s.params.inSize) (hm : w.pakt = none ∨ w.data = none)
    (htag : s.rdU32 w.cursor = Tag.desc) (hsize : (s.rdU64 (w.cursor + 4)).toInt = len) (hl : 32 ≤ len)
    (hf : s.rdU32 (w.cursor + 20) = Tag.ima4) (hin : w.cursor + 12 + len ≤ w.bufEnd) :
    walkLoop (fuel + 1) (s.withRun (.walk w)) = walkLoop fuel (s.withRun (.walk (w.afterDesc s len))) :=
  walkLoop_of_chunk_on fuel hb (by omega) (if_pos htag)
    ((exec_chunkDesc_legal (s := s.withRun (.walk w)) (.of_toInt_eq rfl hb hsize hin) hl hf).trans
      (congrArg _ (walkAdvance_on (w := w.afterDesc s len) (.inr hm))))

/-- A legal pakt chunk while another kind is missing: the walk goes on after it (40_container_parser.md R122, R123). -/
theorem walkLoop_of_pakt {len : Nat} (fuel : Nat) (hb : w.bufEnd ≤ s.params.inSize) (hm : w.desc = none ∨ w.data = none)
    (htag : s.rdU32 w.cursor = Tag.pakt) (hsize : (s.rdU64 (w.cursor + 4)).toInt = len) (hl : 24 ≤ len)
    (hf : 0 ≤ (s.rdU64 (w.cursor + 20)).toInt) (hin : w.cursor + 12 + len ≤ w.bufEnd) :
    walkLoop (fuel + 1) (s.withRun (.walk w)) = walkLoop fuel (s.withRun (.walk (w.afterPakt s len))) :=
  walkLoop_of_chunk_on fuel hb (by omega) (by rw [htag]; rfl)
    ((exec_chunkPakt_legal (s := s.withRun (.walk w)) (.of_toInt_eq rfl hb hsize hin) hl hf).trans
      (congrArg _ (walkAdvance_on (w := w.afterPakt s len) (hm.imp_right .inr))))

/-- A legal data chunk after the two other kinds: PARSE succeeds (40_container_parser.md R124, R128). -/
theorem walkLoop_of_data {len : Nat} {a : DescFields} {f : Word64} (fuel : Nat) (hb : w.bufEnd ≤ s.params.inSize)
    (ha : w.desc = some a) (hp : w.pakt = some f) (htag : s.rdU32 w.cursor = Tag.data)
    (hsize : (s.rdU64 (w.cursor + 4)).toInt = len ∨
      ((s.rdU64 (w.cursor + 4)).toInt = -1 ∧ w.cursor + 12 + len = w.bufEnd))
    (hl : 4 ≤ len) (hin : w.cursor + 12 + len ≤ w.bufEnd) :
    walkLoop (fuel + 1) (s.withRun (.walk w)) = .next (parsedAs (w.cursor + 16) (len - 4) a.rate f a.chans s) :=
  walkLoop_of_chunk_end fuel hb (by omega) (by rw [htag]; rfl)
    ((exec_chunkData_legal (s := s.withRun (.walk w)) (.of_data rfl hb hsize hin) hl).trans
      (congrArg _ (walkAdvance_of_allSeen (w.afterData len) _ ha hp rfl))) rfl

end

/-- A buffer in IN with the magic and version 1 passes the checks, and PARSE is its walk (40_container_parser.md
R115). -/
theorem exec_parse_of_header {s : State} (hin : s.inBase.toNat + s.inLen.toNat ≤ s.params.inSize)
    (h8 : 8 ≤ s.inLen.toNat) (hm : s.rdU32 s.inBase.toNat = Tag.caff) (hv : s.rdU16 (s.inBase.toNat + 4) = 1#16) :
    exec .parse s = walkLoop (s.inLen.toNat / 12 + 1) (s.withRun (.walk (startWalk s))) := by
  have hc : parseCheck s = none := by
    rw [parseCheck, if_neg (not_not.2 hin), if_neg (not_or.2 ⟨by omega, not_not.2 hm⟩), if_neg (Nat.not_lt.2 h8),
      if_neg (not_not.2 hv)]
  simp only [exec, execParse, hc]

/-- Settles O17: the walk takes the three chunks in turn, at the cursors that their lengths give, and the data chunk is
the third kind. -/
theorem parseOfTheUsualContainer : Obligations.ParseOfTheUsualContainer := by
  intro s b d q z hb hin hmagic hversion hdesc hdlen hd hformat hpakt hqlen hq hframes hdata hzlen hz hfit
  subst hb
  let w₁ := (startWalk s).afterDesc s d
  let w₂ := w₁.afterPakt s q
  have hend : w₁.bufEnd = s.inBase.toNat + s.inLen.toNat := rfl
  have hc₀ : (startWalk s).cursor = s.inBase.toNat + 8 := rfl
  have hc₁ : w₁.cursor = (startWalk s).cursor + 12 + d := rfl
  have hc₂ : w₂.cursor = w₁.cursor + 12 + q := rfl
  -- The statement counts its addresses from IN_BASE; the walk counts them from its cursor.
  rw [show s.inBase.toNat + 20 + d = w₁.cursor by omega] at hpakt
  rw [show s.inBase.toNat + 24 + d = w₁.cursor + 4 by omega] at hqlen
  rw [show s.inBase.toNat + 40 + d = w₁.cursor + 20 by omega] at hframes ⊢
  rw [show s.inBase.toNat + 32 + d + q = w₂.cursor by omega] at hdata
  have hdataEnd : s.inBase.toNat + 44 + d + q + z = w₂.cursor + 12 + z := by omega
  rw [show s.inBase.toNat + 36 + d + q = w₂.cursor + 4 by omega, hdataEnd] at hzlen
  rw [hdataEnd] at hfit
  rw [show s.inBase.toNat + 48 + d + q = w₂.cursor + 16 by omega]
  obtain ⟨fuel, hfuel⟩ : ∃ fuel, s.inLen.toNat / 12 + 1 = fuel + 1 + 1 + 1 := ⟨s.inLen.toNat / 12 - 2, by omega⟩
  calc exec .parse s
    _ = walkLoop (fuel + 1 + 1 + 1) (s.withRun (.walk (startWalk s))) :=
      hfuel ▸ exec_parse_of_header hin (by omega) hmagic hversion
    _ = walkLoop (fuel + 1 + 1) (s.withRun (.walk w₁)) :=
      walkLoop_of_desc (fuel + 1 + 1) hin (.inl rfl) hdesc hdlen hd hformat (show w₁.cursor ≤ w₁.bufEnd by omega)
    _ = walkLoop (fuel + 1) (s.withRun (.walk w₂)) :=
      walkLoop_of_pakt (fuel + 1) hin (.inr rfl) hpakt hqlen hq hframes (show w₂.cursor ≤ w₁.bufEnd by omega)
    _ = .next (parsedAs (w₂.cursor + 16) (z - 4) (s.rdU64 (s.inBase.toNat + 20)) (s.rdU64 (w₁.cursor + 20))
        (s.rdU32 (s.inBase.toNat + 44)) s) :=
      walkLoop_of_data (w := w₂) fuel hin rfl rfl hdata hzlen hz hfit

end Sys2Proof.Machine
end

section
/-! Proofs: the sixteen codes and the tables they use (41_block_decoder.md R140 to R142, R151 to R176). -/

namespace Sys2Proof.Machine

theorem clampPred_eq_max_min (v : Int) : clampPred v = max (-32768) (min 32767 v) := by
  rw [clampPred, clamp]
  split <;> [skip; split] <;> omega

theorem clampIndex_eq_max_min (v : Int) : clampIndex v = (max 0 (min 88 v)).toNat := by
  rw [clampIndex, clamp]
  split <;> [skip; split] <;> omega

/-- A code of a running block whose element exists: by its sign bit it adds or subtracts its delta (41_block_decoder.md
R154). -/
theorem applyCode_eq_codeDone {s : State} {b : BlockRun} (code : Nibble) (hr : s.run = .block b)
    (he : b.outBase + b.k * b.stride < s.params.outSize) :
    applyCode code s = .next (codeDone s b
      (if code.getLsbD 3 then b.pred - codeDelta code b.step else b.pred + codeDelta code b.step) (indexAdj code)) := by
  have hpred : codePred code b.step b.pred = max (-32768) (min 32767
      (if code.getLsbD 3 then b.pred - codeDelta code b.step else b.pred + codeDelta code b.step)) := by
    rw [codePred, ← apply_ite clampPred, clampPred_eq_max_min]
  rw [applyCode_of_block code hr he]
  simp only [BlockRun.afterCode, hpred, clampIndex_eq_max_min]
  rfl

/-- Settles O24: each is the shared operation with the sign, delta and adjustment of its own bits. -/
theorem codesThatAdd : Obligations.CodesThatAdd := by
  intro s b hr he
  have hcode (code : Nibble) := applyCode_eq_codeDone code hr he
  exact ⟨hcode 0x0#4, hcode 0x1#4, hcode 0x2#4, hcode 0x3#4, hcode 0x4#4, hcode 0x5#4, hcode 0x6#4, hcode 0x7#4⟩

/-- Settles O25: each is the shared operation with the sign, delta and adjustment of its own bits. -/
theorem codesThatSubtract : Obligations.CodesThatSubtract := by
  intro s b hr he
  have hcode (code : Nibble) := applyCode_eq_codeDone code hr he
  exact ⟨hcode 0x8#4, hcode 0x9#4, hcode 0xA#4, hcode 0xB#4, hcode 0xC#4, hcode 0xD#4, hcode 0xE#4, hcode 0xF#4⟩

/-- Settles O28: each table is checked entry by entry, and STEP rises from each entry to the next. -/
theorem tablesHaveTheSourcesShape : Obligations.TablesHaveTheSourcesShape := by
  have hrises : stepTable.IsChain (· < ·) := by decide +kernel
  exact ⟨rfl, hrises.pairwise, rfl, rfl, rfl, by decide⟩

/-- STEP lies between its first and its last entry (41_block_decoder.md R142). -/
theorem stepAt_range {i : Nat} (h : i ≤ 88) : 7 ≤ stepAt i ∧ stepAt i ≤ 32767 := by
  have hall : ∀ v ∈ stepTable, 7 ≤ v ∧ v ≤ 32767 := by decide
  have hi : i < stepTable.length := Nat.lt_succ_of_le h
  rw [stepAt, List.getD_eq_getElem _ _ hi]
  exact hall _ (List.getElem_mem hi)

/-- Settles O26: a code that answers ran in a block whose element exists, and the running state after it is legal. -/
theorem everyCodeKeepsTheRangesAndTheRest : Obligations.EveryCodeKeepsTheRangesAndTheRest := by
  intro c s t h
  rw [exec_decodeCode] at h
  obtain ⟨b, hr, -, rfl⟩ := applyCode_next h
  obtain ⟨hindex, ⟨hlow, hhigh⟩, hstep⟩ := b.legal_afterCode c
  obtain ⟨hstep7, hstepMax⟩ := stepAt_range hindex
  exact ⟨b, b.afterCode c, hr, rfl, hindex, hlow, hhigh, hstep, hstep ▸ hstep7, hstep ▸ hstepMax,
    State.outElem_storeOut_same _ _ _, fun e hne => State.outElem_storeOut_other _ _ hne, rfl, rfl⟩

/-- Settles O7: the step is the block's next code, and the code fetched is the reference decoder's. -/
theorem stepInsideABlockIsExecOfTheCode : Obligations.StepInsideABlockIsExecOfTheCode := by
  intro s b hh hr hk hi
  calc step s
    _ = nextCode s := by simp [step, machineStep, resumeStep, hh, hr, hk]
    _ = applyCode (s.codeAt b.addr b.k) s := nextCode_of_block hr hi
    _ = exec (decodeCode (BitVec.ofNat 4 (refCode s b.addr b.k))) s := by
      rw [s.codeAt_eq_refCode, exec_decodeCode]

/-! ### Where the codes and the chunk classes stop (log 11, log 12) -/

theorem applyCode_of_noBlock {s : State} (code : Nibble) (h : ∀ b, s.run ≠ .block b) :
    applyCode code s = .fault .noBlock := by
  cases hr : s.run with
  | idle | walk w => simp only [applyCode, hr]
  | block b => exact absurd hr (h b)

theorem applyCode_of_noElement {s : State} {b : BlockRun} (code : Nibble) (hr : s.run = .block b)
    (he : s.params.outSize ≤ b.elem) : applyCode code s = .fault .noSuchOutElement := by
  simp only [applyCode, hr, if_neg (Nat.not_lt.2 he)]

theorem applyChunk_of_noWalk {isData : Bool} {size : Word64} {s : State}
    {body : WalkRun → Nat → Nat → Except ErrCode WalkRun} (h : ∀ w, s.run ≠ .walk w) :
    applyChunk isData size s body = .fault .noWalk := by
  cases hr : s.run with
  | idle | block b => simp only [applyChunk, hr]
  | walk w => exact absurd hr (h w)

theorem applyChunk_of_bufferOutside {isData : Bool} {size : Word64} {s : State} {w : WalkRun}
    {body : WalkRun → Nat → Nat → Except ErrCode WalkRun} (hr : s.run = .walk w) (hb : s.params.inSize < w.bufEnd) :
    applyChunk isData size s body = .fault .noSuchInByte := by
  simp only [applyChunk, hr, if_neg (Nat.not_le.2 hb)]

/-- Every chunk class is the one shared operation, with its own treatment of the payload (40_container_parser.md R118 to
R125). -/
theorem exec_decodeChunk_eq_applyChunk (tag : Word32) (size : Word64) (s : State) :
    ∃ isData body, exec (decodeChunk tag size) s = applyChunk isData size s body := by
  unfold decodeChunk
  split_ifs
  · exact ⟨false, descBody s, rfl⟩
  · exact ⟨false, paktBody s, rfl⟩
  · exact ⟨true, dataBody, rfl⟩
  · exact ⟨false, fun w _ _ => .ok w, rfl⟩

/-- Settles O27: the codes and the chunk classes stop where their shared operations do. -/
theorem codesAndChunksStopOutsideTheirCommand : Obligations.CodesAndChunksStopOutsideTheirCommand := by
  refine ⟨fun c s h => ?noBlock, fun c s b hr he => ?noElement, fun tag size s h => ?noWalk,
    fun tag size s w hr hb => ?noByte⟩
  case noBlock => rw [exec_decodeCode, applyCode_of_noBlock c h]
  case noElement => rw [exec_decodeCode, applyCode_of_noElement c hr he]
  case noWalk =>
    obtain ⟨_, _, heq⟩ := exec_decodeChunk_eq_applyChunk tag size s
    rw [heq, applyChunk_of_noWalk h]
  case noByte =>
    obtain ⟨_, _, heq⟩ := exec_decodeChunk_eq_applyChunk tag size s
    rw [heq, applyChunk_of_bufferOutside hr hb]

end Sys2Proof.Machine
end

section
/-! Proofs: DECODE_BLOCK, its checks, what it gives, and what it reads (41_block_decoder.md R143 to R159, R177, R178). -/

namespace Sys2Proof.Machine

/-! ### The checks and the end by BAD_INDEX -/

/-- A check that fails ends DECODE_BLOCK with its code. -/
theorem exec_decodeBlock_of_check {s : State} {e : ErrCode} (h : decodeBlockCheck s = some e) :
    exec .decodeBlock s = .next (endedWith e s) := by
  simp only [exec, execDecodeBlock, h]
  rfl

/-- A preamble index above 88 ends DECODE_BLOCK when the checks have passed (41_block_decoder.md R146). -/
theorem exec_decodeBlock_of_badIndex {s : State} (h : DecodeBlockReady s) (hx : 88 < refIndex s s.blkAddr.toNat) :
    exec .decodeBlock s = .next (endedWith .badIndex s) := by
  simp only [exec, execDecodeBlock, (decodeBlockCheck_none_iff s).2 h]
  exact decodeBlockThen_badIndex (a := decodeBlockArgs s) _ h.block hx

/-- Settles O31: each clause is a branch of `decodeBlockCheck`, and BAD_INDEX is the block's own end. -/
theorem decodeBlockChecksInOrder : Obligations.DecodeBlockChecksInOrder := by
  intro s
  refine ⟨fun hcount => exec_decodeBlock_of_check ?count, fun h1 h64 => ⟨fun hchan => exec_decodeBlock_of_check ?channel,
    fun hchan => ⟨fun hblock => exec_decodeBlock_of_check ?block, fun hblock hout => exec_decodeBlock_of_check ?output⟩⟩,
    fun hr hx => exec_decodeBlock_of_badIndex hr hx⟩ <;> rw [decodeBlockCheck_eq]
  case count => rw [if_pos hcount]
  case channel => rw [if_neg (by omega), if_pos hchan]
  case block => rw [if_neg (by omega), if_neg (by omega), if_pos (by omega)]
  case output => rw [if_neg (by omega), if_neg (by omega), if_neg (by omega), if_pos (by omega)]

/-! ### What it gives -/

/-- With the checks passed and a legal preamble index DECODE_BLOCK decodes its block and completes (41_block_decoder.md
R177). -/
theorem exec_decodeBlock_of_ready {s : State} (h : DecodeBlockReady s) (hx : refIndex s s.blkAddr.toNat ≤ 88) :
    exec .decodeBlock s = .next (afterBlock (decodeBlockArgs s) s).complete := by
  simp only [exec, execDecodeBlock, (decodeBlockCheck_none_iff s).2 h]
  exact decodeBlockThen_eq (a := decodeBlockArgs s) _ h.block h.count.2 hx fun i hi => (h.elem_lt hi).2

/-- An element of a block holds the sample of the last code that writes it (20_memory.md R68). -/
theorem outElem_afterBlock_same {s : State} {a : BlockArgs} {i : Nat} (hi : i < a.count)
    (h : ∀ j < a.count, i < j → a.outBase + j * a.stride ≠ a.outBase + i * a.stride) :
    (afterBlock a s).outElem (a.outBase + i * a.stride) =
      sampleBits s.params.outFmt (refBlock s a.addr (s.channel a.chan) (i + 1)).predictor :=
  congrArg (Option.getD · _) (blockOut_same a.count hi h)

/-- Settles O32: the state is `afterBlock`'s, whose elements are those of `blockOut`. -/
theorem decodeBlockGivesTheReferenceBlock : Obligations.DecodeBlockGivesTheReferenceBlock := by
  intro s h hx _
  exact ⟨_, exec_decodeBlock_of_ready h hx,
    fun k hk hlast => outElem_afterBlock_same (a := decodeBlockArgs s) hk fun j hj hkj => hlast j hkj hj,
    fun e he => outElem_afterBlock_other (a := decodeBlockArgs s) he, rfl⟩

/-! ### The continuity rule -/

/-- The seed is the preamble's top nine bits times 128, read as a signed 16-bit number (30_encoding.md R92). -/
theorem refSeed_eq (s : State) (a : Nat) :
    refSeed s a = if s.memRead a 2 < 32768 then ((s.memRead a 2 / 128 : Nat) : Int) * 128
      else ((s.memRead a 2 / 128 : Nat) : Int) * 128 - 65536 := by
  rw [refSeed, refIndex]
  split <;> omega

theorem refStart_of_kept {s : State} {a : Nat} {c : ChannelState}
    (h : refIndex s a = c.index ∧ (refSeed s a - c.predictor).natAbs ≤ 127) :
    refStart s a c = { index := refIndex s a, predictor := c.predictor } := by
  rw [refStart, if_pos (by omega)]

theorem refStart_of_reseeded {s : State} {a : Nat} {c : ChannelState}
    (h : ¬(refIndex s a = c.index ∧ (refSeed s a - c.predictor).natAbs ≤ 127)) :
    refStart s a c = { index := refIndex s a, predictor := refSeed s a } := by
  rw [refStart, if_neg (by omega)]

/-- Settles O33: the two sides of the rule are the two starts of the reference block, whose first code is the low nibble
of the byte after the preamble. -/
theorem continuityRuleInTheFirstSample : Obligations.ContinuityRuleInTheFirstSample := by
  intro s p seed base c hr hcount hp hx hc hseed hbase
  subst hp hc
  rw [← refSeed_eq] at hseed
  subst hseed
  have hstart : refStart s s.blkAddr.toNat (s.channel s.blkArgs.channel.toNat) =
      { index := refIndex s s.blkAddr.toNat, predictor := base } := by
    rcases hbase with ⟨hidx, hnear, rfl⟩ | ⟨hne, rfl⟩
    · exact refStart_of_kept ⟨hidx, hnear⟩
    · exact refStart_of_reseeded hne
  have hone : (decodeBlockArgs s).count = 1 := congrArg BitVec.toNat hcount
  have hfirst := outElem_afterBlock_same (s := s) (a := decodeBlockArgs s) (i := 0) (by omega) fun j hj h0 => by omega
  refine ⟨_, exec_decodeBlock_of_ready hr hx, ?_⟩
  calc (afterBlock (decodeBlockArgs s) s).outElem s.outBase.toNat
    _ = (afterBlock (decodeBlockArgs s) s).outElem (s.outBase.toNat + 0 * s.blkArgs.stride.toNat) := by simp
    _ = sampleBits s.params.outFmt (refStep (refCode s s.blkAddr.toNat 0)
          (refStart s s.blkAddr.toNat (s.channel s.blkArgs.channel.toNat))).predictor := hfirst
    _ = _ := by
      rw [hstart]
      rfl

/-! ### What it reads -/

/-- The preamble is its two bytes (30_encoding.md R92). -/
theorem State.memRead_two_congr {s t : State} {a : Nat} (h : ∀ x, a ≤ x → x < a + 2 → t.inByte x = s.inByte x) :
    t.memRead a 2 = s.memRead a 2 := by
  simp only [State.memRead, State.inBytes, h a (by omega) (by omega), h (a + 1) (by omega) (by omega)]

/-- The first `m` codes of a block and its start depend on the bytes they stand in (41_block_decoder.md R145). -/
theorem refBlock_congr_of_bytes {s t : State} {a : Nat} (r : ChannelState) (m : Nat)
    (h : ∀ x, a ≤ x → x < a + 2 + (m + 1) / 2 → t.inByte x = s.inByte x) : refBlock t a r m = refBlock s a r m := by
  induction m with
  | zero =>
    have hp : t.memRead a 2 = s.memRead a 2 := State.memRead_two_congr fun x hlo hhi => h x hlo (by omega)
    simp only [refBlock, refStart, refSeed, refIndex, hp]
    rfl
  | succ m ih =>
    have hcode : refCode t a m = refCode s a m := by
      simp only [refCode, h (a + 2 + m / 2) (by omega) (by omega)]
    simp only [refBlock, hcode, ih fun x hlo hhi => h x hlo (by omega)]

section
variable {s : State} {m : List Host.Cell} {a : BlockArgs}

/-- What a block writes depends on the preamble and the bytes of its codes (41_block_decoder.md R145). -/
theorem blockOut_congr_of_bytes (n : Nat)
    (h : ∀ x, a.addr ≤ x → x < a.addr + 2 + (n + 1) / 2 → ({ s with inMem := m } : State).inByte x = s.inByte x) :
    blockOut { s with inMem := m } a n = blockOut s a n := by
  induction n with
  | zero => rfl
  | succ n ih =>
    rw [blockOut, blockOut, ih fun x hlo hhi => h x hlo (by omega), ← refBlock_congr_of_bytes _ (n + 1) h]
    rfl

/-- On another content of IN that agrees on the block's bytes, the block does the same (41_block_decoder.md R145). -/
theorem afterBlock_congr_of_bytes
    (h : ∀ x, a.addr ≤ x → x < a.addr + 2 + (a.count + 1) / 2 →
      ({ s with inMem := m } : State).inByte x = s.inByte x) :
    afterBlock a { s with inMem := m } = { afterBlock a s with inMem := m } := by
  rw [afterBlock, afterBlock, blockOut_congr_of_bytes a.count h, refBlock_congr_of_bytes _ a.count h]
  rfl

end

/-- Settles O34: a failed check reads nothing of IN, and the preamble and the block are the same on both contents. -/
theorem decodeBlockReadsOnlyItsBytes : Obligations.DecodeBlockReadsOnlyItsBytes := by
  intro s m t hagree ht
  cases hc : decodeBlockCheck s with
  | some e =>
    cases (exec_decodeBlock_of_check hc).symm.trans ht
    exact exec_decodeBlock_of_check (s := { s with inMem := m }) hc
  | none =>
    have hr := (decodeBlockCheck_none_iff s).1 hc
    have hr' := (decodeBlockCheck_none_iff { s with inMem := m }).1 hc
    have hidx : refIndex { s with inMem := m } s.blkAddr.toNat = refIndex s s.blkAddr.toNat :=
      congrArg (· % 128) (State.memRead_two_congr fun x hlo hhi => hagree x hlo (by omega))
    by_cases hx : refIndex s s.blkAddr.toNat ≤ 88
    · cases (exec_decodeBlock_of_ready hr hx).symm.trans ht
      calc exec .decodeBlock { s with inMem := m }
        _ = .next (afterBlock (decodeBlockArgs s) { s with inMem := m }).complete :=
          exec_decodeBlock_of_ready hr' (hidx.symm ▸ hx)
        _ = .next { (afterBlock (decodeBlockArgs s) s).complete with inMem := m } := by
          rw [afterBlock_congr_of_bytes (a := decodeBlockArgs s) hagree]
          rfl
    · cases (exec_decodeBlock_of_badIndex hr (Nat.lt_of_not_le hx)).symm.trans ht
      exact exec_decodeBlock_of_badIndex hr' (hidx.symm ▸ Nat.lt_of_not_le hx)

end Sys2Proof.Machine
end

section
/-! Proofs: the element pattern of a sample, PCM16 (41_block_decoder.md R149) and FLOAT32 (R160). -/

namespace Sys2Proof.Machine

/-- Settles O29: the pattern is 16 bits of two's complement, and widening it keeps the number. -/
theorem pcm16PatternIsTwosComplement : Obligations.Pcm16PatternIsTwosComplement := by
  intro v _ _
  rw [sampleBits, pcm16Bits, BitVec.toNat_setWidth_of_le (by decide), BitVec.toNat_ofInt]
  omega

/-! ### Rounding to a multiple of a power of two -/

/-- The distance of two magnitudes. -/
abbrev distance (x y : Nat) : Nat := ((x : Int) - y).natAbs

/-- A rounded quotient is the quotient below or the one above, by which is nearer, and the even one of two as near. -/
theorem roundShiftEven_cases (n sh : Nat) :
    (roundShiftEven n sh = n / 2 ^ sh ∧
      (2 * (n % 2 ^ sh) < 2 ^ sh ∨ 2 * (n % 2 ^ sh) = 2 ^ sh ∧ roundShiftEven n sh % 2 = 0)) ∨
    (roundShiftEven n sh = n / 2 ^ sh + 1 ∧
      (2 ^ sh < 2 * (n % 2 ^ sh) ∨ 2 * (n % 2 ^ sh) = 2 ^ sh ∧ roundShiftEven n sh % 2 = 0)) := by
  simp only [roundShiftEven]
  split_ifs <;> omega

/-- No multiple of `2^sh` is nearer to `n` than the rounded one, and one as near makes the rounded quotient even. -/
theorem roundShiftEven_nearest (n sh q : Nat) :
    distance (roundShiftEven n sh * 2 ^ sh) n ≤ distance (q * 2 ^ sh) n ∧
    (distance (roundShiftEven n sh * 2 ^ sh) n = distance (q * 2 ^ sh) n →
      roundShiftEven n sh = q ∨ roundShiftEven n sh % 2 = 0) := by
  have hn : n / 2 ^ sh * 2 ^ sh + n % 2 ^ sh = n := Nat.div_add_mod' n (2 ^ sh)
  have hrem : n % 2 ^ sh < 2 ^ sh := Nat.mod_lt _ (Nat.two_pow_pos sh)
  have hup : (n / 2 ^ sh + 1) * 2 ^ sh = n / 2 ^ sh * 2 ^ sh + 2 ^ sh := Nat.succ_mul _ _
  have hq : q = n / 2 ^ sh ∨ q = n / 2 ^ sh + 1 ∨ (q + 1) * 2 ^ sh ≤ n / 2 ^ sh * 2 ^ sh ∨
      (n / 2 ^ sh + 1 + 1) * 2 ^ sh ≤ q * 2 ^ sh := by
    rcases Nat.lt_trichotomy q (n / 2 ^ sh) with h | h | h
    · exact .inr (.inr (.inl (Nat.mul_le_mul_right _ h)))
    · exact .inl h
    · rcases Nat.eq_or_lt_of_le h with h | h
      · exact .inr (.inl h.symm)
      · exact .inr (.inr (.inr (Nat.mul_le_mul_right _ h)))
  rw [Nat.succ_mul, Nat.succ_mul (n / 2 ^ sh + 1)] at hq
  unfold distance
  -- By `hq` a multiple is one of the two beside `n`, or lies beyond one of them by a whole `2^sh`.
  rcases roundShiftEven_cases n sh with ⟨hr, hside⟩ | ⟨hr, hside⟩ <;> rw [hr] at hside ⊢ <;>
    rcases hq with rfl | rfl | hq | hq <;> omega

/-- Rounding does not depend on the scale. -/
theorem roundShiftEven_mul_two_pow (n sh k : Nat) : roundShiftEven (n * 2 ^ k) (sh + k) = roundShiftEven n sh := by
  have hk : 0 < 2 ^ k := Nat.two_pow_pos k
  have hlt (x y : Nat) : 2 * (x * 2 ^ k) < y * 2 ^ k ↔ 2 * x < y := by
    rw [← Nat.mul_assoc, Nat.mul_lt_mul_right hk]
  have hgt (x y : Nat) : y * 2 ^ k < 2 * (x * 2 ^ k) ↔ y < 2 * x := by
    rw [← Nat.mul_assoc, Nat.mul_lt_mul_right hk]
  simp only [roundShiftEven, Nat.pow_add, Nat.mul_div_mul_right _ _ hk, Nat.mul_mod_mul_right, hlt, hgt]

/-- A number of `p + 1 + sh` bits rounds to one of `p + 1` bits or to the power of two above them. -/
theorem roundShiftEven_range {n p sh : Nat} (hlo : 2 ^ p * 2 ^ sh ≤ n) (hhi : n < 2 ^ (p + 1) * 2 ^ sh) :
    2 ^ p ≤ roundShiftEven n sh ∧ roundShiftEven n sh ≤ 2 ^ (p + 1) := by
  have h1 : 2 ^ p ≤ n / 2 ^ sh := (Nat.le_div_iff_mul_le (Nat.two_pow_pos sh)).2 hlo
  have h2 : n / 2 ^ sh < 2 ^ (p + 1) := (Nat.div_lt_iff_lt_mul (Nat.two_pow_pos sh)).2 hhi
  rcases roundShiftEven_cases n sh with ⟨hr, -⟩ | ⟨hr, -⟩ <;> omega

/-! ### Binary32 numbers, as significand and exponent -/

/-- A significand that was rounded up to `2^24` carries into the exponent, and the pattern with it. -/
theorem exists_significand {r u : Nat} (hlo : 2 ^ 23 ≤ r) (hhi : r ≤ 2 ^ 24) :
    ∃ e m, u ≤ e ∧ e ≤ u + 1 ∧ 2 ^ 23 ≤ m ∧ m < 2 ^ 24 ∧ m * 2 ^ e = r * 2 ^ u ∧
      e * 2 ^ 23 + (m - 2 ^ 23) = u * 2 ^ 23 + (r - 2 ^ 23) ∧ (r % 2 = 0 → m % 2 = 0) := by
  rcases Nat.lt_or_eq_of_le hhi with h | rfl
  · exact ⟨u, r, by omega, by omega, hlo, h, rfl, rfl, id⟩
  · exact ⟨u + 1, 2 ^ 23, by omega, by omega, by omega, by omega, by rw [Nat.pow_succ 2 u]; omega, by omega, by omega⟩

theorem significand_lt_of_exponent_lt {m m' e e' : Nat} (hm : m < 2 ^ 24) (hm' : 2 ^ 23 ≤ m') (h : e < e') :
    m * 2 ^ e < m' * 2 ^ e' :=
  calc m * 2 ^ e
    _ < 2 ^ 24 * 2 ^ e := Nat.mul_lt_mul_of_pos_right hm (Nat.two_pow_pos e)
    _ = 2 ^ 23 * 2 ^ (e + 1) := by rw [Nat.pow_succ 2 e]; omega
    _ ≤ m' * 2 ^ e' := Nat.mul_le_mul hm' (Nat.pow_le_pow_right (by decide) h)

/-- A normal number has one significand and one exponent. -/
theorem significand_unique {m m' e e' : Nat} (hm : 2 ^ 23 ≤ m ∧ m < 2 ^ 24) (hm' : 2 ^ 23 ≤ m' ∧ m' < 2 ^ 24)
    (h : m * 2 ^ e = m' * 2 ^ e') : e = e' ∧ m = m' := by
  rcases Nat.lt_trichotomy e e' with hlt | rfl | hlt
  · exact absurd h (Nat.ne_of_lt (significand_lt_of_exponent_lt hm.2 hm'.1 hlt))
  · exact ⟨rfl, Nat.eq_of_mul_eq_mul_right (Nat.two_pow_pos e) h⟩
  · exact absurd h.symm (Nat.ne_of_lt (significand_lt_of_exponent_lt hm'.2 hm.1 hlt))

/-- Of all numbers with a significand below `2^24` none is nearer to `x` than `x` rounded at the exponent of its leading
bit. One of a lower exponent lies below the least multiple `2^23 * 2^u`, one of a higher exponent is a multiple. -/
theorem roundShiftEven_nearest_float {x u m' e' : Nat} (hx : 2 ^ 23 * 2 ^ u ≤ x) (hm' : m' < 2 ^ 24) :
    distance (roundShiftEven x u * 2 ^ u) x ≤ distance (m' * 2 ^ e') x ∧
    (distance (roundShiftEven x u * 2 ^ u) x = distance (m' * 2 ^ e') x →
      (u ≤ e' ∧ roundShiftEven x u * 2 ^ u = m' * 2 ^ e') ∨ roundShiftEven x u % 2 = 0) := by
  rcases Nat.lt_or_ge e' u with he | he
  · have hbelow : m' * 2 ^ e' < 2 ^ 23 * 2 ^ u := significand_lt_of_exponent_lt hm' (Nat.le_refl _) he
    have hnear := (roundShiftEven_nearest x u (2 ^ 23)).1
    have hfar : distance (2 ^ 23 * 2 ^ u) x < distance (m' * 2 ^ e') x := by
      unfold distance
      omega
    exact ⟨by omega, fun h => by omega⟩
  · have hmul : m' * 2 ^ (e' - u) * 2 ^ u = m' * 2 ^ e' := by
      rw [Nat.mul_assoc, ← Nat.pow_add, Nat.sub_add_cancel he]
    have hnear := roundShiftEven_nearest x u (m' * 2 ^ (e' - u))
    rw [hmul] at hnear
    exact ⟨hnear.1, fun h => (hnear.2 h).imp_left fun hq => ⟨he, by rw [hq, hmul]⟩⟩

/-! ### The FLOAT32 pattern -/

/-- In units of `2^-150`, `m * 2^e` is a normal binary32 number with the biased exponent `e`, no finite binary32 magnitude
is nearer to `x`, and where another is as near, `m` is even. -/
structure NearestNormal (x e m : Nat) : Prop where
  exponent : 1 ≤ e ∧ e ≤ 254
  significand : 2 ^ 23 ≤ m ∧ m < 2 ^ 24
  nearest : ∀ e' m' : Nat, 1 ≤ e' → e' ≤ 254 → (2 ^ 23 ≤ m' ∨ e' = 1) → m' < 2 ^ 24 →
    distance (m * 2 ^ e) x ≤ distance (m' * 2 ^ e') x ∧
      (distance (m * 2 ^ e) x = distance (m' * 2 ^ e') x → (e = e' ∧ m = m') ∨ m % 2 = 0)

theorem floatMagnitude_eq {n sh : Nat} (h : n.log2 - 23 = sh) :
    floatMagnitude n = (sh + 112) * 2 ^ 23 + (roundShiftEven n sh - 2 ^ 23) := by
  subst h
  rfl

/-- The pattern of `n * 2^-38` is that of the nearest normal number, for the products that samples have. -/
theorem floatMagnitude_nearest {n : Nat} (hlo : 2 ^ 23 ≤ n) (hhi : n < 2 ^ 39) :
    ∃ e m, floatMagnitude n = e * 2 ^ 23 + (m - 2 ^ 23) ∧ NearestNormal (n * 2 ^ 112) e m := by
  have hlog23 : 23 ≤ n.log2 := (Nat.le_log2 (by omega)).2 hlo
  have hlog39 : n.log2 < 39 := (Nat.log2_lt (by omega)).2 hhi
  obtain ⟨sh, hsh⟩ : ∃ sh, n.log2 = 23 + sh := ⟨n.log2 - 23, by omega⟩
  have hle : 2 ^ 23 * 2 ^ sh ≤ n := by
    rw [← Nat.pow_add, ← hsh]
    exact Nat.log2_self_le (by omega)
  have hlt : n < 2 ^ (23 + 1) * 2 ^ sh := by
    rw [← Nat.pow_add, show 23 + 1 + sh = n.log2 + 1 by omega]
    exact Nat.lt_log2_self
  obtain ⟨hrlo, hrhi⟩ := roundShiftEven_range hle hlt
  obtain ⟨e, m, hue, heu, hmlo, hmhi, hvalue, hbits, heven⟩ := exists_significand (u := sh + 112) hrlo hrhi
  have hx : 2 ^ 23 * 2 ^ (sh + 112) ≤ n * 2 ^ 112 := by
    rw [Nat.pow_add, ← Nat.mul_assoc]
    exact Nat.mul_le_mul_right _ hle
  refine ⟨e, m, (floatMagnitude_eq (by omega)).trans hbits.symm, ⟨by omega, by omega⟩, ⟨hmlo, hmhi⟩,
    fun e' m' _ _ hnormal hm' => ?_⟩
  obtain ⟨hnear, htie⟩ := roundShiftEven_nearest_float (e' := e') hx hm'
  rw [roundShiftEven_mul_two_pow, ← hvalue] at hnear htie
  refine ⟨hnear, fun h => (htie h).imp (fun ⟨hu, hsame⟩ => ?_) heven⟩
  exact significand_unique ⟨hmlo, hmhi⟩ ⟨hnormal.resolve_right (by omega), hm'⟩ hsame

/-- The FLOAT32 pattern of a nonzero sample is its sign over the pattern of its magnitude (41_block_decoder.md R160). -/
theorem float32Bits_toNat {v : Int} (hv : v ≠ 0) (h : floatMagnitude (v.natAbs * floatScale) < 2 ^ 31) :
    (float32Bits v).toNat = (if v < 0 then 2 ^ 31 else 0) + floatMagnitude (v.natAbs * floatScale) := by
  rw [float32Bits, if_neg hv, BitVec.toNat_ofNat, Nat.mod_eq_of_lt]
  split <;> omega

/-- Settles O30: the exact product, in units of `2^-150`, is rounded at the exponent of its leading bit. -/
theorem float32PatternIsNearestEven : Obligations.Float32PatternIsNearestEven := by
  refine ⟨fun v hlo hhi hv => ?nearest, by decide +kernel, by decide +kernel, by decide +kernel, by decide +kernel⟩
  case nearest =>
    obtain ⟨e, m, hbits, hnormal⟩ := floatMagnitude_nearest (n := v.natAbs * 8388864) (by omega) (by omega)
    obtain ⟨⟨he1, he254⟩, ⟨hmlo, hmhi⟩, hnearest⟩ := hnormal
    refine ⟨e, m, he1, he254, hmlo, hmhi, ?_, hnearest⟩
    rw [sampleBits, float32Bits_toNat hv (by rw [floatScale, hbits]; omega), floatScale, hbits, Nat.add_assoc]

end Sys2Proof.Machine
end

section
/-! Proofs: the stream decoder: NOP, RESET_STATE, and DECODE, its checks and what it gives (42_stream_decoder.md). -/

namespace Sys2Proof.Machine

/-- Settles O11: NOP is the completion of a command. -/
theorem nopOnlyCompletes : Obligations.NopOnlyCompletes := fun _ => rfl

/-- Settles O12: RESET_STATE is one update of the state. -/
theorem resetStateSeeks : Obligations.ResetStateSeeks := fun _ => rfl

/-! ### The checks -/

/-- A check that fails ends DECODE with its code. -/
theorem exec_decode_of_check {s : State} {e : ErrCode} (h : decodeCheck s = some e) :
    exec .decode s = .next (endedWith e s) := by
  simp only [exec, execDecode, h]
  rfl

/-- Settles O35: each clause is a branch of `decodeCheck`. -/
theorem decodeChecksInOrder : Obligations.DecodeChecksInOrder := by
  intro s off n ch hoff hn hch
  subst hoff hn hch
  refine ⟨fun hparsed => exec_decode_of_check ?parsed, fun hparsed => ⟨fun hchans => exec_decode_of_check ?channels,
    fun hpos hmax => ⟨fun hoff => exec_decode_of_check ?aligned, fun hoff => ⟨fun hmode hseek =>
      exec_decode_of_check ?position, fun hseek => ⟨fun hframes => exec_decode_of_check ?frames, fun hframes =>
        ⟨fun hn hblocks => exec_decode_of_check ?blocks, fun hblocks hout => exec_decode_of_check ?output⟩⟩⟩⟩⟩⟩ <;>
    rw [decodeCheck_eq]
  -- Each `all_goals` steps past the check that failed in the case before it and has passed in those after.
  case parsed => rw [if_pos hparsed]
  all_goals rw [if_neg (by simp [hparsed])]
  case channels => rw [if_pos hchans]
  all_goals rw [if_neg (by omega)]
  case aligned => rw [if_pos hoff]
  all_goals rw [if_neg (not_not.2 hoff)]
  case position => rw [if_pos ⟨hmode, fun h => hseek (BitVec.eq_of_toNat_eq h)⟩]
  all_goals rw [if_neg fun h => h.2 (congrArg BitVec.toNat (hseek h.1))]
  case frames => rw [if_pos hframes]
  all_goals rw [if_neg (Nat.not_lt.2 hframes)]
  case blocks => rw [if_pos ⟨hn, hblocks⟩]
  case output => rw [if_neg (by omega), if_pos (by omega)]

/-! ### What DECODE does when its checks pass -/

/-- With its checks passed DECODE decodes its blocks from the call's entry state (42_stream_decoder.md R191). -/
theorem exec_decode_of_ready {s : State} (h : DecodeReady s) :
    exec .decode s = decodeBlocks (decodeBlockTotal s) 0 (decodeStart s) := by
  simp only [exec, execDecode, (decodeCheck_none_iff s).2 h]

/-- In STATEFUL mode a call starts from CH as it is (42_stream_decoder.md R196). -/
theorem decodeStart_of_stateful {s : State} (h : s.params.streamMode = .stateful) : decodeStart s = s := by
  simp only [decodeStart, h]

/-- In STATELESS mode a call starts from a zeroed CH (42_stream_decoder.md R186). -/
theorem decodeStart_of_stateless {s : State} (h : s.params.streamMode = .stateless) :
    decodeStart s = s.zeroChannels := by
  simp only [decodeStart, h]

/-- The state a DECODE leaves that ends OK with `o` in OUT and `c` in CH (42_stream_decoder.md R189). -/
def decodedWith (o : List (Nat × Word32)) (c : List ChannelState) (s : State) : State :=
  { s with
    status := { s.status with err := .ok, busy := false }
    outMem := o
    ch := c
    nextFrame := BitVec.ofNat 64 (s.frameOffset.toNat + s.frameCount.toNat)
    decoded := BitVec.ofNat 64 s.frameCount.toNat
    run := .idle }

/-- The completion after `n` blocks, written out (42_stream_decoder.md R189). -/
theorem finishDecode_afterBlocks (s : State) (n : Nat) :
    finishDecode (afterBlocks (decodeStart s) n) =
      decodedWith (afterBlocks (decodeStart s) n).outMem (afterBlocks (decodeStart s) n).ch s := by
  obtain ⟨o, c, r, hf⟩ := afterBlocks_decodeStart_frame s n
  rw [hf]
  rfl

/-- The end by an error after `n` blocks, written out (42_stream_decoder.md R192). -/
theorem raise_afterBlocks (s : State) (n : Nat) (e : ErrCode) :
    (afterBlocks (decodeStart s) n).raise e =
      { endedWith e s with
        outMem := (afterBlocks (decodeStart s) n).outMem
        ch := (afterBlocks (decodeStart s) n).ch } := by
  obtain ⟨o, c, r, hf⟩ := afterBlocks_decodeStart_frame s n
  rw [hf]
  rfl

/-- No preamble needed has an index above 88: DECODE completes (42_stream_decoder.md R189). -/
theorem exec_decode_completes {s : State} (h : DecodeReady s)
    (hin : s.siBlockBase.toNat + s.siBlockSize.toNat ≤ s.params.inSize)
    (hx : ∀ n < decodeBlockTotal s, refIndex s (decodeArgs s n).addr ≤ 88) :
    exec .decode s = .next (finishDecode (afterBlocks (decodeStart s) (decodeBlockTotal s))) := by
  rcases execDecode_cases s with ⟨hr, -⟩ | ⟨-, -, he⟩ | ⟨-, a, ha, -, hbad, -⟩ | ⟨hout, -⟩
  · exact absurd h hr
  · exact he
  · exact absurd (hx a ha) (Nat.not_le.2 hbad)
  · exact absurd hin (Nat.not_le.2 hout)

/-- The first preamble index above 88 ends DECODE (42_stream_decoder.md R192). -/
theorem exec_decode_of_badIndex {s : State} {a : Nat} (h : DecodeReady s)
    (hin : s.siBlockBase.toNat + s.siBlockSize.toNat ≤ s.params.inSize) (ha : a < decodeBlockTotal s)
    (hx : ∀ n < a, refIndex s (decodeArgs s n).addr ≤ 88) (hbad : 88 < refIndex s (decodeArgs s a).addr) :
    exec .decode s = .next ((afterBlocks (decodeStart s) a).raise .badIndex) := by
  rcases execDecode_cases s with ⟨hr, -⟩ | ⟨-, hall, -⟩ | ⟨-, b, -, hxb, hbadb, he⟩ | ⟨hout, -⟩
  · exact absurd h hr
  · exact absurd (hall a ha) (Nat.not_le.2 hbad)
  · have hab : a = b := by
      rcases Nat.lt_trichotomy a b with hlt | heq | hlt
      · exact absurd (hxb a hlt) (Nat.not_le.2 hbad)
      · exact heq
      · exact absurd (hx b hlt) (Nat.not_le.2 hbadb)
    exact hab ▸ he
  · exact absurd hin (Nat.not_le.2 hout)

/-- A DECODE that ends OK or with BAD_INDEX passed its checks, and decoded its blocks or those before the first preamble
index above 88. -/
theorem exec_decode_next {s t : State} (h : exec .decode s = .next t)
    (he : t.status.err = .ok ∨ t.status.err = .badIndex) :
    DecodeReady s ∧
      (((∀ n < decodeBlockTotal s, refIndex s (decodeArgs s n).addr ≤ 88) ∧
        t = finishDecode (afterBlocks (decodeStart s) (decodeBlockTotal s))) ∨
      ∃ a < decodeBlockTotal s, (∀ n < a, refIndex s (decodeArgs s n).addr ≤ 88) ∧
        88 < refIndex s (decodeArgs s a).addr ∧ t = (afterBlocks (decodeStart s) a).raise .badIndex) := by
  simp only [exec] at h
  rcases execDecode_cases s with ⟨-, e, ⟨hok, hbad⟩, hd⟩ | ⟨hr, hx, hd⟩ | ⟨hr, a, ha, hx, hbad, hd⟩ | ⟨-, hd⟩ <;>
    rw [hd] at h <;> cases h
  · exact absurd he (not_or.2 ⟨hok, hbad⟩)
  · exact ⟨hr, .inl ⟨hx, rfl⟩⟩
  · exact ⟨hr, .inr ⟨a, ha, hx, hbad, rfl⟩⟩

/-! ### Blocks by slot and channel -/

/-- The block of slot `J` and channel `C` is one of a DECODE's exactly when its slot has a frame (42_stream_decoder.md
R184, R188). -/
theorem slot_lt_decodeBlockTotal {s : State} {J C : Nat} (hC : C < s.siChannelCount.toNat) :
    J * s.siChannelCount.toNat + C < decodeBlockTotal s ↔ 64 * J < s.frameCount.toNat := by
  have hT : decodeBlockTotal s = (s.frameCount.toNat + 63) / 64 * s.siChannelCount.toNat + 0 := rfl
  rw [hT, slot_lt_iff hC (by omega)]
  omega

/-- Every preamble a DECODE needs is legal when those of each slot and channel are. -/
theorem refIndex_decodeArgs_le {s : State} (hw : 0 < s.siChannelCount.toNat)
    (hx : ∀ j c, 64 * j < s.frameCount.toNat → c < s.siChannelCount.toNat → refIndex s (refAddr s j c) ≤ 88) :
    ∀ n < decodeBlockTotal s, refIndex s (decodeArgs s n).addr ≤ 88 := by
  intro n hn
  obtain ⟨J, C, hC, rfl⟩ := slot_exists n hw
  rw [decodeArgs_slot s hC]
  exact hx J C ((slot_lt_decodeBlockTotal hC).1 hn) hC

/-! ### What it gives -/

/-- Settles O36: there are no blocks, and the completion follows the entry state. -/
theorem decodeOfNoFrames : Obligations.DecodeOfNoFrames := by
  intro s h hn
  have hzero : s.frameCount.toNat = 0 := congrArg BitVec.toNat hn
  have htotal : decodeBlockTotal s = 0 := by
    simp only [decodeBlockTotal, decodeOperands, slotsFor, hzero, Nat.zero_add, Nat.reduceDiv, Nat.zero_mul]
  have hch : (decodeStart s).ch = if s.params.streamMode = .stateful then s.ch
      else List.replicate s.params.maxChannels { index := 0, predictor := 0 } := by
    cases hm : s.params.streamMode with
    | stateful => rw [decodeStart_of_stateful hm, if_pos rfl]
    | stateless => rw [decodeStart_of_stateless hm, if_neg (by decide)]; rfl
  have hout : (decodeStart s).outMem = s.outMem := by rw [decodeStart_frame]
  calc exec .decode s
    _ = .next (finishDecode (afterBlocks (decodeStart s) 0)) := by rw [exec_decode_of_ready h, htotal]; rfl
    _ = _ := by
      rw [finishDecode_afterBlocks, decodedWith, hzero, afterBlocks, hch, hout, Nat.add_zero, BitVec.ofNat_toNat,
        BitVec.setWidth_eq]
      rfl

/-- Settles O37: all blocks are done, so `streamDone_decodeStart` speaks of every frame and channel. -/
theorem decodeGivesTheReferenceStream : Obligations.DecodeGivesTheReferenceStream := by
  intro s h hin hl hx
  have hw := h.channels.1
  have hslot (f c : Nat) (hf : f < s.frameCount.toNat) (hc : c < s.siChannelCount.toNat) :
      f / 64 * s.siChannelCount.toNat + c < decodeBlockTotal s := (slot_lt_decodeBlockTotal hc).2 (by omega)
  obtain ⟨hchans, hothers, hsamples, hrest⟩ := streamDone_decodeStart h hl (decodeBlockTotal s)
  refine ⟨_, exec_decode_completes h hin (refIndex_decodeArgs_le hw hx), ?status, ?position, ?decoded, ?samples, ?rest,
    ?chans, hothers, ?frame⟩
  case status => rw [finishDecode_afterBlocks, decodedWith]
  case position =>
    have hframes := h.frames
    have hlt := s.siFrameCount.isLt
    rw [finishDecode_afterBlocks]
    exact (BitVec.toNat_ofNat _ _).trans (Nat.mod_eq_of_lt (by omega))
  case decoded =>
    have hlt := s.frameCount.isLt
    rw [finishDecode_afterBlocks]
    exact (BitVec.toNat_ofNat _ _).trans (Nat.mod_eq_of_lt (by omega))
  case samples => exact fun f c hf hc => hsamples f c hf hc (hslot f c hf hc)
  case rest =>
    refine fun e he => hrest e fun f c hf hc _ => ?_
    have hle : (f + 1) * s.siChannelCount.toNat ≤ s.frameCount.toNat * s.siChannelCount.toNat :=
      Nat.mul_le_mul_right _ hf
    rw [Nat.succ_mul] at hle
    omega
  case chans => exact fun c hc => hchans _ 0 c hw rfl hc
  case frame => rw [finishDecode_afterBlocks, decodedWith]

/-- Settles O38: the blocks done are those before the faulting one, by `slot_lt_iff` those of earlier slots and of
earlier channels of its own slot. -/
theorem badIndexKeepsTheEarlierBlocks : Obligations.BadIndexKeepsTheEarlierBlocks := by
  intro s J C h hin hl hJ hC hbad hx
  have hargs : (decodeArgs s (J * s.siChannelCount.toNat + C)).addr = refAddr s J C := by rw [decodeArgs_slot s hC]
  have hearlier : ∀ n < J * s.siChannelCount.toNat + C, refIndex s (decodeArgs s n).addr ≤ 88 := by
    intro n hn
    obtain ⟨j, c, hc, rfl⟩ := slot_exists n h.channels.1
    rw [decodeArgs_slot s hc]
    exact hx j c ((slot_lt_iff hc hC).1 hn) hc
  obtain ⟨hchans, hothers, hsamples, hrest⟩ := streamDone_decodeStart h hl (J * s.siChannelCount.toNat + C)
  refine ⟨_, exec_decode_of_badIndex h hin ((slot_lt_decodeBlockTotal hC).2 hJ) hearlier (hargs ▸ hbad), ?samples,
    ?rest, ?before, ?after, hothers, ?frame⟩
  case samples => exact fun f c hf hc hlt => hsamples f c hf hc ((slot_lt_iff hc hC).2 hlt)
  case rest => exact fun e he => hrest e fun f c hf hc hlt => he f c hf hc ((slot_lt_iff hc hC).1 hlt)
  case before => exact fun c hc => (hchans J C c hC rfl (by omega)).trans (by rw [if_pos hc])
  case after => exact fun c hCc hc => (hchans J C c hC rfl hc).trans (by rw [if_neg (by omega)])
  case frame => rw [raise_afterBlocks]

/-- Settles O39: CH is zeroed before the first block, and the checks do not read it. -/
theorem statelessDecodeIgnoresRetainedState : Obligations.StatelessDecodeIgnoresRetainedState := by
  intro s l hm h
  have hl : DecodeReady { s with ch := l } := { h with }
  rw [exec_decode_of_ready h, exec_decode_of_ready hl, decodeStart_of_stateless hm,
    decodeStart_of_stateless (s := { s with ch := l }) hm]
  rfl

/-! ### The same blocks from two states -/

/-- What blocks read and write is the same in two states (41_block_decoder.md R143). -/
structure BlocksSame (s t : State) : Prop where
  inMem : t.inMem = s.inMem
  outFmt : t.params.outFmt = s.params.outFmt
  outMem : t.outMem = s.outMem
  ch : t.ch = s.ch

theorem BlocksSame.trans {s t u : State} (h : BlocksSame s t) (k : BlocksSame t u) : BlocksSame s u :=
  ⟨k.inMem.trans h.inMem, k.outFmt.trans h.outFmt, k.outMem.trans h.outMem, k.ch.trans h.ch⟩

/-- A block writes the same from both states, whatever its number is. -/
theorem BlocksSame.blockOut {s t : State} (h : BlocksSame s t) (a : BlockArgs) (j m : Nat) :
    blockOut t { a with blockNo := j } m = blockOut s a m := by
  induction m with
  | zero => exact h.outMem
  | succ m ih =>
    simp only [Machine.blockOut, ih, State.channel, refBlock_congr h.inMem, h.outFmt, h.ch]

/-- A block keeps two states the same, whatever its number is. -/
theorem BlocksSame.afterBlock {s t : State} (h : BlocksSame s t) (a : BlockArgs) (j : Nat) :
    BlocksSame (afterBlock a s) (afterBlock { a with blockNo := j } t) where
  inMem := h.inMem
  outFmt := h.outFmt
  outMem := h.blockOut a j a.count
  ch := by simp only [Machine.afterBlock, State.channel, refBlock_congr h.inMem, h.ch]

/-- The first `m` blocks of one call are blocks `k` to `k + m - 1` of another when they have the same arguments and
start from the same data. -/
theorem BlocksSame.afterBlocks {s t : State} {k : Nat} (h : BlocksSame (afterBlocks s k) t) (m : Nat)
    (hargs : ∀ i < m, decodeArgs t i = { decodeArgs s (k + i) with blockNo := i }) :
    BlocksSame (Machine.afterBlocks s (k + m)) (Machine.afterBlocks t m) := by
  induction m with
  | zero => exact h
  | succ m ih =>
    rw [← Nat.add_assoc, Machine.afterBlocks, Machine.afterBlocks, hargs m (by omega)]
    exact (ih fun i hi => hargs i (by omega)).afterBlock _ m

/-- Calls with the same arguments do the same from the same data. -/
theorem BlocksSame.afterBlocks_of_sameArgs {s t : State} (h : BlocksSame s t) (m : Nat)
    (hargs : ∀ i < m, decodeArgs t i = decodeArgs s i) :
    BlocksSame (Machine.afterBlocks s m) (Machine.afterBlocks t m) := by
  have hshift := BlocksSame.afterBlocks (s := s) (k := 0) h m fun i hi => by
    rw [Nat.zero_add, hargs i hi]
    rfl
  rwa [Nat.zero_add] at hshift

/-- Settles O40: RESET_STATE leaves CH as the STATELESS call zeroes it, and the position as the check wants it; the
blocks are then the same. -/
theorem seekThenDecodeEqualsStateless : Obligations.SeekThenDecodeEqualsStateless := by
  intro s u t hm hin hu ht hend
  cases hu
  let u : State := { s.zeroChannels.complete with nextFrame := s.frameOffset, decoded := 0 }
  let l : State := { s with params := { s.params with streamMode := .stateless } }
  obtain ⟨hl, hdone⟩ := exec_decode_next ht hend
  have hu : DecodeReady u :=
    ⟨hl.parsed, hl.channels, hl.aligned, fun _ => rfl, hl.frames, hl.blocks, hl.output⟩
  have hsame (n : Nat) : BlocksSame (afterBlocks (decodeStart l) n) (afterBlocks (decodeStart u) n) := by
    rw [decodeStart_of_stateless (s := l) rfl, decodeStart_of_stateful (s := u) hm]
    exact BlocksSame.afterBlocks_of_sameArgs (s := l.zeroChannels) (t := u) ⟨rfl, rfl, rfl, rfl⟩ n fun _ _ => rfl
  rcases hdone with ⟨hx, rfl⟩ | ⟨a, ha, hx, hbad, rfl⟩
  · refine ⟨_, exec_decode_completes hu hin hx, rfl, (hsame _).outMem, (hsame _).ch, fun _ => ?_⟩
    rw [finishDecode_afterBlocks, finishDecode_afterBlocks]
    rfl
  · refine ⟨_, exec_decode_of_badIndex hu hin ha hx hbad, rfl, (hsame _).outMem, (hsame _).ch, fun hok => ?_⟩
    cases hok

/-! ### Two consecutive calls -/

/-- The first of two consecutive calls: `n1` frames. -/
def firstCall (s : State) (n1 : Word32) : State := { s with frameCount := n1 }

/-- The second of two consecutive calls, where the first ended OK with `o` in OUT and `c` in CH: `n2` frames at the next
offset into the window that follows. -/
def secondCall (o : List (Nat × Word32)) (c : List ChannelState) (s : State) (n1 n2 : Word32) : State :=
  { decodedWith o c (firstCall s n1) with
    frameOffset := BitVec.ofNat 64 (s.frameOffset.toNat + n1.toNat)
    frameCount := n2
    outBase := BitVec.ofNat 64 (s.outBase.toNat + n1.toNat * s.siChannelCount.toNat)
    outLen := BitVec.ofNat 64 (s.outLen.toNat - n1.toNat * s.siChannelCount.toNat) }

/-- A call that passes its checks, cut into `n1` frames, whole slots of them, and then `n2` frames. -/
structure CutCall (s : State) (n1 n2 : Word32) : Prop where
  ready : DecodeReady s
  outSize : s.params.outSize ≤ 2 ^ 64
  slots : n1.toNat % 64 = 0
  frames : s.frameCount.toNat = n1.toNat + n2.toNat

namespace CutCall
variable {s : State} {n1 n2 : Word32} {o : List (Nat × Word32)} {c : List ChannelState}

/-- A block array that holds the call's slots holds those of fewer frames (42_stream_decoder.md R187). -/
theorem blocks_le (h : CutCall s n1 n2) {j : Nat} (hpos : 0 < s.frameCount.toNat)
    (hj : j ≤ s.frameOffset.toNat / 64 + (s.frameCount.toNat + 63) / 64) :
    j * s.siChannelCount.toNat * 34 ≤ s.siBlockSize.toNat :=
  Nat.le_trans (Nat.mul_le_mul_right _ (Nat.mul_le_mul_right _ hj)) (h.ready.blocks hpos)

theorem samples_eq (h : CutCall s n1 n2) : s.frameCount.toNat * s.siChannelCount.toNat =
    n1.toNat * s.siChannelCount.toNat + n2.toNat * s.siChannelCount.toNat := by
  rw [h.frames, Nat.add_mul]

theorem firstCall_ready (h : CutCall s n1 n2) : DecodeReady (firstCall s n1) := by
  have hframes := h.frames
  have hfit := h.ready.frames
  have hout := h.ready.output
  rw [h.samples_eq] at hout
  refine ⟨h.ready.parsed, h.ready.channels, h.ready.aligned, h.ready.position, ?frames, ?blocks, ?output⟩
  case frames =>
    show s.frameOffset.toNat + n1.toNat ≤ s.siFrameCount.toNat
    omega
  case blocks =>
    intro (hpos : 0 < n1.toNat)
    refine h.blocks_le (by omega) ?_
    show s.frameOffset.toNat / 64 + (n1.toNat + 63) / 64 ≤ _
    omega
  case output =>
    show n1.toNat * s.siChannelCount.toNat ≤ s.outLen.toNat ∧
      s.outBase.toNat + n1.toNat * s.siChannelCount.toNat ≤ s.params.outSize
    omega

/-- The second call's offset does not wrap. -/
theorem secondCall_frameOffset (h : CutCall s n1 n2) :
    (secondCall o c s n1 n2).frameOffset.toNat = s.frameOffset.toNat + n1.toNat := by
  have hframes := h.frames
  have hfit := h.ready.frames
  have hlt := s.siFrameCount.isLt
  exact (BitVec.toNat_ofNat _ _).trans (Nat.mod_eq_of_lt (by omega))

/-- The second call's window does not wrap when it holds a sample. -/
theorem secondCall_outBase (h : CutCall s n1 n2) (hpos : 0 < n2.toNat * s.siChannelCount.toNat) :
    (secondCall o c s n1 n2).outBase.toNat = s.outBase.toNat + n1.toNat * s.siChannelCount.toNat := by
  have hout := h.ready.output
  have hsize := h.outSize
  rw [h.samples_eq] at hout
  exact (BitVec.toNat_ofNat _ _).trans (Nat.mod_eq_of_lt (by omega))

theorem secondCall_ready (h : CutCall s n1 n2) : DecodeReady (secondCall o c s n1 n2) := by
  have hoff := h.secondCall_frameOffset (o := o) (c := c)
  have hslots := h.slots
  have hframes := h.frames
  have haligned := h.ready.aligned
  have hfit := h.ready.frames
  refine ⟨h.ready.parsed, h.ready.channels, ?aligned, fun _ => rfl, ?frames, ?blocks, ?output⟩
  case aligned => omega
  case frames =>
    show (secondCall o c s n1 n2).frameOffset.toNat + n2.toNat ≤ s.siFrameCount.toNat
    omega
  case blocks =>
    intro (hpos : 0 < n2.toNat)
    refine h.blocks_le (by omega) ?_
    show (secondCall o c s n1 n2).frameOffset.toNat / 64 + (n2.toNat + 63) / 64 ≤ _
    omega
  case output =>
    have hout := h.ready.output
    rw [h.samples_eq] at hout
    have hlen : (secondCall o c s n1 n2).outLen.toNat = s.outLen.toNat - n1.toNat * s.siChannelCount.toNat := by
      have hlt := s.outLen.isLt
      exact (BitVec.toNat_ofNat _ _).trans (Nat.mod_eq_of_lt (by omega))
    have hbase : (secondCall o c s n1 n2).outBase.toNat ≤ s.outBase.toNat + n1.toNat * s.siChannelCount.toNat :=
      (BitVec.toNat_ofNat _ _).trans_le (Nat.mod_le _ _)
    show n2.toNat * s.siChannelCount.toNat ≤ _ ∧ _ + n2.toNat * s.siChannelCount.toNat ≤ s.params.outSize
    omega

/-- The blocks of the two calls are those of the one (42_stream_decoder.md R184). -/
theorem decodeBlockTotal_add (h : CutCall s n1 n2) :
    decodeBlockTotal (firstCall s n1) + decodeBlockTotal (secondCall o c s n1 n2) = decodeBlockTotal s := by
  have hslots := h.slots
  have hframes := h.frames
  show (n1.toNat + 63) / 64 * s.siChannelCount.toNat + (n2.toNat + 63) / 64 * s.siChannelCount.toNat =
    (s.frameCount.toNat + 63) / 64 * s.siChannelCount.toNat
  rw [← Nat.add_mul]
  congr 1
  omega

/-- The first call's blocks are the first of the one call's. -/
theorem decodeArgs_firstCall (h : CutCall s n1 n2) {i : Nat} (hi : i < decodeBlockTotal (firstCall s n1)) :
    decodeArgs (firstCall s n1) i = decodeArgs s i := by
  obtain ⟨J, C, hC, rfl⟩ := slot_exists i h.ready.channels.1
  have hJ : 64 * J < n1.toNat := (slot_lt_decodeBlockTotal (s := firstCall s n1) hC).1 hi
  have hslots := h.slots
  have hframes := h.frames
  have hcount : refFrames (firstCall s n1) J = refFrames s J := by
    show min 64 (n1.toNat - 64 * J) = min 64 (s.frameCount.toNat - 64 * J)
    omega
  rw [decodeArgs_slot s hC, ← hcount]
  exact decodeArgs_slot (firstCall s n1) hC

/-- The second call's slots stand in the block array after the first call's. -/
theorem refAddr_secondCall (h : CutCall s n1 n2) (J C : Nat) :
    refAddr (secondCall o c s n1 n2) J C = refAddr s (n1.toNat / 64 + J) C := by
  have hslot : (secondCall o c s n1 n2).frameOffset.toNat / 64 + J =
      s.frameOffset.toNat / 64 + (n1.toNat / 64 + J) := by
    have hslots := h.slots
    have haligned := h.ready.aligned
    rw [h.secondCall_frameOffset]
    omega
  rw [refAddr, refAddr, hslot]
  rfl

/-- The second call's slots have the frames that those slots have in the one call. -/
theorem refFrames_secondCall (h : CutCall s n1 n2) (J : Nat) :
    refFrames (secondCall o c s n1 n2) J = refFrames s (n1.toNat / 64 + J) := by
  have hslots := h.slots
  have hframes := h.frames
  show min 64 (n2.toNat - 64 * J) = min 64 (s.frameCount.toNat - 64 * (n1.toNat / 64 + J))
  omega

/-- The second call's blocks are the one call's after the first call's. -/
theorem decodeArgs_secondCall (h : CutCall s n1 n2) {i : Nat} (hi : i < decodeBlockTotal (secondCall o c s n1 n2)) :
    decodeArgs (secondCall o c s n1 n2) i =
      { decodeArgs s (decodeBlockTotal (firstCall s n1) + i) with blockNo := i } := by
  obtain ⟨J, C, hC, rfl⟩ := slot_exists i h.ready.channels.1
  have hJ : 64 * J < n2.toNat := (slot_lt_decodeBlockTotal (s := secondCall o c s n1 n2) hC).1 hi
  have hslots := h.slots
  have hplace : decodeBlockTotal (firstCall s n1) + (J * s.siChannelCount.toNat + C) =
      (n1.toNat / 64 + J) * s.siChannelCount.toNat + C := by
    show (n1.toNat + 63) / 64 * s.siChannelCount.toNat + _ = _
    rw [show (n1.toNat + 63) / 64 = n1.toNat / 64 by omega, Nat.add_mul, Nat.add_assoc]
  have hout : (secondCall o c s n1 n2).outBase.toNat + 64 * J * s.siChannelCount.toNat =
      s.outBase.toNat + 64 * (n1.toNat / 64 + J) * s.siChannelCount.toNat := by
    rw [h.secondCall_outBase (Nat.mul_pos (by omega) h.ready.channels.1), Nat.add_assoc, ← Nat.add_mul]
    congr 2
    omega
  rw [hplace, decodeArgs_slot s hC, ← hout, ← h.refAddr_secondCall (o := o) (c := c),
    ← h.refFrames_secondCall (o := o) (c := c)]
  exact decodeArgs_slot (secondCall o c s n1 n2) hC

/-- The two calls decode the blocks of the one, in its order (42_stream_decoder.md R199). -/
theorem blocksSame (h : CutCall s n1 n2) (hm : s.params.streamMode = .stateful)
    (ho : o = (afterBlocks (decodeStart (firstCall s n1)) (decodeBlockTotal (firstCall s n1))).outMem)
    (hc : c = (afterBlocks (decodeStart (firstCall s n1)) (decodeBlockTotal (firstCall s n1))).ch) :
    BlocksSame (afterBlocks (decodeStart s) (decodeBlockTotal s))
      (afterBlocks (decodeStart (secondCall o c s n1 n2)) (decodeBlockTotal (secondCall o c s n1 n2))) := by
  rw [decodeStart_of_stateful (s := firstCall s n1) hm] at ho hc
  rw [decodeStart_of_stateful hm, decodeStart_of_stateful (s := secondCall o c s n1 n2) hm,
    ← h.decodeBlockTotal_add (o := o) (c := c)]
  have hfirst : BlocksSame (afterBlocks s (decodeBlockTotal (firstCall s n1)))
      (afterBlocks (firstCall s n1) (decodeBlockTotal (firstCall s n1))) :=
    BlocksSame.afterBlocks_of_sameArgs (s := s) (t := firstCall s n1) ⟨rfl, rfl, rfl, rfl⟩ _ fun _ hi =>
      h.decodeArgs_firstCall hi
  have hmid : BlocksSame (afterBlocks (firstCall s n1) (decodeBlockTotal (firstCall s n1))) (secondCall o c s n1 n2) :=
    ⟨(afterBlocks_inMem (firstCall s n1) _).symm, congrArg Params.outFmt (afterBlocks_params (firstCall s n1) _).symm,
      ho, hc⟩
  exact (hfirst.trans hmid).afterBlocks _ fun i hi => h.decodeArgs_secondCall hi

end CutCall

/-- Settles O41: the blocks of the one call are those of the two, and the first call's end is the second's start. -/
theorem oneDecodeEqualsTwo : Obligations.OneDecodeEqualsTwo := by
  intro s t n1 n2 hinv hm hslots hframes ht hok
  obtain ⟨hr, hdone⟩ := exec_decode_next ht (.inl hok)
  rcases hdone with ⟨hx, rfl⟩ | ⟨a, -, -, -, rfl⟩
  case inr => cases hok
  obtain ⟨-, -, -, hsize⟩ := hinv.params
  have h : CutCall s n1 n2 := ⟨hr, hsize, hslots, hframes⟩
  let first := afterBlocks (decodeStart (firstCall s n1)) (decodeBlockTotal (firstCall s n1))
  let second := secondCall first.outMem first.ch s n1 n2
  have htotal : decodeBlockTotal (firstCall s n1) + decodeBlockTotal second = decodeBlockTotal s :=
    h.decodeBlockTotal_add
  have hx1 : ∀ i < decodeBlockTotal (firstCall s n1), refIndex s (decodeArgs (firstCall s n1) i).addr ≤ 88 :=
    fun i hi => h.decodeArgs_firstCall hi ▸ hx i (by omega)
  have hx2 : ∀ i < decodeBlockTotal second, refIndex s (decodeArgs second i).addr ≤ 88 := by
    intro i hi
    rw [h.decodeArgs_secondCall hi]
    exact hx _ (by omega)
  have hsame := h.blocksSame hm (o := first.outMem) (c := first.ch) rfl rfl
  refine ⟨decodedWith first.outMem first.ch (firstCall s n1), _, ?_, rfl,
    exec_decode_completes h.secondCall_ready hinv.blocksInIn hx2, rfl, hsame.outMem, hsame.ch, ?_⟩
  · exact (exec_decode_completes h.firstCall_ready hinv.blocksInIn hx1).trans
      (congrArg _ (finishDecode_afterBlocks _ _))
  · rw [finishDecode_afterBlocks, finishDecode_afterBlocks]
    show BitVec.ofNat 64 (second.frameOffset.toNat + n2.toNat) =
      BitVec.ofNat 64 (s.frameOffset.toNat + s.frameCount.toNat)
    rw [h.secondCall_frameOffset, hframes, Nat.add_assoc]

end Sys2Proof.Machine
end

section
/-! Proofs: the turns of the core and of a WAIT, and that a pending command completes (60_exceptions.md R214). -/

namespace Sys2Proof.Machine

/-! ### What the core's step is -/

/-- With a legal word pending the core's step is the command it names (60_exceptions.md R214). -/
theorem coreStep_of_command {s : State} {i : Instr} (h : decodeCommand s.pending = .ok i) : coreStep s = exec i s := by
  simp only [coreStep, h]

/-- With no turn left an idle core has nothing to do (60_exceptions.md R230, log 5). -/
theorem step_idle_noTurns {s : State} (hh : s.hostHazard = false) (hr : s.run = .idle) (hb : s.status.busy = false)
    (hs : s.schedule = []) : step s = .next s := by
  simp [step, machineStep, takeTurn, coreTurn, hh, hr, hb, hs]

/-- A WAIT that reads BUSY = 0 is over (30_encoding.md R98, log 6). -/
theorem step_wait_done {s : State} {rest : List Turn} (hh : s.hostHazard = false) (hr : s.run = .idle)
    (hb : s.status.busy = false) (hs : s.schedule = .wait :: rest) :
    step s = .next (endWait { s with schedule := rest }) := by
  simp [step, machineStep, takeTurn, dropTurn, hh, hr, hb, hs]

/-- Settles O6: each turn has its own lemma, and the core's step is the command its word names. -/
theorem stepIsExecOfThePendingCommand : Obligations.StepIsExecOfThePendingCommand := by
  refine ⟨fun s i hh hr hs hb hi => ?core, fun s hh hr hs hb => step_idle_noTurns hh hr hb hs,
    fun s rest hh hr hs => ⟨fun i hb hi => ?waiting, fun hb => step_wait_done hh hr hb hs⟩⟩
  case core => exact (step_core_busy hh hr hb hs).trans (coreStep_of_command (s := dropTurn s) hi)
  case waiting => exact (step_wait_busy hh hr hb hs).trans (coreStep_of_command hi)

/-! ### That it completes -/

/-- Settles O14: PARSE ends with an error, which clears PARSED, or with success, which sets it. -/
theorem parseAlwaysCompletes : Obligations.ParseAlwaysCompletes := by
  intro s
  obtain ⟨t, ht, ho⟩ := execParse_outcome s
  refine ⟨t, ht, ?_⟩
  rcases ho with ⟨e, he, rfl⟩ | ⟨d, f, b, -, -, -, -, rfl⟩
  · exact ⟨rfl, rfl, rfl, rfl, nofun, fun hok => absurd hok he⟩
  · exact ⟨rfl, rfl, rfl, rfl, fun _ => rfl, fun _ => rfl⟩

/-- No command stops while the StreamInfo positions lie in IN; of the five only DECODE reads there (20_memory.md R75,
log 11). -/
theorem exec_command_completes {w : Word64} {i : Instr} {s : State} (hw : decodeCommand w = .ok i)
    (hin : s.siBlockBase.toNat + s.siBlockSize.toNat ≤ s.params.inSize) : ∃ t, exec i s = .next t := by
  rcases decodeCommand_ok hw with ⟨-, rfl⟩ | ⟨-, rfl⟩ | ⟨-, rfl⟩ | ⟨-, rfl⟩ | ⟨-, rfl⟩
  · exact ⟨_, rfl⟩
  · obtain ⟨t, ht, -⟩ := execParse_outcome s
    exact ⟨t, ht⟩
  · rcases execDecode_cases s with ⟨-, e, -, hd⟩ | ⟨-, -, hd⟩ | ⟨-, a, -, -, -, hd⟩ | ⟨hout, -⟩
    · exact ⟨_, hd⟩
    · exact ⟨_, hd⟩
    · exact ⟨_, hd⟩
    · exact absurd hin (Nat.not_le.2 hout)
  · rcases execDecodeBlock_cases s with ⟨e, -, hd⟩ | ⟨-, -, hd⟩
    · exact ⟨_, hd⟩
    · exact ⟨_, hd⟩
  · exact ⟨_, rfl⟩

/-- The core's step always ends the pending command, an illegal word included (60_exceptions.md R213, R214). -/
theorem coreStep_completes {s : State} (hin : s.siBlockBase.toNat + s.siBlockSize.toNat ≤ s.params.inSize) :
    ∃ t, coreStep s = .next t ∧ t.status.busy = false ∧ t.run = .idle := by
  have hnext : ∃ t, coreStep s = .next t := by
    rcases coreStep_cases s with ⟨i, hi, he⟩ | he
    · obtain ⟨t, ht⟩ := exec_command_completes hi hin
      exact ⟨t, he.trans ht⟩
    · exact ⟨_, he⟩
  obtain ⟨t, ht⟩ := hnext
  exact ⟨t, ht, (coreStep_idle ht).2, (coreStep_idle ht).1⟩

/-- Settles O53: each of the turns is the core's step, and the invariant keeps the StreamInfo positions in IN. -/
theorem everyCommandCompletes : Obligations.EveryCommandCompletes := by
  rintro s hinv hh hr hb (hs | ⟨rest, hs | hs⟩)
  · exact step_core_busy hh hr hb (.inl hs) ▸ coreStep_completes hinv.blocksInIn
  · exact step_core_busy hh hr hb (.inr ⟨rest, hs⟩) ▸ coreStep_completes (s := dropTurn s) hinv.blocksInIn
  · exact step_wait_busy hh hr hb hs ▸ coreStep_completes hinv.blocksInIn

end Sys2Proof.Machine
end

section
/-! Proofs: the accesses of the host that are a hazard (60_exceptions.md R223, 70_reset_and_hazards.md R245, R246). -/

namespace Sys2Proof.Machine

section
variable {s : State} (hb : s.status.busy = true)
include hb

theorem hostAccess_inWrite_busy {a : Nat} (b : Byte) (ha : a < s.params.inSize) :
    hostAccess (.inWrite a b) s = .next (recordHazard s) := by
  rw [hostAccess, if_neg (Nat.not_le.2 ha), if_pos hb]

theorem hostAccess_outWrite_busy {e : Nat} (v : Word32) (he : e < s.params.outSize) :
    hostAccess (.outWrite e v) s = .next (recordHazard s) := by
  rw [hostAccess, if_neg (Nat.not_le.2 he), if_pos hb]

theorem hostAccess_outRead_busy {e : Nat} (he : e < s.params.outSize) :
    hostAccess (.outRead e) s = .next (recordHazard s) := by
  rw [hostAccess, if_neg (Nat.not_le.2 he), if_pos hb]

end

/-- After a hazard the machine stops (60_exceptions.md R223, log 9). -/
theorem step_of_hazard {s : State} (h : s.hostHazard = true) : step s = .fault .hostHazard := if_pos h

/-- Settles O46: a turn of the host is its access, and each of the three accesses is a hazard while BUSY = 1. -/
theorem hazardsAreRecorded : Obligations.HazardsAreRecorded := by
  refine ⟨fun s a b rest hh hr hb hs ha => ?inWrite, fun s e v rest hh hr hb hs he => ?out, fun s h => step_of_hazard h⟩
  case inWrite =>
    exact (step_host hh hr hs).trans (hostAccess_inWrite_busy (s := { s with schedule := rest }) hb b ha)
  case out =>
    rcases hs with hs | hs
    · exact (step_host hh hr hs).trans (hostAccess_outWrite_busy (s := { s with schedule := rest }) hb v he)
    · exact (step_host hh hr hs).trans (hostAccess_outRead_busy (s := { s with schedule := rest }) hb he)

end Sys2Proof.Machine
end

section
/-! Proofs: the reset event and the state after power-on (70_reset_and_hazards.md R240 to R243). -/

namespace Sys2Proof.Machine

/-- A reset is one turn, busy or not (70_reset_and_hazards.md R240, R242). -/
theorem step_reset {s : State} {rest : List Turn} (hh : s.hostHazard = false) (hr : s.run = .idle)
    (hs : s.schedule = .reset :: rest) : step s = .next (State.resetEvent { s with schedule := rest }) := by
  simp [step, machineStep, takeTurn, dropTurn, hh, hr, hs]

/-- The host reads the same registers after a reset event as after power-on (70_reset_and_hazards.md R240). -/
theorem regValue_resetEvent (s : State) (i : Nat) : s.resetEvent.regValue i = (State.resetWith s.params).regValue i :=
  rfl

/-- Settles O48: a reset event leaves the registers of power-on and the memories of before. -/
theorem resetEvent : Obligations.ResetEvent := by
  intro s rest hh hr hs
  refine ⟨_, step_reset hh hr hs, fun i hi => ?_, rfl, rfl, rfl, rfl, rfl, rfl, rfl, rfl⟩
  rw [regValue_resetEvent, regValue_resetWith _ hi]

/-- Settles O49: the registers of power-on are those of `regValue_resetWith`. -/
theorem powerOnRegisters : Obligations.PowerOnRegisters :=
  fun p => ⟨fun _ hi => regValue_resetWith p hi, rfl, rfl, rfl⟩

theorem ChannelState.legal_zero : ChannelState.zero.legal := by decide

/-- The power-on state is legal, whatever the parameters: zero entries of CH, and nothing written yet. -/
theorem inv_resetWith {p : Params} (hp : p.valid) : (State.resetWith p).Inv where
  params := hp
  chLength := List.length_replicate
  chLegal _ hc := List.eq_of_mem_replicate hc ▸ ChannelState.legal_zero
  inWf := (State.resetWith_wf p).1
  outWf := (State.resetWith_wf p).2
  inBound := nofun
  outBound := nofun
  outWidth := nofun
  blocksInIn := Nat.zero_le _
  frames := Nat.two_pow_pos 63
  run := trivial

/-- Settles O51: every power-on state is legal, and the default parameters are in their ranges. -/
theorem powerOnMeetsTheInvariant : Obligations.PowerOnMeetsTheInvariant :=
  ⟨fun _ hp => inv_resetWith hp, inv_resetWith (p := Config.defaultParams) (by decide)⟩

end Sys2Proof.Machine
end

section
/-! Proofs: what the host keeps of its run while a command is pending (70_reset_and_hazards.md R255, logs 19, 28). -/

namespace Sys2Proof.Machine

/-- The command that was pending still is: its word and its window stand, and the host has read no end of it. -/
structure StillPending (s t : State) : Prop where
  busy : s.status.busy = true
  pending : t.pending = s.pending
  outBase : t.outBase = s.outBase
  outLen : t.outLen = s.outLen
  sawDone : sawDone t.history = sawDone s.history

theorem stillPending_refl {s : State} (hb : s.status.busy = true) : StillPending s s := ⟨hb, rfl, rfl, rfl, rfl⟩

/-- The host has just started the pending command, and kept its word and its window (10_state.md R28, log 19). -/
abbrev JustStarted (s t : State) : Prop := t.history = .command t.pending t.outBase t.outLen :: s.history

/-- A write of a register that leaves BUSY = 1 where it was 0 is the write of CMD (10_state.md R28). -/
theorem justStarted_writeReg {i : Nat} {v : Word64} {s : State} (hs : s.status.busy = false)
    (ht : (writeReg i v s).status.busy = true) : JustStarted s (writeReg i v s) := by
  have hsame : (writeReg i v s).status ≠ s.status := fun he => by simp [he, hs] at ht
  rcases writeReg_cases i v s with ⟨-, he⟩ | ⟨-, he⟩ | ⟨-, -, b, l, ob, ol, fo, fc, ba, bb, cs, he⟩ | he <;>
    rw [he] at hsame ⊢
  · rfl
  · unfold writeChState at hsame
    split at hsame <;> exact absurd rfl hsame
  · exact absurd rfl hsame
  · exact absurd rfl hsame

/-- A read of a register tells the host nothing of the end of a pending command (10_state.md R27, R29). -/
theorem stillPending_hostRegRead (i : Nat) {s : State} (hb : s.status.busy = true) :
    StillPending s (hostRegRead i s) := by
  obtain ⟨v, n, he, hv⟩ := hostRegRead_frame i s
  rw [he]
  refine { stillPending_refl hb with sawDone := ?_ }
  by_cases hi : i = 1
  · subst hi
    rw [hv rfl]
    exact (sawDone_status s.status s.history).trans (by simp [hb])
  · exact sawDone_reg_of_ne hi v s.history

/-- An access of the host that leaves BUSY = 1 has started the command or leaves it pending. -/
theorem hostAccess_pending {a : HostAccess} {s t : State} (h : hostAccess a s = .next t)
    (ht : t.status.busy = true) : JustStarted s t ∨ StillPending s t := by
  rcases hostAccess_next h with ⟨i, v, -, hb, rfl⟩ | ⟨i, v, -, hb, rfl⟩ | ⟨i, -, rfl⟩ | ⟨hb, rfl⟩ |
    ⟨addr, b, -, hb, -, rfl⟩ | ⟨addr, -, rfl⟩ | ⟨e, v, -, hb, -, rfl⟩ | ⟨e, -, hb, rfl⟩
  · exact .inr { stillPending_refl hb with }
  · exact .inl (justStarted_writeReg hb ht)
  · obtain ⟨v, n, he, -⟩ := hostRegRead_frame i s
    exact .inr (stillPending_hostRegRead i (by simpa [he] using ht))
  · exact .inr { stillPending_refl hb with }
  · exact absurd (hb.symm.trans ht) Bool.false_ne_true
  · exact .inr { stillPending_refl ht with }
  · exact absurd (hb.symm.trans ht) Bool.false_ne_true
  · exact absurd (hb.symm.trans ht) Bool.false_ne_true

/-- A turn that leaves BUSY = 1 has started the command or leaves it pending: the core's step and a reset end it. -/
theorem TurnOutcome.pending {s t : State} (h : TurnOutcome s t) (ht : t.status.busy = true) :
    JustStarted s t ∨ StillPending s t := by
  cases h with
  | command _ _ run => exact absurd ((coreStep_idle run).2.symm.trans ht) Bool.false_ne_true
  | stay l => exact .inr { stillPending_refl ht with }
  | waitEnds l =>
    have hdone : Machine.sawDone (.reg 1 s.status.word :: s.history) = Machine.sawDone s.history := by
      rw [sawDone_status]
      simp [show s.status.busy = true from ht]
    exact .inr { stillPending_refl ht with sawDone := hdone }
  | reset first => cases ht
  | host first access =>
    rcases hostAccess_pending access ht with hk | hk
    · exact .inl hk
    · exact .inr { hk with }

/-- An access of the host takes nothing from what the host has kept (log 19). -/
theorem hostAccess_history {a : HostAccess} {s t : State} (h : hostAccess a s = .next t) : s.history ⊆ t.history := by
  rcases hostAccess_next h with ⟨i, v, -, -, rfl⟩ | ⟨i, v, -, -, rfl⟩ | ⟨i, -, rfl⟩ | ⟨-, rfl⟩ |
    ⟨addr, b, -, -, -, rfl⟩ | ⟨addr, -, rfl⟩ | ⟨e, v, -, -, -, rfl⟩ | ⟨e, -, -, rfl⟩
  · exact List.Subset.refl _
  · rcases writeReg_cases i v s with ⟨-, he⟩ | ⟨-, he⟩ | ⟨-, -, b, l, ob, ol, fo, fc, ba, bb, cs, he⟩ | he <;> rw [he]
    · exact List.subset_cons_self _ _
    · unfold writeChState
      split <;> exact List.Subset.refl _
    · exact List.Subset.refl _
    · exact List.Subset.refl _
  · obtain ⟨v, n, he, -⟩ := hostRegRead_frame i s
    rw [he]
    exact List.subset_cons_self _ _
  · exact List.Subset.refl _
  · exact List.Subset.refl _
  · exact List.subset_cons_self _ _
  · exact List.Subset.refl _
  · exact List.subset_cons_self _ _

/-- No turn takes anything from what the host has kept (log 19). -/
theorem TurnOutcome.history {s t : State} (h : TurnOutcome s t) : s.history ⊆ t.history := by
  cases h with
  | command _ _ run => exact (hostSame_coreStep run).history ▸ List.Subset.refl _
  | stay l => exact List.Subset.refl _
  | waitEnds l => exact List.subset_cons_self _ _
  | reset first => exact List.Subset.refl _
  | host first access =>
    have hkept := hostAccess_history access
    exact hkept

end Sys2Proof.Machine
end

section
/-! Proofs: the end of a run (70_reset_and_hazards.md R255). -/

namespace Sys2Proof.Machine

theorem State.ended_iff (s : State) :
    s.ended = true ↔ sawDone s.history = true ∧ s.schedule = [] ∧ s.status.busy = false ∧ s.run = .idle := by
  simp [State.ended, and_assoc]

/-- A read of STATUS with BUSY = 0, by a WAIT or by itself, shows the host the end (30_encoding.md R98). -/
theorem sawDone_status_of_idle {s : State} (hb : s.status.busy = false) :
    sawDone (.reg 1 s.status.word :: s.history) = true := by
  rw [sawDone_status, hb]
  rfl

/-- A read of STATUS returns its word, busy or not (10_state.md R27). -/
theorem hostAccess_regRead_status (s : State) : hostAccess (.regRead 1) s = .next (endWait s) := by
  simp [hostAccess, hostRegRead, endWait]

/-- Settles O59: an ended run has no turn and no command left, and a turn that leaves a command pending has just started
it or shows no end of it. -/
theorem theEndOfARun : Obligations.TheEndOfARun := by
  refine ⟨fun s hh he => ?stays, fun s t hr hk h hb => ?notSeen, fun _ => rfl, fun s rest hh hr hb hs => ?seen⟩
  case stays =>
    obtain ⟨-, hs, hb, hr⟩ := s.ended_iff.1 he
    exact step_idle_noTurns hh hr hb hs
  case notSeen =>
    rcases (step_idle_next hr h).pending hb with hstart | hp
    · rw [hstart, sawDone_command]
    · exact hp.sawDone.trans (hk hp.busy)
  case seen =>
    refine ⟨endWait { s with schedule := rest }, ?_, sawDone_status_of_idle hb, rfl⟩
    rcases hs with hs | hs
    · exact step_wait_done hh hr hb hs
    · rw [step_host hh hr hs, hostAccess_regRead_status]

end Sys2Proof.Machine
end

section
/-! Proofs: the windows of the program's commands, which the observation shows (70_reset_and_hazards.md R255, log 28). -/

namespace Sys2Proof.Machine

/-- The window of a command the host has just started is observed, if the command writes OUT. -/
theorem windowKept_of_justStarted {s t : State} (h : JustStarted s t) : t.windowKept := by
  intro _ hw e hlo hhi hlt
  exact mem_windowElems.2 ⟨.command t.pending t.outBase t.outLen, h ▸ List.mem_cons_self, _, if_pos hw, hlo, hhi, hlt⟩

/-- A turn keeps what is observed (log 19). -/
theorem TurnOutcome.windowElems {s t : State} (h : TurnOutcome s t) (hp : t.params = s.params) {e : Nat}
    (he : e ∈ s.windowElems) : e ∈ t.windowElems :=
  windowElems_mono hp (fun _ hm => h.history hm) he

/-- A turn keeps that the window of a pending command is observed. -/
theorem TurnOutcome.windowKept {s t : State} (h : TurnOutcome s t) (hp : t.params = s.params) (hk : s.windowKept) :
    t.windowKept := by
  intro hb hw e hlo hhi hlt
  rcases h.pending hb with hstart | hstill
  · exact windowKept_of_justStarted hstart hb hw e hlo hhi hlt
  · obtain ⟨hbusy, hpending, hbase, hlen, -⟩ := hstill
    rw [hpending] at hw
    rw [hbase] at hlo hhi
    rw [hlen] at hhi
    rw [hp] at hlt
    exact h.windowElems hp (hk hbusy hw e hlo hhi hlt)

theorem outElem_congr {s t : State} (ho : t.outMem = s.outMem) (hp : t.params = s.params) (e : Nat) :
    t.outElem e = s.outElem e := by
  rw [State.outElem, State.outElem, ho, hp]

/-- Of the commands only DECODE and DECODE_BLOCK write OUT (20_memory.md R61). -/
theorem CommandOutcome.output {w : Word64} {s t : State} (h : CommandOutcome w s t) :
    t.outMem = s.outMem ∨ w = 2 ∨ w = 3 := by
  cases h with
  | decodes word | decodeFails word => exact .inr (.inl word)
  | decodesBlock word => exact .inr (.inr word)
  | nop | parseFails | parses | decodeBlockFails | resetsState | illegal => exact .inl rfl

/-- An element of OUT that the core's step changes lies in the window of a DECODE or a DECODE_BLOCK (20_memory.md
R61). -/
theorem coreStep_changes_window {s t : State} (h : coreStep s = .next t) {e : Nat} (hne : t.outElem e ≠ s.outElem e) :
    (s.pending = 2 ∨ s.pending = 3) ∧ s.outBase.toNat ≤ e ∧ e < s.outBase.toNat + s.outLen.toNat := by
  have hword : s.pending = 2 ∨ s.pending = 3 :=
    (coreStep_next h).output.resolve_left fun ho => hne (outElem_congr ho (hostSame_coreStep h).params e)
  refine ⟨hword, ?_⟩
  rcases coreStep_cases s with ⟨i, hi, he⟩ | he <;> rw [he] at h
  · by_contra hout
    exact hne (commandsWriteOnlyTheWindow _ i s t hi h e (by omega))
  · cases h
    exact absurd rfl hne

/-- While BUSY = 1 no access of the host changes OUT: a write is a hazard (70_reset_and_hazards.md R246). -/
theorem hostAccess_outMem_of_busy {a : HostAccess} {s t : State} (h : hostAccess a s = .next t)
    (hb : s.status.busy = true) : t.outMem = s.outMem := by
  rcases hostAccess_next h with ⟨i, v, -, -, rfl⟩ | ⟨i, v, -, hn, rfl⟩ | ⟨i, -, rfl⟩ | ⟨-, rfl⟩ |
    ⟨addr, b, -, -, -, rfl⟩ | ⟨addr, -, rfl⟩ | ⟨e, v, -, hn, -, rfl⟩ | ⟨e, -, -, rfl⟩
  · rfl
  · exact absurd (hn.symm.trans hb) Bool.false_ne_true
  · obtain ⟨v, n, he, -⟩ := hostRegRead_frame i s
    rw [he]
    rfl
  · rfl
  · rfl
  · rfl
  · exact absurd (hn.symm.trans hb) Bool.false_ne_true
  · rfl

/-- While BUSY = 1 only the command's own step changes OUT, and only in its window. -/
theorem TurnOutcome.changes_window {s t : State} (h : TurnOutcome s t) (hb : s.status.busy = true)
    (hp : t.params = s.params) {e : Nat} (hne : t.outElem e ≠ s.outElem e) :
    (s.pending = 2 ∨ s.pending = 3) ∧ s.outBase.toNat ≤ e ∧ e < s.outBase.toNat + s.outLen.toNat := by
  cases h with
  | command _ _ run => exact coreStep_changes_window run hne
  | stay l => exact absurd rfl hne
  | waitEnds l => exact absurd rfl hne
  | reset first => exact absurd rfl hne
  | host first access =>
    have ho := hostAccess_outMem_of_busy access hb
    exact absurd (outElem_congr ho hp e) hne

/-- An observed element is shown with its value (70_reset_and_hazards.md R255). -/
theorem mem_observe_out {s : State} {e : Nat} (h : e ∈ s.windowElems) : (e, s.outElem e) ∈ s.observe.out :=
  List.mem_map.2 ⟨e, h, rfl⟩

/-- Settles O60: turns keep the windows, and a changed element lies in the pending command's window, which is kept. -/
theorem theObservationCoversTheWindows : Obligations.TheObservationCoversTheWindows := by
  refine ⟨fun s t hr hk h => ?_, fun s t hr hk hb h e hlt hne => ?_⟩
  · have ho := step_idle_next hr h
    exact ⟨ho.windowKept (step_params h) hk, fun e he => ho.windowElems (step_params h) he⟩
  · have ho := step_idle_next hr h
    obtain ⟨hw, hlo, hhi⟩ := ho.changes_window hb (step_params h) hne
    exact mem_observe_out (ho.windowElems (step_params h) (hk hb hw e hlo hhi hlt))

end Sys2Proof.Machine
end
